-- ==== Sys2Proof/Word.lean ====
section
/-!
DEFINITION. The words of the link-protocol core: bytes, time values and the bit maps of the event
sources (spec/00_scope.md R14, R20; spec/10_state.md R31).
-/

namespace Sys2Proof

/-- A byte, an unsigned value 0 to 255; bit 0 is the least significant (R14). -/
abbrev Byte := BitVec 8

/-- A value of the time base. It is `W_TIME` bits wide and `W_TIME` is a parameter (R12), so it is held
as a number and reduced modulo `2 ^ W_TIME` wherever a rule stores or compares it (R20). -/
abbrev Tick := Nat

/-- One pending bit for each axis or temperature channel (S10, S11, S12, S14). `N_AXES` and `N_TEMPS`
are parameters of at most 256 (R12), so bit `i` of a fixed 256-bit word stands for element `i`; the
bits from `N_AXES` or `N_TEMPS` up are no part of the hardware and stay 0. -/
abbrev BitMap := BitVec 256

end Sys2Proof
end

