-- ==== Sys2Proof/Config.lean ====
section
/-!
DEFINITION. The parameters of an instance of the core (spec/00_scope.md R12) with their constraints,
and the free values: constants without a body, about which nothing can be proved.
-/

namespace Sys2Proof

/-- One row of the parity-check matrix: masks for data bytes 0, 1, 2 and for the group index
(spec/40_parity_codec.md R152). -/
structure ParityRow where
  m0 : Byte
  m1 : Byte
  m2 : Byte
  m3 : Byte
deriving DecidableEq, Repr

/-- The 5 by 4 parity-check matrix `M` (R152). -/
structure ParityMatrix where
  r0 : ParityRow
  r1 : ParityRow
  r2 : ParityRow
  r3 : ParityRow
  r4 : ParityRow
deriving DecidableEq, Repr

/-- The rows of the matrix, row 0 first. -/
def ParityMatrix.rows (m : ParityMatrix) : List ParityRow := [m.r0, m.r1, m.r2, m.r3, m.r4]

/-- The parameters of R12. None is state and none changes (R13); the model carries them in its state
because a step has no other argument. `ID_LEN` is the length of `idPayload`. -/
structure Config where
  /-- `W_TIME`, the width of the time base in bits. -/
  wTime : Nat
  /-- `T_IDLE`, the bound of the idle watchdog. -/
  tIdle : Nat
  /-- `T_ACK`, the acknowledgment timeout. -/
  tAck : Nat
  codeAck0 : Byte
  codeAck1 : Byte
  codeNack : Byte
  /-- `CODE_ID`, the identification request and the lead byte of its response. -/
  codeId : Byte
  /-- `M`, the parity-check matrix. -/
  matrix : ParityMatrix
  idPayload : List Byte
  nAxes : Nat
  nTemps : Nat
  opLimit : BitVec 7
  opSense : BitVec 7
  opMovecb : BitVec 7
  opTempcb : BitVec 7
  opResume : BitVec 7
  opAutosleep : BitVec 7
  opPong : BitVec 7
deriving DecidableEq, Repr

/-- The constraints of R12, R107 and R153 (a): a parameter set that breaks one is outside the spec. -/
structure Config.Legal (c : Config) : Prop where
  wTime_ge : 8 ≤ c.wTime
  tIdle_lt : c.tIdle < 2 ^ (c.wTime - 1)
  tAck_lt : c.tAck < 2 ^ (c.wTime - 1)
  /-- R107: each control code has bit 7 set. -/
  codes_high : c.codeAck0.getLsbD 7 = true ∧ c.codeAck1.getLsbD 7 = true ∧
    c.codeNack.getLsbD 7 = true ∧ c.codeId.getLsbD 7 = true
  /-- R107: the four control codes are pairwise distinct. -/
  codes_distinct : [c.codeAck0, c.codeAck1, c.codeNack, c.codeId].Nodup
  /-- R153 (a): every bit of every data byte enters at least one check bit. -/
  matrix_covers : ∀ i < 8, (∃ r ∈ c.matrix.rows, r.m0.getLsbD i = true) ∧
    (∃ r ∈ c.matrix.rows, r.m1.getLsbD i = true) ∧ (∃ r ∈ c.matrix.rows, r.m2.getLsbD i = true)
  nAxes_range : 1 ≤ c.nAxes ∧ c.nAxes ≤ 128
  nTemps_range : 1 ≤ c.nTemps ∧ c.nTemps ≤ 256

/-- FREE VALUE: byte `i` of the buffer that is state element S`element`, after the `draw`-th `RESET`
left it unspecified (spec/70_reset_and_hazards.md R402). -/
opaque Config.freeByte (draw element i : Nat) : Byte

/-- FREE VALUE: the state element S`element`, no buffer, after the `draw`-th `RESET` left it
unspecified (R402). -/
opaque Config.freeNat (draw element : Nat) : Nat

/-- FREE VALUE: what a read at an index outside a buffer answers. Only states that no run reaches
compute such an index (spec/20_memory.md R72). -/
opaque Config.absentByte (i : Nat) : Byte

end Sys2Proof
end

