-- ==== Sys2Proof/Machine/Bytes.lean ====
section
/-!
DEFINITION. Byte fields, frame lengths and the byte buffers (spec/00_scope.md R19;
spec/20_memory.md R72; spec/30_encoding.md R101, R102).
-/

namespace Sys2Proof.Machine

/-- Whether `n` may be the length of a frame body (R101). -/
def legalLen (n : Nat) : Bool := decide (3 ≤ n ∧ n ≤ 127 ∧ n ≠ 4)

/-- `legal_length(v)` (R101). -/
def legalLength (v : Byte) : Bool := legalLen v.toNat

/-- `G(L)`, the number of groups and of check bytes (R19). -/
def groups (L : Nat) : Nat := (L + 2) / 3

/-- `need(L)`, the number of bytes of a whole frame on the wire (R19). -/
def need (L : Nat) : Nat := L + groups L

/-- The sequence bit of byte 1 of a frame: bit 7 (R102). -/
def seqBit (b : Byte) : Bool := b.getLsbD 7

/-- The opcode of byte 1 of a frame: bits 6 to 0 (R102). -/
def opcodeOf (b : Byte) : BitVec 7 := b.setWidth 7

/-- Byte 1 of a frame: the sequence bit in bit 7, the opcode below it (R102). -/
def seqOpByte (s : Bool) (op : BitVec 7) : Byte := BitVec.ofBool s ++ op

/-- To stamp the sequence bit: clear bit 7, then set it to `s` (R102). -/
def stampSeq (b : Byte) (s : Bool) : Byte := (b &&& 0x7F) ||| (BitVec.ofBool s).setWidth 8 <<< 7

/-- The payload byte of a sense-trigger frame: the flag in bit 7, the axis below it (R116). -/
def senseByte (flag : Bool) (axis : Byte) : Byte := (BitVec.ofBool flag).setWidth 8 <<< 7 ||| axis

/-- `BufRead(buf, i)` (R72). Outside the buffer there is no byte; the value is then free. -/
def bufRead {n : Nat} (buf : Vector Byte n) (i : Nat) : Byte :=
  if h : i < n then buf[i] else Config.absentByte i

/-- `BufWrite(buf, i, v)` (R72): element `i` becomes `v` and no other element changes. -/
def bufWrite {n : Nat} (buf : Vector Byte n) (i : Nat) (v : Byte) : Vector Byte n :=
  buf.setIfInBounds i v

/-- `buf[i .. i+k-1]`, in ascending index (R14). -/
def bufSlice {n : Nat} (buf : Vector Byte n) (i k : Nat) : List Byte :=
  (List.range k).map fun t => bufRead buf (i + t)

/-- `buf[i ..] <- vs`, one byte after the other in ascending index (R16). -/
def bufWriteSlice {n : Nat} (buf : Vector Byte n) (i : Nat) : List Byte → Vector Byte n
  | [] => buf
  | v :: vs => bufWriteSlice (bufWrite buf i v) (i + 1) vs

end Sys2Proof.Machine
end

