-- ==== Sys2Proof/Machine/Codec.lean ====
section
/-!
DEFINITION. The Parity Codec (spec/40_parity_codec.md R150 to R159): pure functions, no state.
-/

namespace Sys2Proof.Machine

/-- `fold(v)`: the parity of the bits of `v` by successive halving shifts (R151). -/
def fold (v : Byte) : Bool :=
  let v := v ^^^ (v >>> 4)
  let v := v ^^^ (v >>> 2)
  let v := v ^^^ (v >>> 1)
  v.getLsbD 0

/-- Check bit of one row: the parity of the selected data bits and tag bits (R155, D5). -/
def checkBit (r : ParityRow) (d0 d1 d2 k : Byte) : Bool :=
  fold ((d0 &&& r.m0) ^^^ (d1 &&& r.m1) ^^^ (d2 &&& r.m2) ^^^ (k &&& r.m3))

/-- The layout of a check byte: the tag in bits 2 to 0, the check bit of row `r` in bit `r + 3` (R155, D6). -/
def packCheck (tag : BitVec 3) (p0 p1 p2 p3 p4 : Bool) : Byte :=
  BitVec.ofBool p4 ++ BitVec.ofBool p3 ++ BitVec.ofBool p2 ++ BitVec.ofBool p1 ++ BitVec.ofBool p0 ++ tag

/-- `encode_block(d, idx)` (R155). -/
def encodeBlock (m : ParityMatrix) (d0 d1 d2 idx : Byte) : Byte :=
  let k := idx &&& 7
  packCheck (idx.setWidth 3) (checkBit m.r0 d0 d1 d2 k) (checkBit m.r1 d0 d1 d2 k)
    (checkBit m.r2 d0 d1 d2 k) (checkBit m.r3 d0 d1 d2 k) (checkBit m.r4 d0 d1 d2 k)

/-- `verify_block(d, c, idx)` (R156). -/
def verifyBlock (m : ParityMatrix) (d0 d1 d2 c idx : Byte) : Bool := c == encodeBlock m d0 d1 d2 idx

/-- The check byte that group `t` of the frame in `buf` must have (R104, R155). -/
def groupCheck (m : ParityMatrix) {n : Nat} (buf : Vector Byte n) (t : Nat) : Byte :=
  encodeBlock m (bufRead buf (3 * t)) (bufRead buf (3 * t + 1)) (bufRead buf (3 * t + 2)) (BitVec.ofNat 8 t)

/-- Whether `verify_block` passes for group `t` of the frame of length `L` in `buf` (R158). -/
def groupOk (m : ParityMatrix) {n : Nat} (buf : Vector Byte n) (L t : Nat) : Bool :=
  verifyBlock m (bufRead buf (3 * t)) (bufRead buf (3 * t + 1)) (bufRead buf (3 * t + 2))
    (bufRead buf (L + t)) (BitVec.ofNat 8 t)

/-- `VERIFY_FRAME(buf)` (R158): the number of the first group that fails, or none. -/
def firstBadGroup (m : ParityMatrix) {n : Nat} (buf : Vector Byte n) : Option Nat :=
  let L := (bufRead buf 0).toNat
  (List.range (groups L)).find? fun t => !groupOk m buf L t

/-- `VERIFY_FRAME(buf) = ok` (R158). -/
def verifyFrame (m : ParityMatrix) {n : Nat} (buf : Vector Byte n) : Bool :=
  (firstBadGroup m buf).isNone

/-- One pass of the loop of `STAMP_CHECKS`: check byte `t` is computed and written (R159). -/
def stampGroup (m : ParityMatrix) (L : Nat) {n : Nat} (buf : Vector Byte n) (t : Nat) : Vector Byte n :=
  bufWrite buf (L + t) (groupCheck m buf t)

/-- `STAMP_CHECKS(buf)` (R159): the check bytes of all groups, in ascending order. -/
def stampChecks (m : ParityMatrix) {n : Nat} (buf : Vector Byte n) : Vector Byte n :=
  let L := (bufRead buf 0).toNat
  (List.range (groups L)).foldl (stampGroup m L) buf

/-- The checksum block that follows `body` on the wire (R100, R104): each check byte is computed from
the frame as it stands so far. -/
def frameOf (m : ParityMatrix) (body : List Byte) : List Byte :=
  (List.range (groups body.length)).foldl (fun f t =>
    f ++ [encodeBlock m (f.getD (3 * t) 0) (f.getD (3 * t + 1) 0) (f.getD (3 * t + 2) 0) (BitVec.ofNat 8 t)]) body

/-- A well-formed frame (R100): a legal length byte, `need(L)` bytes, every check byte right. -/
def wellFormedFrame (m : ParityMatrix) (f : List Byte) : Bool :=
  let L := (f.getD 0 0).toNat
  legalLen L && f.length == need L &&
    (List.range (groups L)).all fun t =>
      verifyBlock m (f.getD (3 * t) 0) (f.getD (3 * t + 1) 0) (f.getD (3 * t + 2) 0) (f.getD (L + t) 0)
        (BitVec.ofNat 8 t)

end Sys2Proof.Machine
end

