-- ==== Sys2Proof/Machine/Params.lean ====
section
/-!
DEFINITION. The default parameters of spec/00_scope.md R12. They are the spec's choices for its test
vectors; the control codes and the matrix are from general knowledge (GK1, GK2), not from the source.
-/

namespace Sys2Proof.Machine

/-- The default matrix (spec/40_parity_codec.md R154). PRESUMED by the spec itself (GK2). -/
def defaultMatrix : ParityMatrix where
  r0 := ⟨0xC0, 0xC3, 0xFF, 0x09⟩
  r1 := ⟨0x38, 0x3A, 0x7E, 0x13⟩
  r2 := ⟨0x26, 0xB5, 0xB9, 0x23⟩
  r3 := ⟨0x95, 0x6C, 0xD5, 0x43⟩
  r4 := ⟨0x4B, 0xDC, 0xE2, 0x83⟩

/-- The default parameters (R12). -/
def defaultConfig : Config where
  wTime := 32
  tIdle := 2
  tAck := 200
  codeAck0 := 0xB3
  codeAck1 := 0xAD
  codeNack := 0x80
  codeId := 0xAA
  matrix := defaultMatrix
  idPayload := [0x01, 0x02, 0x03, 0x04, 0x05, 0x06, 0x07, 0x08]
  nAxes := 3
  nTemps := 8
  opLimit := 0x01
  opSense := 0x02
  opMovecb := 0x03
  opTempcb := 0x04
  opResume := 0x05
  opAutosleep := 0x06
  opPong := 0x07

end Sys2Proof.Machine
end

