-- ==== Sys2Proof/Machine/Rows.lean ====
section
/-!
DEFINITION. Which row of the table a byte or a frame belongs to: the classes of a first byte
(spec/30_encoding.md R110) and the event frames (R115 to R122).
-/

namespace Sys2Proof.Machine

/-- The classes of a first byte, in the order in which they are tested (R110). -/
inductive ByteClass where
  | ack0
  | ack1
  | nack
  | idreq
  | badlen01
  | badlen2
  | badlen4
  | badlenHi
  | len
deriving DecidableEq, Repr

/-- The class of the first byte `b`: the first row of R110 that matches. -/
def classify (c : Config) (b : Byte) : ByteClass :=
  if b = c.codeAck0 then .ack0
  else if b = c.codeAck1 then .ack1
  else if b = c.codeNack then .nack
  else if b = c.codeId then .idreq
  else if b.toNat ≤ 1 then .badlen01
  else if b = 2 then .badlen2
  else if b = 4 then .badlen4
  else if b.getLsbD 7 then .badlenHi
  else .len

/-- Whether `b` is one of the four control codes (R106). -/
def isControl (c : Config) (b : Byte) : Bool :=
  b == c.codeAck0 || b == c.codeAck1 || b == c.codeNack || b == c.codeId

/-- The byte with bit 7 clear and the low bits `v`: a length byte (R100). -/
def lengthByte (v : BitVec 7) : Byte := BitVec.ofBool false ++ v

/-- The byte with bit 7 set and the low bits `v` (row `RX.BADLEN.HI`). -/
def highByte (v : BitVec 7) : Byte := BitVec.ofBool true ++ v

/-- The byte 0 or 1 (row `RX.BADLEN.0_1`). -/
def lowByte (v : Bool) : Byte := (BitVec.ofBool v).setWidth 8

/-- The event frames with one payload byte. -/
inductive EventRow where
  | limit
  | sense
  | movecb
  | tempcb
  | resume
  | autosleep
  | pong
deriving DecidableEq, Repr

/-- The row that a frame of length 3 with opcode `op` and payload byte `a` matches: the rows of R115 to
R122 in their order, none when it matches only `F.REPLY`. The patterns of `F.RESUME` and `F.PONG` fix
the upper bits of the payload byte. -/
def eventRowOf (c : Config) (op : BitVec 7) (a : Byte) : Option EventRow :=
  if op = c.opLimit then some .limit
  else if op = c.opSense then some .sense
  else if op = c.opMovecb then some .movecb
  else if op = c.opTempcb then some .tempcb
  else if op = c.opResume ∧ a.toNat < 2 then some .resume
  else if op = c.opAutosleep then some .autosleep
  else if op = c.opPong ∧ a.toNat < 8 then some .pong
  else none

/-- A body of length 3: length byte, sequence bit and opcode, one payload byte (R115 to R122). -/
def eventBody (s : Bool) (op : BitVec 7) (a : Byte) : List Byte := [0x03, seqOpByte s op, a]

/-- The body of a frame: length byte, sequence bit and opcode, payload (R100, R119). -/
def frameBody (s : Bool) (op : BitVec 7) (payload : List Byte) : List Byte :=
  BitVec.ofNat 8 (2 + payload.length) :: seqOpByte s op :: payload

end Sys2Proof.Machine
end

