-- ==== Sys2Proof/Syntax.lean ====
section
/-!
DEFINITION. The instructions: one constructor for each row of spec/opcode_table.json. The rows of the
formats RST and CMD are the operations of the core (spec/00_scope.md R8); the others are the units in
which those operations read and write the serial link (spec/30_encoding.md R100 to R122). `now` is the
value of the time base with which a unit is presented (R10).
-/

namespace Sys2Proof

/-- The instructions of the core. -/
inductive Instr where
  -- operations (RST, CMD)
  | reset
  | poll (now : Tick)
  | rx (b : Byte) (now : Tick)
  | setinit
  | reply (op : Byte) (payload : List Byte) (now : Tick)
  | limit (axis : Byte) (now : Tick)
  | sense (axis : Byte) (flag : Bool) (now : Tick)
  | movedone (now : Tick)
  | temprdy (ch : Byte) (now : Tick)
  | resume (kind : Byte) (now : Tick)
  | autosleep (mask : Byte) (now : Tick)
  | ping (slot : Byte) (now : Tick)
  | reservedB
  | reservedC
  | reservedD
  | reservedE
  | reservedF
  -- an inbound byte, sub-decoded (FIRSTBYTE, DATABYTE)
  | rxAck0 (now : Tick)
  | rxAck1 (now : Tick)
  | rxNack (now : Tick)
  | rxIdreq (now : Tick)
  | rxBadlen01 (low : Bool) (now : Tick)
  | rxBadlen2 (now : Tick)
  | rxBadlen4 (now : Tick)
  | rxBadlenHi (low : BitVec 7) (now : Tick)
  | rxLen (length : BitVec 7) (now : Tick)
  | rxData (b : Byte) (now : Tick)
  -- frames the core builds (FRAME): sequence bit, fields, check byte or bytes
  | fLimit (s : Bool) (a k : Byte) (now : Tick)
  | fSense (s g : Bool) (a : BitVec 7) (k : Byte) (now : Tick)
  | fMovecb (s : Bool) (n k : Byte) (now : Tick)
  | fTempcb (s : Bool) (c k : Byte) (now : Tick)
  | fReply (s : Bool) (op : BitVec 7) (payload checks : List Byte) (now : Tick)
  | fResume (s r : Bool) (k : Byte) (now : Tick)
  | fAutosleep (s : Bool) (m k : Byte) (now : Tick)
  | fPong (s : Bool) (q : BitVec 3) (k : Byte) (now : Tick)
  -- a frame as received (FRAME), the identification response (RAW), one check byte (BYTE)
  | fInbound (s : Bool) (op : BitVec 7) (payload checks : List Byte) (now : Tick)
  | idResponse (payload : List Byte)
  | checkByte (tag : BitVec 3) (p0 p1 p2 p3 p4 : Bool) (now : Tick)
deriving DecidableEq, Repr

/-- A request on the command port (spec/30_encoding.md R125). -/
structure Request where
  opSel : BitVec 4
  arg0 : Byte
  arg1 : Byte
  data : Vector Byte 125
  dataLen : BitVec 7
  now : Tick
deriving DecidableEq, Repr

/-- What can be presented to the core: the reset input and a command-port request (R125), and the units
of the serial link that the table lists as rows of their own. -/
inductive Presented where
  /-- The separate reset input (format RST). -/
  | resetLine
  /-- A request on the command port (format CMD). -/
  | request (r : Request)
  /-- One inbound byte, to be sub-decoded (formats FIRSTBYTE and DATABYTE). -/
  | inboundByte (b : Byte) (now : Tick)
  /-- A frame the multiplexer is to transmit (format FRAME, rows `F.LIMIT` to `F.PONG`). -/
  | outboundFrame (f : List Byte) (now : Tick)
  /-- A whole frame from the host, its first byte presented at `now` (format FRAME, row `F.INBOUND`). -/
  | inboundFrame (f : List Byte) (now : Tick)
  /-- An unframed response (format RAW). -/
  | rawResponse (f : List Byte)
  /-- One check byte (format BYTE). -/
  | checkByte (b : Byte) (now : Tick)
deriving DecidableEq, Repr

end Sys2Proof
end

