-- ==== Sys2Proof/WellFormed.lean ====
section
/-!
DEFINITION. Which instructions are well formed under given parameters: those that an encoding of
spec/30_encoding.md stands for.
-/

namespace Sys2Proof

open Sys2Proof.Machine

/-- `now` fits the `W_TIME` bits of its field (R125). -/
def timeOk (c : Config) (now : Tick) : Bool := decide (now < 2 ^ c.wTime)

/-- A frame of length 3 with check byte `k`: the frame is one of R100 and belongs to the row `r`. -/
def eventOk (c : Config) (r : EventRow) (s : Bool) (op : BitVec 7) (a k : Byte) : Bool :=
  eventRowOf c op a == some r && wellFormedFrame c.matrix (eventBody s op a ++ [k])

/-- A frame of any length with check bytes `checks`: the frame is one of R100. -/
def frameOk (c : Config) (s : Bool) (op : BitVec 7) (payload checks : List Byte) : Bool :=
  decide (payload.length ≤ 125) && wellFormedFrame c.matrix (frameBody s op payload ++ checks)

/-- Whether the frame would be read as one of the event rows and not as `F.REPLY` (R123). -/
def looksLikeEvent (c : Config) (op : BitVec 7) : List Byte → Bool
  | [a] => (eventRowOf c op a).isSome
  | _ => false

/-- Well-formedness of an instruction. -/
def wellFormed (c : Config) : Instr → Bool
  | .reset => true
  | .poll now => timeOk c now
  | .rx _ now => timeOk c now
  | .setinit => true
  | .reply _ payload now => timeOk c now && decide (payload.length ≤ 125)
  | .limit _ now => timeOk c now
  | .sense _ _ now => timeOk c now
  | .movedone now => timeOk c now
  | .temprdy _ now => timeOk c now
  | .resume _ now => timeOk c now
  | .autosleep _ now => timeOk c now
  | .ping _ now => timeOk c now
  | .reservedB => true
  | .reservedC => true
  | .reservedD => true
  | .reservedE => true
  | .reservedF => true
  | .rxAck0 now => timeOk c now
  | .rxAck1 now => timeOk c now
  | .rxNack now => timeOk c now
  | .rxIdreq now => timeOk c now
  | .rxBadlen01 _ now => timeOk c now
  | .rxBadlen2 now => timeOk c now
  | .rxBadlen4 now => timeOk c now
  | .rxBadlenHi v now => timeOk c now && !isControl c (highByte v)
  | .rxLen v now => timeOk c now && legalLength (lengthByte v)
  | .rxData _ now => timeOk c now
  | .fLimit s a k now => timeOk c now && decide (a.toNat < c.nAxes) && eventOk c .limit s c.opLimit a k
  | .fSense s g a k now =>
      timeOk c now && decide (a.toNat < c.nAxes) && eventOk c .sense s c.opSense (BitVec.ofBool g ++ a) k
  | .fMovecb s n k now => timeOk c now && n != 0 && eventOk c .movecb s c.opMovecb n k
  | .fTempcb s ch k now => timeOk c now && decide (ch.toNat < c.nTemps) && eventOk c .tempcb s c.opTempcb ch k
  | .fReply s op payload checks now =>
      timeOk c now && frameOk c s op payload checks && !looksLikeEvent c op payload
  | .fResume s r k now => timeOk c now && eventOk c .resume s c.opResume ((BitVec.ofBool r).setWidth 8) k
  | .fAutosleep s m k now => timeOk c now && eventOk c .autosleep s c.opAutosleep m k
  | .fPong s q k now => timeOk c now && eventOk c .pong s c.opPong (q.setWidth 8) k
  | .fInbound s op payload checks now => timeOk c now && frameOk c s op payload checks
  | .idResponse payload => payload == c.idPayload
  | .checkByte _ _ _ _ _ _ now => timeOk c now

end Sys2Proof
end

