-- ==== Sys2Proof/Decode.lean ====
section
/-!
DEFINITION. Decoding and encoding (spec/30_encoding.md): from a presented unit to the instruction its
bits stand for, and back. Total: a unit that is no row of the table is rejected by name.
-/

namespace Sys2Proof

open Sys2Proof.Machine

/-- Why a presented unit is no row of the table. -/
inductive Reject where
  /-- A frame needs at least a length byte and a byte with sequence bit and opcode (R100). -/
  | frameTooShort
  /-- The first byte of the frame is no legal length (R101). -/
  | frameIllegalLength
  /-- The frame has not the `need(L)` bytes that its length byte states (R100). -/
  | frameWrongSize
  /-- The raw bytes are not `CODE_ID` followed by `ID_LEN` bytes (R109). -/
  | notIdentification
deriving DecidableEq, Repr

/-- The time field of a request has `W_TIME` bits (R125). -/
def timeField (c : Config) (now : Tick) : Tick := now % 2 ^ c.wTime

/-- `data[0 .. data_len-1]` of a request (R125). -/
def Request.payload (r : Request) : List Byte := bufSlice r.data 0 r.dataLen.toNat

/-- The operation of a request, by its selector (R125). Fields marked `-` there are ignored (R126).
The last line is selector 0xF, the one value left. -/
def decodeRequest (c : Config) (r : Request) : Instr :=
  let now := timeField c r.now
  match r.opSel with
  | 0x0#4 => .poll now
  | 0x1#4 => .rx r.arg0 now
  | 0x2#4 => .setinit
  | 0x3#4 => .reply r.arg0 r.payload now
  | 0x4#4 => .limit r.arg0 now
  | 0x5#4 => .sense r.arg0 (r.arg1.getLsbD 0) now
  | 0x6#4 => .movedone now
  | 0x7#4 => .temprdy r.arg0 now
  | 0x8#4 => .resume r.arg0 now
  | 0x9#4 => .autosleep r.arg0 now
  | 0xA#4 => .ping r.arg0 now
  | 0xB#4 => .reservedB
  | 0xC#4 => .reservedC
  | 0xD#4 => .reservedD
  | 0xE#4 => .reservedE
  | _ => .reservedF

/-- The row of an inbound byte (R110): data while a frame is being accumulated, else a first byte. -/
def decodeByte (c : Config) (idle : Bool) (b : Byte) (now : Tick) : Instr :=
  if idle then
    match classify c b with
    | .ack0 => .rxAck0 now
    | .ack1 => .rxAck1 now
    | .nack => .rxNack now
    | .idreq => .rxIdreq now
    | .badlen01 => .rxBadlen01 (b.getLsbD 0) now
    | .badlen2 => .rxBadlen2 now
    | .badlen4 => .rxBadlen4 now
    | .badlenHi => .rxBadlenHi (b.setWidth 7) now
    | .len => .rxLen (b.setWidth 7) now
  else .rxData b now

/-- The fields of a frame of the layout of R100. -/
structure FrameFields where
  s : Bool
  op : BitVec 7
  payload : List Byte
  checks : List Byte
deriving DecidableEq, Repr

/-- Takes a frame apart by its length byte (R100). The check bytes are not verified here. -/
def splitFrame : List Byte → Except Reject FrameFields
  | l :: so :: rest =>
      if !legalLength l then .error .frameIllegalLength
      else if rest.length + 2 ≠ need l.toNat then .error .frameWrongSize
      else .ok ⟨seqBit so, opcodeOf so, rest.take (l.toNat - 2), rest.drop (l.toNat - 2)⟩
  | _ => .error .frameTooShort

/-- The row of a frame of length 3 with payload byte `a` and check byte `k` (R115 to R122). -/
def decodeEvent (c : Config) (s : Bool) (op : BitVec 7) (a k : Byte) (now : Tick) : Instr :=
  match eventRowOf c op a with
  | some .limit => .fLimit s a k now
  | some .sense => .fSense s (a.getLsbD 7) (a.setWidth 7) k now
  | some .movecb => .fMovecb s a k now
  | some .tempcb => .fTempcb s a k now
  | some .resume => .fResume s (a.getLsbD 0) k now
  | some .autosleep => .fAutosleep s a k now
  | some .pong => .fPong s (a.setWidth 3) k now
  | none => .fReply s op [a] [k] now

/-- The row of an outbound frame. -/
def decodeOutbound (c : Config) (f : FrameFields) (now : Tick) : Instr :=
  match f.payload, f.checks with
  | [a], [k] => decodeEvent c f.s f.op a k now
  | _, _ => .fReply f.s f.op f.payload f.checks now

/-- The row of an unframed response (R109). -/
def decodeRaw (c : Config) : List Byte → Except Reject Instr
  | lead :: payload =>
      if lead = c.codeId ∧ payload.length = c.idPayload.length then .ok (.idResponse payload)
      else .error .notIdentification
  | [] => .error .notIdentification

/-- The fields of a check byte (R155, D6). -/
def decodeCheck (b : Byte) (now : Tick) : Instr :=
  .checkByte (b.setWidth 3) (b.getLsbD 3) (b.getLsbD 4) (b.getLsbD 5) (b.getLsbD 6) (b.getLsbD 7) now

/-- The decoder. `idle` says whether the assembler waits for a first byte when the unit is presented; the
row of an inbound byte depends on it (R110). -/
def decode (c : Config) (idle : Bool) : Presented → Except Reject Instr
  | .resetLine => .ok .reset
  | .request r => .ok (decodeRequest c r)
  | .inboundByte b now => .ok (decodeByte c idle b (timeField c now))
  | .outboundFrame f now => (splitFrame f).map fun x => decodeOutbound c x (timeField c now)
  | .inboundFrame f now =>
      (splitFrame f).map fun x => .fInbound x.s x.op x.payload x.checks (timeField c now)
  | .rawResponse f => decodeRaw c f
  | .checkByte b now => .ok (decodeCheck b (timeField c now))

/-! ### The encoder -/

/-- A request without payload (R125); the fields the operation ignores are 0. -/
def plainRequest (opSel : BitVec 4) (arg0 arg1 : Byte) (now : Tick) : Request where
  opSel := opSel
  arg0 := arg0
  arg1 := arg1
  data := Vector.replicate 125 0
  dataLen := 0
  now := now

/-- The request of `REPLY` (R125). -/
def replyRequest (op : Byte) (payload : List Byte) (now : Tick) : Request :=
  { plainRequest 0x3 op 0 now with
    data := bufWriteSlice (Vector.replicate 125 0) 0 payload
    dataLen := BitVec.ofNat 7 payload.length }

/-- An outbound event frame: body and check byte (R115 to R122). -/
def eventUnit (s : Bool) (op : BitVec 7) (a k : Byte) (now : Tick) : Presented :=
  .outboundFrame (eventBody s op a ++ [k]) now

/-- The encoder: the unit that stands for a well-formed instruction. -/
def encode (c : Config) : Instr → Presented
  | .reset => .resetLine
  | .poll now => .request (plainRequest 0x0 0 0 now)
  | .rx b now => .request (plainRequest 0x1 b 0 now)
  | .setinit => .request (plainRequest 0x2 0 0 0)
  | .reply op payload now => .request (replyRequest op payload now)
  | .limit axis now => .request (plainRequest 0x4 axis 0 now)
  | .sense axis flag now => .request (plainRequest 0x5 axis (lowByte flag) now)
  | .movedone now => .request (plainRequest 0x6 0 0 now)
  | .temprdy ch now => .request (plainRequest 0x7 ch 0 now)
  | .resume kind now => .request (plainRequest 0x8 kind 0 now)
  | .autosleep mask now => .request (plainRequest 0x9 mask 0 now)
  | .ping slot now => .request (plainRequest 0xA slot 0 now)
  | .reservedB => .request (plainRequest 0xB 0 0 0)
  | .reservedC => .request (plainRequest 0xC 0 0 0)
  | .reservedD => .request (plainRequest 0xD 0 0 0)
  | .reservedE => .request (plainRequest 0xE 0 0 0)
  | .reservedF => .request (plainRequest 0xF 0 0 0)
  | .rxAck0 now => .inboundByte c.codeAck0 now
  | .rxAck1 now => .inboundByte c.codeAck1 now
  | .rxNack now => .inboundByte c.codeNack now
  | .rxIdreq now => .inboundByte c.codeId now
  | .rxBadlen01 v now => .inboundByte (lowByte v) now
  | .rxBadlen2 now => .inboundByte 2 now
  | .rxBadlen4 now => .inboundByte 4 now
  | .rxBadlenHi v now => .inboundByte (highByte v) now
  | .rxLen v now => .inboundByte (lengthByte v) now
  | .rxData b now => .inboundByte b now
  | .fLimit s a k now => eventUnit s c.opLimit a k now
  | .fSense s g a k now => eventUnit s c.opSense (BitVec.ofBool g ++ a) k now
  | .fMovecb s n k now => eventUnit s c.opMovecb n k now
  | .fTempcb s ch k now => eventUnit s c.opTempcb ch k now
  | .fReply s op payload checks now => .outboundFrame (frameBody s op payload ++ checks) now
  | .fResume s r k now => eventUnit s c.opResume ((BitVec.ofBool r).setWidth 8) k now
  | .fAutosleep s m k now => eventUnit s c.opAutosleep m k now
  | .fPong s q k now => eventUnit s c.opPong (q.setWidth 8) k now
  | .fInbound s op payload checks now => .inboundFrame (frameBody s op payload ++ checks) now
  | .idResponse payload => .rawResponse (c.codeId :: payload)
  | .checkByte tag p0 p1 p2 p3 p4 now => .checkByte (packCheck tag p0 p1 p2 p3 p4) now

/-- In which state of the assembler the row of an instruction is read: `RX.DATA` while a frame is being
accumulated, every other row while none is (R110). -/
def decodesIdle : Instr → Bool
  | .rxData _ _ => false
  | _ => true

/-! ### The words of the opcode table -/

/-- The bytes of a word of `n` bytes in transmission order: the table numbers a frame as one number whose
most significant byte is sent first. -/
def wordBytes : Nat → Nat → List Byte
  | 0, _ => []
  | n + 1, w => wordBytes n (w / 256) ++ [BitVec.ofNat 8 w]

/-- The bytes `f` followed by zeros up to `n` bytes: a word may be shorter than what it begins. -/
def padTo (n : Nat) (f : List Byte) : List Byte := f ++ List.replicate (n - f.length) 0

/-- The unit that the table's word of `nbits` bits stands for. One byte below 16 is a selector of the
command port, its other fields 0 (format CMD); one byte from 16 up is an inbound byte met as a first
byte (format FIRSTBYTE); more bytes are the identification response if they begin with `CODE_ID` (format
RAW), else an outbound frame (format FRAME). `now` is 0.
DESIGN CHOICE (log entry 14): `CODE_ID` and `ID_LEN` are R12's defaults here, with which the table writes its
words, also where the unit is then presented to a state with other parameters. -/
def tableUnit (nbits w : Nat) : Presented :=
  if nbits ≤ 8 then
    if w < 16 then .request (plainRequest (BitVec.ofNat 4 w) 0 0 0)
    else .inboundByte (BitVec.ofNat 8 w) 0
  else
    let f := wordBytes (nbits / 8) w
    if f.headD 0 = defaultConfig.codeId then .rawResponse (padTo (1 + defaultConfig.idPayload.length) f)
    else .outboundFrame (padTo (need (f.headD 0).toNat) f) 0

/-- The instruction the decoder reads from a word of the opcode table, with the default parameters. -/
def decodeTableWord (nbits w : Nat) : Option Instr :=
  (decode defaultConfig true (tableUnit nbits w)).toOption

end Sys2Proof
end

