-- ==== Sys2Proof/Machine/State.lean ====
section
/-!
DEFINITION. The state of the core (spec/10_state.md R31, S0 to S24), with the outputs of the operation
that ran last, the parameters and the queue of presented units; the reasons for which a step can stop;
the state after reset.
-/

namespace Sys2Proof.Machine

/-- Why the core stops. There is no such reason: "nothing in this core is fatal", every operation ends
with a next state (spec/60_exceptions.md R350). Raised by no one, so neither safe nor unsafe. -/
inductive Fault where
deriving DecidableEq, Repr

/-- Why the model gives no next state. -/
inductive Refusal where
  /-- The instruction has no meaning in the model yet. Raised by an arm of `exec`; safe. -/
  | notModelled (mnemonic : String)
  /-- The presented unit is no row of the table, for the reason given. Raised by `step` when the decoder
  rejects the unit at the head of the input queue, never by an operation of the core; safe. -/
  | undecodable (reason : Reject)
deriving DecidableEq, Repr

/-- The conditions an operation can signal (spec/60_exceptions.md R351). -/
inductive Condition where
  | malformedLength
  | checksumMismatch
  | duplicateFrame
  | staleAck
  | staleNack
  | ackTimeout
  | idleTimeout
  | droppedUninit
  | replyRejected
  | badArgument
deriving DecidableEq, Repr

/-- A delivery to the application: `on_packet(opcode, payload)` (spec/42_duplicate_suppressor.md R214). -/
structure Delivery where
  opcode : BitVec 7
  payload : List Byte
deriving DecidableEq, Repr

/-- The outputs of an operation (spec/00_scope.md R10). -/
structure Outputs where
  /-- The bytes handed to the serial link, in order. -/
  tx : List Byte
  /-- The deliveries: none or one for an operation; a row that stands for several operations collects
  theirs. -/
  deliver : List Delivery
  /-- The conditions signalled, in order. -/
  ev : List Condition
  /-- What `REPLY` returns; none for any other operation. -/
  accepted : Option Bool
deriving DecidableEq, Repr

/-- No output. -/
def Outputs.empty : Outputs := ⟨[], [], [], none⟩

/-- The Frame Assembler (S4, S5, S6). -/
structure Assembler where
  /-- S4 `rx_buf[0..169]` (R41). -/
  rxBuf : Vector Byte 170
  /-- S5 `bytes_accumulated`, the sequencing register (R33). -/
  bytesAccumulated : Byte
  /-- S6 `last_byte_time` (R42). -/
  lastByteTime : Tick
deriving DecidableEq, Repr

/-- The Sender and its timer (S1, S2, S7, S8, S9). -/
structure Sender where
  /-- S1 `send_sequence_bit` (R37). -/
  sendSequenceBit : Bool
  /-- S2 `outbound_busy` (R38). -/
  outboundBusy : Bool
  /-- S7 `tx_buf[0..169]`, the frame kept for retransmission (R43). -/
  txBuf : Vector Byte 170
  /-- S8 `tx_len` (R43). -/
  txLen : Byte
  /-- S9 `send_time` (R44). -/
  sendTime : Tick
deriving DecidableEq, Repr

/-- The event sources of the Outbound Multiplexer (S10 to S24). -/
structure Sources where
  /-- S10 `limit_pending[a]` (R47). -/
  limitPending : BitMap
  /-- S11 `sense_pending[a]` (R48). -/
  sensePending : BitMap
  /-- S12 `sense_flag[a]` (R48). -/
  senseFlag : BitMap
  /-- S13 `move_done_count`, saturating (R49). -/
  moveDoneCount : Byte
  /-- S14 `temp_pending[c]` (R50). -/
  tempPending : BitMap
  /-- S15 `temp_rr`, the channel at which the next scan starts (R50). -/
  tempRr : Nat
  /-- S16 `reply_pending` (R51). -/
  replyPending : Bool
  /-- S17 `reply_op` (R51). -/
  replyOp : BitVec 7
  /-- S18 `reply_len` (R51). -/
  replyLen : BitVec 7
  /-- S19 `reply_buf[0..124]` (R51). -/
  replyBuf : Vector Byte 125
  /-- S20 `resume_move_pending` (R52). -/
  resumeMovePending : Bool
  /-- S21 `resume_audio_pending` (R52). -/
  resumeAudioPending : Bool
  /-- S22 `autosleep_pending` (R53). -/
  autosleepPending : Bool
  /-- S23 `autosleep_mask` (R53). -/
  autosleepMask : Byte
  /-- S24 `ping_pending` (R54). -/
  pingPending : Byte
deriving DecidableEq, Repr

/-- The state of the core. -/
structure State where
  /-- The parameters of this instance (spec/00_scope.md R12). The model's own field: no step changes it. -/
  cfg : Config
  /-- S0 `receive_sequence_bit` (R36). -/
  receiveSequenceBit : Bool
  /-- S3 `initialized`, the mode bit (R39). -/
  initialized : Bool
  asm : Assembler
  snd : Sender
  src : Sources
  /-- The outputs of the operation that ran last. -/
  out : Outputs
  /-- The model's own field: how often `RESET` has drawn free values. -/
  freeDraws : Nat
  /-- The model's own field: the units presented and not yet executed, in their order. -/
  input : List Presented
deriving DecidableEq, Repr

/-- The assembler after reset. Only S5 has a value in the spec; S4 and S6 are 0 by DESIGN CHOICE. -/
def Assembler.reset : Assembler where
  rxBuf := Vector.replicate 170 0
  bytesAccumulated := 0
  lastByteTime := 0

/-- The sender after reset. S1 and S2 are the spec's; S7, S8, S9 are 0 by DESIGN CHOICE. -/
def Sender.reset : Sender where
  sendSequenceBit := false
  outboundBusy := false
  txBuf := Vector.replicate 170 0
  txLen := 0
  sendTime := 0

/-- The sources after reset. S17, S18, S19 are 0 by DESIGN CHOICE; the rest is the spec's. -/
def Sources.reset : Sources where
  limitPending := 0
  sensePending := 0
  senseFlag := 0
  moveDoneCount := 0
  tempPending := 0
  tempRr := 0
  replyPending := false
  replyOp := 0
  replyLen := 0
  replyBuf := Vector.replicate 125 0
  resumeMovePending := false
  resumeAudioPending := false
  autosleepPending := false
  autosleepMask := 0
  pingPending := 0

/-- The machine right after reset (spec/70_reset_and_hazards.md R401): the default parameters, nothing
presented yet. -/
def State.reset : State where
  cfg := defaultConfig
  receiveSequenceBit := false
  initialized := false
  asm := Assembler.reset
  snd := Sender.reset
  src := Sources.reset
  out := Outputs.empty
  freeDraws := 0
  input := []

end Sys2Proof.Machine
end

