-- ==== Sys2Proof/Machine/Flags.lean ====
section
/-!
DEFINITION. Bits and flags. The core has no condition codes (spec/10_state.md R35); what it has is the
pending bits of the event sources and the conditions of spec/60_exceptions.md R351.
-/

namespace Sys2Proof.Machine

/-- Bit `i` becomes 1. -/
def setBit {w : Nat} (m : BitVec w) (i : Nat) : BitVec w := m ||| BitVec.twoPow w i

/-- Bit `i` becomes 0. -/
def clearBit {w : Nat} (m : BitVec w) (i : Nat) : BitVec w := m &&& ~~~BitVec.twoPow w i

/-- Bit `i` becomes `v`. -/
def assignBit {w : Nat} (m : BitVec w) (i : Nat) (v : Bool) : BitVec w :=
  if v then setBit m i else clearBit m i

/-- The lowest set bit below `n` (the scans of R263, R264, R271). -/
def firstSet {w : Nat} (n : Nat) (m : BitVec w) : Option Nat :=
  (List.range n).find? fun i => m.getLsbD i

/-- The number of set bits below `n` (R275). -/
def countSet {w : Nat} (n : Nat) (m : BitVec w) : Nat :=
  (List.range n).countP fun i => m.getLsbD i

/-- The first channel with a set bit in the scan that starts at `rr` and goes round (R256, R266). -/
def firstSetFrom {w : Nat} (n rr : Nat) (m : BitVec w) : Option Nat :=
  ((List.range n).map fun k => (rr + k) % n).find? fun i => m.getLsbD i

/-- The increment of the move-completion counter: saturating at 255 (spec/00_scope.md R21). -/
def saturatingSucc (n : Byte) : Byte := if n.toNat < 255 then n + 1 else n

/-- The code of a condition in the output `ev` (R351). -/
def Condition.code : Condition → Nat
  | .malformedLength => 1
  | .checksumMismatch => 2
  | .duplicateFrame => 3
  | .staleAck => 4
  | .staleNack => 5
  | .ackTimeout => 6
  | .idleTimeout => 7
  | .droppedUninit => 8
  | .replyRejected => 9
  | .badArgument => 10

end Sys2Proof.Machine
end

