-- ==== Sys2Proof/Machine/Operands.lean ====
section
/-!
DEFINITION. Operands: the sampled time (spec/00_scope.md R10, R20) and the ranges of arguments
(spec/44_outbound_mux.md R255, R276).
-/

namespace Sys2Proof.Machine

/-- The sampled value of `now`: `W_TIME` bits (R10, R20). -/
def sampled (c : Config) (now : Nat) : Nat := now % 2 ^ c.wTime

/-- `elapsed(t) = (now - t) mod 2 ^ W_TIME` (R20). -/
def elapsed (c : Config) (now t : Nat) : Nat :=
  (sampled c now + 2 ^ c.wTime - sampled c t) % 2 ^ c.wTime

/-- Whether `axis` is one of the `N_AXES` monitored axes (R251, R252). -/
def axisOk (c : Config) (axis : Byte) : Bool := decide (axis.toNat < c.nAxes)

/-- Whether `ch` is one of the `N_TEMPS` temperature channels (R254). -/
def channelOk (c : Config) (ch : Byte) : Bool := decide (ch.toNat < c.nTemps)

/-- Whether `kind` is 0 (move) or 1 (audio) (R257). -/
def kindOk (kind : Byte) : Bool := decide (kind.toNat ≤ 1)

/-- Whether `slot` is one of the eight ping slots (R259). -/
def slotOk (slot : Byte) : Bool := decide (slot.toNat ≤ 7)

/-- Whether `REPLY op,payload` is accepted: the slot free, the length one that can be framed, the opcode
one of 7 bits (R255). -/
def replyOk (q : Sources) (op : Byte) (payload : List Byte) : Bool :=
  !q.replyPending && legalLen (2 + payload.length) && decide (op.toNat ≤ 127)

end Sys2Proof.Machine
end

