-- ==== Sys2Proof/Machine/Ops.lean ====
section
/-!
DEFINITION. The operations every rule is written with (spec/00_scope.md R15): `emit`, `signal`,
`deliver`, and the start of an operation. The core has no trap entry and no return from one
(spec/60_exceptions.md R365, R366): `signal` is all that an exceptional condition does by itself, and its
recovery stands in the rule that signals.
-/

namespace Sys2Proof.Machine

/-- The outputs of an operation are produced afresh: they are empty when it begins (spec/10_state.md R32). -/
def State.startOp (s : State) : State := { s with out := Outputs.empty }

/-- `emit(bs)`: append `bs` to the output `tx` (R15). Emission always succeeds
(spec/70_reset_and_hazards.md R422). -/
def State.emit (s : State) (bs : List Byte) : State := { s with out := { s.out with tx := s.out.tx ++ bs } }

/-- `signal e`: append `e` to the output `ev`, and nothing else (R15; spec/60_exceptions.md R351). -/
def State.signal (s : State) (e : Condition) : State := { s with out := { s.out with ev := s.out.ev ++ [e] } }

/-- `deliver(op, p)` (R15). -/
def State.deliverPacket (s : State) (op : BitVec 7) (payload : List Byte) : State :=
  { s with out := { s.out with deliver := s.out.deliver ++ [⟨op, payload⟩] } }

/-- The output `accepted` of `REPLY` (spec/44_outbound_mux.md R255). -/
def State.setAccepted (s : State) (v : Bool) : State := { s with out := { s.out with accepted := some v } }

/-- `BAD_ARG()`: signal `BadArgument`; no state change, no output, `POST()` is not called (R276). -/
def State.badArg (s : State) : State := s.signal .badArgument

/-- `bytes_accumulated <- n`, the sequencing register of the assembler (R33). -/
def State.setAccumulated (s : State) (n : Byte) : State :=
  { s with asm := { s.asm with bytesAccumulated := n } }

/-- A byte is stored at index `i` of `rx_buf`, the count becomes `n`, and the byte's time is recorded
(spec/41_frame_assembler.md R183, R185). -/
def State.storeRx (s : State) (i : Nat) (b : Byte) (n : Byte) (now : Tick) : State :=
  { s with asm := ⟨bufWrite s.asm.rxBuf i b, n, sampled s.cfg now⟩ }

/-- The event sources become `q`. -/
def State.withSources (s : State) (q : Sources) : State := { s with src := q }

end Sys2Proof.Machine
end

