-- ==== Sys2Proof/Machine/Outbound.lean ====
section
/-!
DEFINITION. The outbound path: the sources of the Outbound Multiplexer in priority order
(spec/44_outbound_mux.md R263 to R272), `PREPARE`, `SEND` and `RETRANSMIT` (spec/45_sender.md R301, R303,
R305), `MUX` and `POST` (R262, R260).
-/

namespace Sys2Proof.Machine

/-- The nine sources, in priority order (R272). -/
inductive Source where
  | limit
  | sense
  | movecb
  | tempcb
  | reply
  | resumeMove
  | resumeAudio
  | autosleep
  | pong
deriving DecidableEq, Repr

/-- What a pick answers: the source, the body it builds, and the sources with that event removed. -/
structure Picked where
  source : Source
  body : List Byte
  rest : Sources
deriving DecidableEq, Repr

/-- `PICK_LIMIT()` (R263). -/
def pickLimit (c : Config) (q : Sources) : Option Picked :=
  (firstSet c.nAxes q.limitPending).map fun a =>
    ⟨.limit, eventBody false c.opLimit (BitVec.ofNat 8 a), { q with limitPending := clearBit q.limitPending a }⟩

/-- `PICK_SENSE()` (R264). -/
def pickSense (c : Config) (q : Sources) : Option Picked :=
  (firstSet c.nAxes q.sensePending).map fun a =>
    ⟨.sense, eventBody false c.opSense (senseByte (q.senseFlag.getLsbD a) (BitVec.ofNat 8 a)),
      { q with sensePending := clearBit q.sensePending a }⟩

/-- `PICK_MOVECB()` (R265). -/
def pickMovecb (c : Config) (q : Sources) : Option Picked :=
  if q.moveDoneCount = 0 then none
  else some ⟨.movecb, eventBody false c.opMovecb q.moveDoneCount, { q with moveDoneCount := 0 }⟩

/-- `PICK_TEMPCB()` (R266). -/
def pickTempcb (c : Config) (q : Sources) : Option Picked :=
  (firstSetFrom c.nTemps q.tempRr q.tempPending).map fun ch =>
    ⟨.tempcb, eventBody false c.opTempcb (BitVec.ofNat 8 ch),
      { q with tempPending := clearBit q.tempPending ch, tempRr := (ch + 1) % c.nTemps }⟩

/-- `PICK_REPLY()` (R267). -/
def pickReply (q : Sources) : Option Picked :=
  if q.replyPending then
    some ⟨.reply, frameBody false q.replyOp (bufSlice q.replyBuf 0 q.replyLen.toNat), { q with replyPending := false }⟩
  else none

/-- Move-resume (R268). -/
def pickResumeMove (c : Config) (q : Sources) : Option Picked :=
  if q.resumeMovePending then
    some ⟨.resumeMove, eventBody false c.opResume 0, { q with resumeMovePending := false }⟩
  else none

/-- Audio-resume (R269). -/
def pickResumeAudio (c : Config) (q : Sources) : Option Picked :=
  if q.resumeAudioPending then
    some ⟨.resumeAudio, eventBody false c.opResume 1, { q with resumeAudioPending := false }⟩
  else none

/-- Auto-sleep notice (R270). -/
def pickAutosleep (c : Config) (q : Sources) : Option Picked :=
  if q.autosleepPending then
    some ⟨.autosleep, eventBody false c.opAutosleep q.autosleepMask,
      { q with autosleepPending := false, autosleepMask := 0 }⟩
  else none

/-- `PICK_PONG()` (R271). -/
def pickPong (c : Config) (q : Sources) : Option Picked :=
  (firstSet 8 q.pingPending).map fun slot =>
    ⟨.pong, eventBody false c.opPong (BitVec.ofNat 8 slot), { q with pingPending := clearBit q.pingPending slot }⟩

/-- `PICK()`: the first source of the fixed order that has an event (R272). -/
def pick (c : Config) (q : Sources) : Option Picked :=
  pickLimit c q <|> pickSense c q <|> pickMovecb c q <|> pickTempcb c q <|> pickReply q <|>
    pickResumeMove c q <|> pickResumeAudio c q <|> pickAutosleep c q <|> pickPong c q

/-- The finite quantity of R275: how many events are pending. Each pick removes one. -/
def pendingUnits (c : Config) (q : Sources) : Nat :=
  countSet c.nAxes q.limitPending + countSet c.nAxes q.sensePending + (if q.moveDoneCount = 0 then 0 else 1) +
    countSet c.nTemps q.tempPending + q.replyPending.toNat + q.resumeMovePending.toNat +
    q.resumeAudioPending.toNat + q.autosleepPending.toNat + countSet 8 q.pingPending

/-- The frame buffer after `PREPARE(body)`: the body, its sequence bit stamped before any check byte is
computed, then the check bytes in ascending order (R301, R302). -/
def preparedBuf (m : ParityMatrix) (seq : Bool) (body : List Byte) (buf : Vector Byte 170) : Vector Byte 170 :=
  let buf := bufWriteSlice buf 0 body
  let buf := bufWrite buf 1 (stampSeq (bufRead buf 1) seq)
  stampChecks m buf

/-- `PREPARE(body)` (R301). -/
def State.prepare (s : State) (body : List Byte) : State :=
  { s with snd := { s.snd with
      txBuf := preparedBuf s.cfg.matrix s.snd.sendSequenceBit body s.snd.txBuf
      txLen := BitVec.ofNat 8 (need (body.headD 0).toNat) } }

/-- `tx_buf[0 .. tx_len-1]`, the frame kept for retransmission (R43). -/
def Sender.frame (d : Sender) : List Byte := bufSlice d.txBuf 0 d.txLen.toNat

/-- `SEND()` (R303). -/
def State.send (s : State) (now : Tick) : State :=
  let s := s.emit s.snd.frame
  { s with snd := { s.snd with outboundBusy := true, sendTime := sampled s.cfg now } }

/-- `RETRANSMIT()` (R305): the identical bytes again, the timeout re-armed. -/
def State.retransmit (s : State) (now : Tick) : State :=
  let s := s.emit s.snd.frame
  { s with snd := { s.snd with sendTime := sampled s.cfg now } }

/-- What `MUX` does with a picked event: transmit it, or discard it while uninitialized (R262, R274). -/
def State.serve (s : State) (p : Picked) (now : Tick) : State :=
  let s := s.withSources p.rest
  if s.initialized then (s.prepare p.body).send now else s.signal .droppedUninit

/-- The loop of `MUX` (R262). The bound is at least the number of pending events, each pass removes one
(R275). -/
def State.muxLoop (now : Tick) : Nat → State → State
  | 0, s => s
  | bound + 1, s =>
    match pick s.cfg s.src with
    | none => s
    | some p => if s.initialized then s.serve p now else (s.serve p now).muxLoop now bound

/-- `MUX()` (R261, R262). -/
def State.mux (s : State) (now : Tick) : State :=
  if s.snd.outboundBusy then s else s.muxLoop now (pendingUnits s.cfg s.src + 1)

/-- `POST()`, the common tail of the notification operations (R260). -/
def State.post (s : State) (now : Tick) : State :=
  if s.snd.outboundBusy then s else s.mux now

end Sys2Proof.Machine
end

