-- ==== Sys2Proof/Machine/Inbound.lean ====
section
/-!
DEFINITION. The inbound path: the two timers (spec/46_poll_and_watchdog.md R331, R333), the Duplicate
Suppressor (spec/42_duplicate_suppressor.md R211 to R215), control-byte dispatch
(spec/43_control_dispatch.md R231 to R235) and the Frame Assembler (spec/41_frame_assembler.md R181 to
R186).
-/

namespace Sys2Proof.Machine

/-- Whether the idle watchdog abandons the partial frame at `now`: the comparison is strict (R331, R335). -/
def State.stalled (s : State) (now : Tick) : Bool :=
  s.asm.bytesAccumulated != 0 && decide (s.cfg.tIdle < elapsed s.cfg now s.asm.lastByteTime)

/-- `WATCHDOG()` (R331). -/
def State.watchdog (s : State) (now : Tick) : State :=
  if s.stalled now then (s.setAccumulated 0).signal .idleTimeout else s

/-- Whether the frame in flight is overdue at `now`: the comparison is strict (R333, R335). -/
def State.overdue (s : State) (now : Tick) : Bool :=
  s.snd.outboundBusy && decide (s.cfg.tAck < elapsed s.cfg now s.snd.sendTime)

/-- `ACK_TIMEOUT_CHECK()` (R333). -/
def State.ackTimeoutCheck (s : State) (now : Tick) : State :=
  if s.overdue now then (s.signal .ackTimeout).retransmit now else s

/-- `ACKCODE(p)` (R215). -/
def ackCode (c : Config) (p : Bool) : Byte := if p then c.codeAck1 else c.codeAck0

/-- `DUPLICATE(q)` (R212). -/
def State.duplicate (s : State) (q : Bool) : State := (s.emit [ackCode s.cfg q]).signal .duplicateFrame

/-- `rx_buf[2 .. L-1]` with `L = rx_buf[0]`, the payload of the frame in `rx_buf` (R214). -/
def Assembler.payload (a : Assembler) : List Byte := bufSlice a.rxBuf 2 ((bufRead a.rxBuf 0).toNat - 2)

/-- `ACCEPT(buf, q)` (R213, R214): the acknowledgment and the delivery are outputs of one operation,
without an order between them (R216). -/
def State.accept (s : State) (q : Bool) : State :=
  let s := { s with receiveSequenceBit := !s.receiveSequenceBit }
  (s.emit [ackCode s.cfg q]).deliverPacket (opcodeOf (bufRead s.asm.rxBuf 1)) s.asm.payload

/-- `SEQUENCE(rx_buf)` (R211). -/
def State.sequence (s : State) : State :=
  let q := seqBit (bufRead s.asm.rxBuf 1)
  if q ≠ s.receiveSequenceBit then s.duplicate q else s.accept q

/-- A NACK to the host, with the condition that caused it (R184, R188). -/
def State.reject (s : State) (e : Condition) : State := (s.emit [s.cfg.codeNack]).signal e

/-- `COMPLETE()` (R186 to R188): length, then codec, then sequence bit; the first that fails is the only
one reported (spec/60_exceptions.md R363). -/
def State.complete (s : State) : State :=
  let s := s.setAccumulated 0
  if !legalLength (bufRead s.asm.rxBuf 0) then s.reject .malformedLength
  else if !verifyFrame s.cfg.matrix s.asm.rxBuf then s.reject .checksumMismatch
  else s.sequence

/-- `DATA_BYTE(b)` (R185). -/
def State.dataByte (s : State) (b : Byte) (now : Tick) : State :=
  let n := s.asm.bytesAccumulated
  let s := s.storeRx n.toNat b (n + 1) now
  if s.asm.bytesAccumulated.toNat = need (bufRead s.asm.rxBuf 0).toNat then s.complete else s

/-- `CTRL_ACK(p)` (R231, R232). -/
def State.ctrlAck (s : State) (p : Bool) (now : Tick) : State :=
  if s.snd.outboundBusy ∧ p = s.snd.sendSequenceBit then
    let s := { s with snd := { s.snd with outboundBusy := false, sendSequenceBit := !s.snd.sendSequenceBit } }
    s.mux now
  else s.signal .staleAck

/-- `CTRL_NACK()` (R233, R234). -/
def State.ctrlNack (s : State) (now : Tick) : State :=
  if s.snd.outboundBusy then s.retransmit now else s.signal .staleNack

/-- The identification response (spec/30_encoding.md R109). -/
def identification (c : Config) : List Byte := c.codeId :: c.idPayload

/-- `CTRL_IDREQ()` (R235). -/
def State.ctrlIdreq (s : State) : State := s.emit (identification s.cfg)

/-- `BAD_LENGTH()` (R184). -/
def State.badLength (s : State) : State := s.reject .malformedLength

/-- `START_FRAME(b)` (R183). -/
def State.startFrame (s : State) (b : Byte) (now : Tick) : State := s.storeRx 0 b 1 now

/-- `FIRST_BYTE(b)` (R182). -/
def State.firstByte (s : State) (b : Byte) (now : Tick) : State :=
  if b = s.cfg.codeAck0 then s.ctrlAck false now
  else if b = s.cfg.codeAck1 then s.ctrlAck true now
  else if b = s.cfg.codeNack then s.ctrlNack now
  else if b = s.cfg.codeId then s.ctrlIdreq
  else if !legalLength b then s.badLength
  else s.startFrame b now

/-- The operation `RX b` (R181): the watchdog first, then the byte as a first byte or as data. -/
def State.rxByte (s : State) (b : Byte) (now : Tick) : State :=
  let s := s.watchdog now
  if s.asm.bytesAccumulated = 0 then s.firstByte b now else s.dataByte b now

/-- `RXFRAME [b0 b1 ... bk] @now`: the bytes one after the other, each one tick later
(spec/30_encoding.md R128). -/
def State.rxFrame (now : Tick) : List Byte → State → State
  | [], s => s
  | b :: bs, s => (s.rxByte b now).rxFrame (now + 1) bs

end Sys2Proof.Machine
end

