-- ==== Sys2Proof/Machine/Frames.lean ====
section
/-!
DEFINITION. The meanings of the frames the core builds (spec/30_encoding.md R114 to R122) and of the
identification response (R109). The spec has no input for a frame row; that it is the call of `MUX()` that
transmits this frame is the model's choice (log entry 8): it has an effect where the link is idle and `PICK()`
answers the row's source and body (spec/44_outbound_mux.md R262, R272), and none elsewhere. The sequence bit and
the check bytes of the word are not operands of `PREPARE`: it clears and sets the one and computes the others
(spec/45_sender.md R301).
-/

namespace Sys2Proof.Machine

/-- A frame row: one pass of the loop of `MUX()`, made where it serves `src` with this body (R261, R262).
DESIGN CHOICE (log entry 8): on an uninitialized idle link the pass discards that one event with
`DroppedUninit`, as R274 and R358 say of each pass, and the loop does not go round for the other events. Only states
that no run reaches have an event pending on an idle link (R55). -/
def State.serveRow (s : State) (src : Source) (body : List Byte) (now : Tick) : State :=
  if s.snd.outboundBusy then s
  else
    match pick s.cfg s.src with
    | none => s
    | some p => if p.source = src ∧ p.body = body then s.serve p now else s

/-- F.LIMIT (R115, R263). -/
def execFLimit (_seq : Bool) (a _k : Byte) (now : Tick) (s : State) : Host.Outcome State Fault Refusal :=
  .next (s.startOp.serveRow .limit (eventBody false s.cfg.opLimit a) now)

/-- F.SENSE (R116, R264). -/
def execFSense (_seq g : Bool) (a : BitVec 7) (_k : Byte) (now : Tick) (s : State) :
    Host.Outcome State Fault Refusal :=
  .next (s.startOp.serveRow .sense (eventBody false s.cfg.opSense (senseByte g (a.setWidth 8))) now)

/-- F.MOVECB (R117, R265). -/
def execFMovecb (_seq : Bool) (n _k : Byte) (now : Tick) (s : State) : Host.Outcome State Fault Refusal :=
  .next (s.startOp.serveRow .movecb (eventBody false s.cfg.opMovecb n) now)

/-- F.TEMPCB (R118, R266). -/
def execFTempcb (_seq : Bool) (ch _k : Byte) (now : Tick) (s : State) : Host.Outcome State Fault Refusal :=
  .next (s.startOp.serveRow .tempcb (eventBody false s.cfg.opTempcb ch) now)

/-- F.REPLY (R119, R267). -/
def execFReply (_seq : Bool) (op : BitVec 7) (payload _checks : List Byte) (now : Tick) (s : State) :
    Host.Outcome State Fault Refusal :=
  .next (s.startOp.serveRow .reply (frameBody false op payload) now)

/-- F.RESUME (R120, R268, R269): `r` 0 is the move-resume source, 1 the audio-resume source. -/
def execFResume (_seq r : Bool) (_k : Byte) (now : Tick) (s : State) : Host.Outcome State Fault Refusal :=
  .next (s.startOp.serveRow (if r then .resumeAudio else .resumeMove)
    (eventBody false s.cfg.opResume (if r then 1 else 0)) now)

/-- F.AUTOSLEEP (R121, R270). -/
def execFAutosleep (_seq : Bool) (m _k : Byte) (now : Tick) (s : State) : Host.Outcome State Fault Refusal :=
  .next (s.startOp.serveRow .autosleep (eventBody false s.cfg.opAutosleep m) now)

/-- F.PONG (R122, R271). -/
def execFPong (_seq : Bool) (q : BitVec 3) (_k : Byte) (now : Tick) (s : State) :
    Host.Outcome State Fault Refusal :=
  .next (s.startOp.serveRow .pong (eventBody false s.cfg.opPong (q.setWidth 8)) now)

/-- ID.RESPONSE (R109, R235): `CODE_ID` and the identity payload of the parameters, outside framing and
acknowledgment; no state changes (spec/43_control_dispatch.md R236). -/
def execIdResponse (_payload : List Byte) (s : State) : Host.Outcome State Fault Refusal :=
  .next s.startOp.ctrlIdreq

end Sys2Proof.Machine
end

