-- ==== Sys2Proof/Machine/Instants.lean ====
section
/-!
DEFINITION. Operations presented at the same instant (spec/70_reset_and_hazards.md R412): the order in
which they are executed.
-/

namespace Sys2Proof.Machine

/-- The place of a request's selector in the order of R412: `RX`, the application's operations in ascending
selector, `POLL`, the reserved selectors (which do nothing). -/
def selectorRank (opSel : BitVec 4) : Nat :=
  if opSel = 1 then 1 else if opSel = 0 then 11 else if opSel.toNat ≤ 10 then opSel.toNat else 12

/-- The place of a presented unit in the order of R412. The units of the serial link rank with `RX`. -/
def instantRank : Presented → Nat
  | .resetLine => 0
  | .request r => selectorRank r.opSel
  | _ => 1

/-- The units of one instant in the order of R412: `RESET` discards all others. -/
def serialize (units : List Presented) : List Presented :=
  if units.any fun u => instantRank u == 0 then [.resetLine]
  else (List.range 13).flatMap fun r => units.filter fun u => instantRank u == r

/-- The units of one instant are presented. -/
def State.present (s : State) (units : List Presented) : State :=
  { s with input := s.input ++ serialize units }

end Sys2Proof.Machine
end

