-- ==== Sys2Proof/Machine/Notify.lean ====
section
/-!
DEFINITION. The meanings of the eight operations by which the application marks an event source pending
(spec/44_outbound_mux.md R251 to R259).
-/

namespace Sys2Proof.Machine

/-- LIMIT axis (R251). -/
def execLimit (axis : Byte) (now : Tick) (s : State) : Host.Outcome State Fault Refusal :=
  let s := s.startOp
  if axisOk s.cfg axis then
    .next ((s.withSources { s.src with limitPending := setBit s.src.limitPending axis.toNat }).post now)
  else .next s.badArg

/-- SENSE axis,flag (R252): the latest flag wins. -/
def execSense (axis : Byte) (flag : Bool) (now : Tick) (s : State) : Host.Outcome State Fault Refusal :=
  let s := s.startOp
  if axisOk s.cfg axis then
    .next ((s.withSources { s.src with
      sensePending := setBit s.src.sensePending axis.toNat
      senseFlag := assignBit s.src.senseFlag axis.toNat flag }).post now)
  else .next s.badArg

/-- MOVEDONE (R253): at 255 the count stays. -/
def execMovedone (now : Tick) (s : State) : Host.Outcome State Fault Refusal :=
  let s := s.startOp
  .next ((s.withSources { s.src with moveDoneCount := saturatingSucc s.src.moveDoneCount }).post now)

/-- TEMPRDY ch (R254). -/
def execTemprdy (ch : Byte) (now : Tick) (s : State) : Host.Outcome State Fault Refusal :=
  let s := s.startOp
  if channelOk s.cfg ch then
    .next ((s.withSources { s.src with tempPending := setBit s.src.tempPending ch.toNat }).post now)
  else .next s.badArg

/-- The sources with an accepted reply in the slot (R255). -/
def Sources.storeReply (q : Sources) (op : Byte) (payload : List Byte) : Sources :=
  { q with
    replyOp := op.setWidth 7
    replyLen := BitVec.ofNat 7 payload.length
    replyBuf := bufWriteSlice q.replyBuf 0 payload
    replyPending := true }

/-- REPLY op,payload (R255): refused with no state change, or stored and posted. An opcode above 127 is refused with
`ReplyRejected` (R255, R351, D18); R126 alone says `BadArgument` (log entry 27). -/
def execReply (op : Byte) (payload : List Byte) (now : Tick) (s : State) : Host.Outcome State Fault Refusal :=
  let s := s.startOp
  if replyOk s.src op payload then
    .next (((s.withSources (s.src.storeReply op payload)).setAccepted true).post now)
  else .next ((s.setAccepted false).signal .replyRejected)

/-- RESUME kind (R257): 0 is move, 1 is audio. -/
def execResume (kind : Byte) (now : Tick) (s : State) : Host.Outcome State Fault Refusal :=
  let s := s.startOp
  if kindOk kind then
    if kind = 0 then .next ((s.withSources { s.src with resumeMovePending := true }).post now)
    else .next ((s.withSources { s.src with resumeAudioPending := true }).post now)
  else .next s.badArg

/-- AUTOSLEEP mask (R258): the masks of merged notices are ORed. -/
def execAutosleep (mask : Byte) (now : Tick) (s : State) : Host.Outcome State Fault Refusal :=
  let s := s.startOp
  .next ((s.withSources { s.src with
    autosleepMask := s.src.autosleepMask ||| mask
    autosleepPending := true }).post now)

/-- PING slot (R259). -/
def execPing (slot : Byte) (now : Tick) (s : State) : Host.Outcome State Fault Refusal :=
  let s := s.startOp
  if slotOk slot then
    .next ((s.withSources { s.src with pingPending := setBit s.src.pingPending slot.toNat }).post now)
  else .next s.badArg

end Sys2Proof.Machine
end

