-- ==== Sys2Proof/Machine/Receive.lean ====
section
/-!
DEFINITION. The meanings of `RX` and of the rows that sub-decode its byte (spec/41_frame_assembler.md
R180 to R190; spec/30_encoding.md R110, R128), of a whole inbound frame and of a check byte. A sub-decoded
row is the operation `RX` of its byte, so it means in every state of the assembler what that byte means.
-/

namespace Sys2Proof.Machine

/-- RX b (R180, R181). -/
def execRx (b : Byte) (now : Tick) (s : State) : Host.Outcome State Fault Refusal :=
  .next (s.startOp.rxByte b now)

/-- RX.ACK0: `RX CODE_ACK0` (R128); as a first byte, `CTRL_ACK(0)` (R231). -/
def execRxAck0 (now : Tick) (s : State) : Host.Outcome State Fault Refusal :=
  .next (s.startOp.rxByte s.cfg.codeAck0 now)

/-- RX.ACK1: `RX CODE_ACK1` (R128); as a first byte, `CTRL_ACK(1)` (R231). -/
def execRxAck1 (now : Tick) (s : State) : Host.Outcome State Fault Refusal :=
  .next (s.startOp.rxByte s.cfg.codeAck1 now)

/-- RX.NACK: `RX CODE_NACK` (R128); as a first byte, `CTRL_NACK()` (R233). -/
def execRxNack (now : Tick) (s : State) : Host.Outcome State Fault Refusal :=
  .next (s.startOp.rxByte s.cfg.codeNack now)

/-- RX.IDREQ: `RX CODE_ID` (R128); as a first byte, `CTRL_IDREQ()` (R235). -/
def execRxIdreq (now : Tick) (s : State) : Host.Outcome State Fault Refusal :=
  .next (s.startOp.rxByte s.cfg.codeId now)

/-- RX.BADLEN.0_1: `RX` of the byte 0 or 1; as a first byte, `BAD_LENGTH()` (R184). -/
def execRxBadlen01 (low : Bool) (now : Tick) (s : State) : Host.Outcome State Fault Refusal :=
  .next (s.startOp.rxByte (lowByte low) now)

/-- RX.BADLEN.2: `RX 2`; as a first byte, `BAD_LENGTH()` (R184). -/
def execRxBadlen2 (now : Tick) (s : State) : Host.Outcome State Fault Refusal :=
  .next (s.startOp.rxByte 2 now)

/-- RX.BADLEN.4: `RX 4`; as a first byte, `BAD_LENGTH()` (R184). -/
def execRxBadlen4 (now : Tick) (s : State) : Host.Outcome State Fault Refusal :=
  .next (s.startOp.rxByte 4 now)

/-- RX.BADLEN.HI: `RX` of a byte with bit 7 set; as a first byte that is no control code, `BAD_LENGTH()`
(R184). -/
def execRxBadlenHi (low : BitVec 7) (now : Tick) (s : State) : Host.Outcome State Fault Refusal :=
  .next (s.startOp.rxByte (highByte low) now)

/-- RX.LEN: `RX` of a byte with bit 7 clear; as a first byte of legal length, `START_FRAME` (R183). -/
def execRxLen (length : BitVec 7) (now : Tick) (s : State) : Host.Outcome State Fault Refusal :=
  .next (s.startOp.rxByte (lengthByte length) now)

/-- RX.DATA: `RX b`; while a frame is being accumulated, `DATA_BYTE(b)` whatever `b` is (R185, R190). -/
def execRxData (b : Byte) (now : Tick) (s : State) : Host.Outcome State Fault Refusal :=
  .next (s.startOp.rxByte b now)

/-- F.INBOUND: the bytes of a frame from the host, one `RX` each in wire order (R73, R128). Its outputs are
those of all these operations, one after the other. -/
def execFInbound (seq : Bool) (op : BitVec 7) (payload checks : List Byte) (now : Tick) (s : State) :
    Host.Outcome State Fault Refusal :=
  .next (s.startOp.rxFrame now (frameBody seq op payload ++ checks))

/-- CHECKBYTE: a check byte of the layout of R155 enters the core as every inbound byte does, through `RX`
(R180); in a frame it is compared with the byte the codec computes when the frame completes (R113). -/
def execCheckByte (tag : BitVec 3) (p0 p1 p2 p3 p4 : Bool) (now : Tick) (s : State) :
    Host.Outcome State Fault Refusal :=
  .next (s.startOp.rxByte (packCheck tag p0 p1 p2 p3 p4) now)

end Sys2Proof.Machine
end

