-- ==== Sys2Proof/Machine/System.lean ====
section
/-!
DEFINITION. The meanings of the system operations (spec/47_system_ops.md) and of `POLL`
(spec/46_poll_and_watchdog.md R334).
-/

namespace Sys2Proof.Machine

/-- A buffer that `RESET` leaves unspecified: free bytes (spec/70_reset_and_hazards.md R402). -/
def freeBuffer (draw element n : Nat) : Vector Byte n := Vector.ofFn fun i => Config.freeByte draw element i.val

/-- The assembler after the operation `RESET`: S5 as the rule says, S4 and S6 free (R340, R402). -/
def freeAssembler (c : Config) (draw : Nat) : Assembler where
  rxBuf := freeBuffer draw 4 170
  bytesAccumulated := 0
  lastByteTime := sampled c (Config.freeNat draw 6)

/-- The sender after `RESET`: S1 and S2 as the rule says, S7, S8, S9 free (R340, R402). -/
def freeSender (c : Config) (draw : Nat) : Sender where
  sendSequenceBit := false
  outboundBusy := false
  txBuf := freeBuffer draw 7 170
  txLen := BitVec.ofNat 8 (Config.freeNat draw 8)
  sendTime := sampled c (Config.freeNat draw 9)

/-- The sources after `RESET`: all as the rule says, but S17, S18, S19 free (R340, R402). -/
def freeSources (draw : Nat) : Sources :=
  { Sources.reset with
    replyOp := BitVec.ofNat 7 (Config.freeNat draw 17)
    replyLen := BitVec.ofNat 7 (Config.freeNat draw 18)
    replyBuf := freeBuffer draw 19 125 }

/-- `RESET` (R340). Its call of `MUX()` finds nothing pending and is left out, as the rule allows. The
parameters and the units not yet executed are not touched (R404). -/
def State.resetOp (s : State) : State where
  cfg := s.cfg
  receiveSequenceBit := false
  initialized := false
  asm := freeAssembler s.cfg s.freeDraws
  snd := freeSender s.cfg s.freeDraws
  src := freeSources s.freeDraws
  out := Outputs.empty
  freeDraws := s.freeDraws + 1
  input := s.input

/-- RESET (R340). -/
def execReset (s : State) : Host.Outcome State Fault Refusal := .next s.resetOp

/-- SETINIT (R341). -/
def execSetinit (s : State) : Host.Outcome State Fault Refusal :=
  .next { s.startOp with initialized := true }

/-- POLL (R334): the watchdog, then the acknowledgment timeout; never the multiplexer. -/
def execPoll (now : Tick) (s : State) : Host.Outcome State Fault Refusal :=
  .next ((s.startOp.watchdog now).ackTimeoutCheck now)

/-- Reserved selector 0xB: no state change, empty outputs (R344). -/
def execReservedB (s : State) : Host.Outcome State Fault Refusal := .next s.startOp

/-- Reserved selector 0xC (R344). -/
def execReservedC (s : State) : Host.Outcome State Fault Refusal := .next s.startOp

/-- Reserved selector 0xD (R344). -/
def execReservedD (s : State) : Host.Outcome State Fault Refusal := .next s.startOp

/-- Reserved selector 0xE (R344). -/
def execReservedE (s : State) : Host.Outcome State Fault Refusal := .next s.startOp

/-- Reserved selector 0xF (R344). -/
def execReservedF (s : State) : Host.Outcome State Fault Refusal := .next s.startOp

end Sys2Proof.Machine
end

