-- ==== Sys2Proof/Machine/Dispatch.lean ====
section
/-!
DEFINITION. One arm for each row of the opcode table: the meaning it calls.
-/

namespace Sys2Proof.Machine

/-- What an instruction does. -/
def exec (i : Instr) (s : State) : Host.Outcome State Fault Refusal :=
  match i with
  | .reset => Sys2Proof.Machine.execReset s
  | .poll now => Sys2Proof.Machine.execPoll now s
  | .rx b now => Sys2Proof.Machine.execRx b now s
  | .setinit => Sys2Proof.Machine.execSetinit s
  | .reply op payload now => Sys2Proof.Machine.execReply op payload now s
  | .limit axis now => Sys2Proof.Machine.execLimit axis now s
  | .sense axis flag now => Sys2Proof.Machine.execSense axis flag now s
  | .movedone now => Sys2Proof.Machine.execMovedone now s
  | .temprdy ch now => Sys2Proof.Machine.execTemprdy ch now s
  | .resume kind now => Sys2Proof.Machine.execResume kind now s
  | .autosleep mask now => Sys2Proof.Machine.execAutosleep mask now s
  | .ping slot now => Sys2Proof.Machine.execPing slot now s
  | .reservedB => Sys2Proof.Machine.execReservedB s
  | .reservedC => Sys2Proof.Machine.execReservedC s
  | .reservedD => Sys2Proof.Machine.execReservedD s
  | .reservedE => Sys2Proof.Machine.execReservedE s
  | .reservedF => Sys2Proof.Machine.execReservedF s
  | .rxAck0 now => Sys2Proof.Machine.execRxAck0 now s
  | .rxAck1 now => Sys2Proof.Machine.execRxAck1 now s
  | .rxNack now => Sys2Proof.Machine.execRxNack now s
  | .rxIdreq now => Sys2Proof.Machine.execRxIdreq now s
  | .rxBadlen01 low now => Sys2Proof.Machine.execRxBadlen01 low now s
  | .rxBadlen2 now => Sys2Proof.Machine.execRxBadlen2 now s
  | .rxBadlen4 now => Sys2Proof.Machine.execRxBadlen4 now s
  | .rxBadlenHi low now => Sys2Proof.Machine.execRxBadlenHi low now s
  | .rxLen length now => Sys2Proof.Machine.execRxLen length now s
  | .rxData b now => Sys2Proof.Machine.execRxData b now s
  | .fLimit seq a k now => Sys2Proof.Machine.execFLimit seq a k now s
  | .fSense seq g a k now => Sys2Proof.Machine.execFSense seq g a k now s
  | .fMovecb seq n k now => Sys2Proof.Machine.execFMovecb seq n k now s
  | .fTempcb seq c k now => Sys2Proof.Machine.execFTempcb seq c k now s
  | .fReply seq op payload checks now => Sys2Proof.Machine.execFReply seq op payload checks now s
  | .fResume seq r k now => Sys2Proof.Machine.execFResume seq r k now s
  | .fAutosleep seq m k now => Sys2Proof.Machine.execFAutosleep seq m k now s
  | .fPong seq q k now => Sys2Proof.Machine.execFPong seq q k now s
  | .fInbound seq op payload checks now => Sys2Proof.Machine.execFInbound seq op payload checks now s
  | .idResponse payload => Sys2Proof.Machine.execIdResponse payload s
  | .checkByte tag p0 p1 p2 p3 p4 now => Sys2Proof.Machine.execCheckByte tag p0 p1 p2 p3 p4 now s

end Sys2Proof.Machine
end

