-- ==== Sys2Proof/Machine/Fetch.lean ====
section
/-!
DEFINITION. From a presented unit to the instruction it stands for in a state (spec/30_encoding.md R110): the
row of an inbound byte depends on the assembler once the watchdog has been evaluated.
-/

namespace Sys2Proof.Machine

/-- Whether a byte presented at `now` would be a first byte: no frame is being accumulated once the
watchdog has been evaluated (spec/30_encoding.md R110). -/
def State.idleAt (s : State) (now : Tick) : Bool := (s.watchdog now).asm.bytesAccumulated == 0

/-- The time with which a unit is presented; 0 for a unit without one. -/
def presentedAt : Presented → Tick
  | .resetLine => 0
  | .request r => r.now
  | .inboundByte _ now => now
  | .outboundFrame _ now => now
  | .inboundFrame _ now => now
  | .rawResponse _ => 0
  | .checkByte _ now => now

/-- The instruction that a unit stands for when it is presented in state `s`. -/
def State.decodeUnit (s : State) (u : Presented) : Except Reject Instr :=
  decode s.cfg (s.idleAt (presentedAt u)) u

end Sys2Proof.Machine
end

