-- ==== Sys2Proof/Machine/Step.lean ====
section
/-!
DEFINITION. One step of the core: it takes the unit presented first, decodes it and executes it
(spec/00_scope.md R8). A step with nothing presented changes nothing, because the core changes state only
by executing an operation.
-/

namespace Sys2Proof.Machine

/-- One step. -/
def step (s : State) : Host.Outcome State Fault Refusal :=
  match s.input with
  | [] => .next s
  | u :: rest =>
    match { s with input := rest }.decodeUnit u with
    | .error r => .refused (.undecodable r)
    | .ok i => exec i { s with input := rest }

/-- The state with the instruction of a word of the opcode table presented first. The word is read with R12's default
`CODE_ID` and `ID_LEN`, whatever the parameters of the state (log entry 14). -/
def State.withFetchWord (s : State) (nbits w : Nat) : State :=
  { s with input := tableUnit nbits w :: s.input }

end Sys2Proof.Machine
end

