-- ==== Sys2Proof/Safety.lean ====
section
/-!
DEFINITION. The terms in which statements about the core are made: the invariants the spec names
(spec/10_state.md R34, R45, R55; spec/70_reset_and_hazards.md R408), what it is to transmit a frame, and
which source has an event pending.
-/

namespace Sys2Proof.Machine

/-- No source is pending (R55). -/
structure Quiet (q : Sources) : Prop where
  limit : q.limitPending = 0
  sense : q.sensePending = 0
  movecb : q.moveDoneCount = 0
  tempcb : q.tempPending = 0
  reply : q.replyPending = false
  resumeMove : q.resumeMovePending = false
  resumeAudio : q.resumeAudioPending = false
  autosleep : q.autosleepPending = false
  pong : q.pingPending = 0

/-- Whether a source has an event pending (spec/60_exceptions.md R361). -/
def sourcePending (c : Config) (q : Sources) : Source → Prop
  | .limit => ∃ a < c.nAxes, q.limitPending.getLsbD a = true
  | .sense => ∃ a < c.nAxes, q.sensePending.getLsbD a = true
  | .movecb => q.moveDoneCount ≠ 0
  | .tempcb => ∃ ch < c.nTemps, q.tempPending.getLsbD ch = true
  | .reply => q.replyPending = true
  | .resumeMove => q.resumeMovePending = true
  | .resumeAudio => q.resumeAudioPending = true
  | .autosleep => q.autosleepPending = true
  | .pong => ∃ slot < 8, q.pingPending.getLsbD slot = true

/-- The place of a source in the priority order, 1 the highest (spec/44_outbound_mux.md R272). -/
def Source.rank : Source → Nat
  | .limit => 1
  | .sense => 2
  | .movecb => 3
  | .tempcb => 4
  | .reply => 5
  | .resumeMove => 6
  | .resumeAudio => 7
  | .autosleep => 8
  | .pong => 9

/-- A frame that is being assembled has a legal length and is not complete (R34). -/
def AssemblerInv (s : State) : Prop :=
  s.asm.bytesAccumulated ≠ 0 →
    legalLength (bufRead s.asm.rxBuf 0) = true ∧
      s.asm.bytesAccumulated.toNat < need (bufRead s.asm.rxBuf 0).toNat

/-- A frame in flight is well formed and carries the current sequence bit (R45); a queued reply can be
framed (R119). -/
structure SenderInv (s : State) : Prop where
  reply : s.src.replyPending = true → legalLen (2 + s.src.replyLen.toNat) = true
  inFlight : s.snd.outboundBusy = true →
    wellFormedFrame s.cfg.matrix s.snd.frame = true ∧
      s.snd.txLen.toNat = need (bufRead s.snd.txBuf 0).toNat ∧
      seqBit (bufRead s.snd.txBuf 1) = s.snd.sendSequenceBit

/-- While the link is idle no source is pending (R55); the bits of the maps beyond the axes and channels
are 0, and the round-robin pointer is a channel (R31, R256). -/
structure SourcesInv (s : State) : Prop where
  axes : ∀ a, s.cfg.nAxes ≤ a → s.src.limitPending.getLsbD a = false ∧ s.src.sensePending.getLsbD a = false ∧
    s.src.senseFlag.getLsbD a = false
  temps : ∀ ch, s.cfg.nTemps ≤ ch → s.src.tempPending.getLsbD ch = false
  pointer : s.src.tempRr < s.cfg.nTemps
  quiet : s.snd.outboundBusy = false → Quiet s.src

/-- An uninitialized core has no frame in flight (R408). -/
def ModeInv (s : State) : Prop := s.initialized = false → s.snd.outboundBusy = false

/-- The timestamps have `W_TIME` bits (R31). -/
def TimesInv (s : State) : Prop :=
  s.asm.lastByteTime < 2 ^ s.cfg.wTime ∧ s.snd.sendTime < 2 ^ s.cfg.wTime

/-- The invariants together. -/
structure Inv (s : State) : Prop where
  legal : s.cfg.Legal
  assembler : AssemblerInv s
  sender : SenderInv s
  sources : SourcesInv s
  mode : ModeInv s
  times : TimesInv s

/-- The elements to which reset gives a value have it (spec/70_reset_and_hazards.md R401;
spec/47_system_ops.md R340). Nothing is said of S4, S6 to S9 and S17 to S19, which are unspecified. -/
structure ResetValues (t : State) : Prop where
  s0 : t.receiveSequenceBit = false
  s1 : t.snd.sendSequenceBit = false
  s2 : t.snd.outboundBusy = false
  s3 : t.initialized = false
  s5 : t.asm.bytesAccumulated = 0
  s10 : t.src.limitPending = 0
  s11 : t.src.sensePending = 0
  s12 : t.src.senseFlag = 0
  s13 : t.src.moveDoneCount = 0
  s14 : t.src.tempPending = 0
  s15 : t.src.tempRr = 0
  s16 : t.src.replyPending = false
  s20 : t.src.resumeMovePending = false
  s21 : t.src.resumeAudioPending = false
  s22 : t.src.autosleepPending = false
  s23 : t.src.autosleepMask = 0
  s24 : t.src.pingPending = 0

/-- The bytes on the wire of a frame with this body and sequence bit (R100, R102, R104). -/
def wireFrame (c : Config) (seq : Bool) (body : List Byte) : List Byte :=
  frameOf c.matrix (body.set 1 (stampSeq (body.getD 1 0) seq))

/-- `buf` holds `bytes` from index 0 on and is `old` beyond them. -/
def Overwrites {n : Nat} (buf old : Vector Byte n) (bytes : List Byte) : Prop :=
  (∀ i < bytes.length, bufRead buf i = bytes.getD i 0) ∧
    ∀ i, bytes.length ≤ i → bufRead buf i = bufRead old i

/-- The state that `s` becomes when the frame `wire` is transmitted at `now` from the frame buffer `buf`,
the sources becoming `q` (spec/45_sender.md R301, R303): everything that is not named stays. -/
def State.transmitting (s : State) (q : Sources) (buf : Vector Byte 170) (wire : List Byte) (now : Tick)
    (accepted : Option Bool) : State :=
  { s with
    src := q
    snd := { s.snd with
      outboundBusy := true
      txBuf := buf
      txLen := BitVec.ofNat 8 wire.length
      sendTime := now % 2 ^ s.cfg.wTime }
    out := ⟨wire, [], [], accepted⟩ }

/-- The outcome `o` of an operation on `s` is that the frame with body `body` is transmitted at `now`, the
sources becoming `q`; nothing but `src`, `snd` and `out` changes. -/
def Transmits (s : State) (o : Host.Outcome State Fault Refusal) (q : Sources) (body : List Byte) (now : Tick)
    (accepted : Option Bool) : Prop :=
  ∃ buf, Overwrites buf s.snd.txBuf (wireFrame s.cfg s.snd.sendSequenceBit body) ∧
    o = .next (s.transmitting q buf (wireFrame s.cfg s.snd.sendSequenceBit body) now accepted)

/-- The link is ready for a new event: initialized, idle and nothing pending. -/
structure Ready (s : State) : Prop where
  initialized : s.initialized = true
  idle : s.snd.outboundBusy = false
  quiet : Quiet s.src

/-- The core is still uninitialized, with the link idle and nothing pending. -/
structure Unready (s : State) : Prop where
  uninitialized : s.initialized = false
  idle : s.snd.outboundBusy = false
  quiet : Quiet s.src

/-- The sources `q'` are `q` with every pending event discarded, each as if it had been sent
(spec/44_outbound_mux.md R274): the flags and the queued reply's data stay, the mask of a pending auto-sleep
notice becomes 0, and the round-robin pointer follows the channel served last, the last pending one of the
scan that starts at the pointer (R256, R266). Bits of the maps beyond the axes and channels stay. -/
structure Discarded (c : Config) (q q' : Sources) : Prop where
  limit : ∀ j, q'.limitPending.getLsbD j = (q.limitPending.getLsbD j && decide (c.nAxes ≤ j))
  sense : ∀ j, q'.sensePending.getLsbD j = (q.sensePending.getLsbD j && decide (c.nAxes ≤ j))
  senseFlag : q'.senseFlag = q.senseFlag
  movecb : q'.moveDoneCount = 0
  tempcb : ∀ j, q'.tempPending.getLsbD j = (q.tempPending.getLsbD j && decide (c.nTemps ≤ j))
  pointer_kept : (∀ ch < c.nTemps, q.tempPending.getLsbD ch = false) → q'.tempRr = q.tempRr
  pointer_moved : ∀ k < c.nTemps, q.tempPending.getLsbD ((q.tempRr + k) % c.nTemps) = true →
    (∀ j < c.nTemps, k < j → q.tempPending.getLsbD ((q.tempRr + j) % c.nTemps) = false) →
    q'.tempRr = ((q.tempRr + k) % c.nTemps + 1) % c.nTemps
  reply : q'.replyPending = false
  replyOp : q'.replyOp = q.replyOp
  replyLen : q'.replyLen = q.replyLen
  replyBuf : q'.replyBuf = q.replyBuf
  resumeMove : q'.resumeMovePending = false
  resumeAudio : q'.resumeAudioPending = false
  autosleep : q'.autosleepPending = false
  autosleepMask : q'.autosleepMask = if q.autosleepPending then 0 else q.autosleepMask
  pong : q'.pingPending = 0

/-- The source and the body of a frame row, with the sequence bit clear (R115 to R122); none for a row that
is no frame the core builds. -/
def frameRowEvent (c : Config) : Instr → Option (Source × List Byte)
  | .fLimit _ a _ _ => some (.limit, [0x03, seqOpByte false c.opLimit, a])
  | .fSense _ g a _ _ => some (.sense, [0x03, seqOpByte false c.opSense, BitVec.ofBool g ++ a])
  | .fMovecb _ n _ _ => some (.movecb, [0x03, seqOpByte false c.opMovecb, n])
  | .fTempcb _ ch _ _ => some (.tempcb, [0x03, seqOpByte false c.opTempcb, ch])
  | .fReply _ op payload _ _ =>
      some (.reply, BitVec.ofNat 8 (2 + payload.length) :: seqOpByte false op :: payload)
  | .fResume _ r _ _ =>
      some (if r then .resumeAudio else .resumeMove, [0x03, seqOpByte false c.opResume, if r then 1 else 0])
  | .fAutosleep _ m _ _ => some (.autosleep, [0x03, seqOpByte false c.opAutosleep, m])
  | .fPong _ q _ _ => some (.pong, [0x03, seqOpByte false c.opPong, q.setWidth 8])
  | .reset => none
  | .poll _ => none
  | .rx _ _ => none
  | .setinit => none
  | .reply _ _ _ => none
  | .limit _ _ => none
  | .sense _ _ _ => none
  | .movedone _ => none
  | .temprdy _ _ => none
  | .resume _ _ => none
  | .autosleep _ _ => none
  | .ping _ _ => none
  | .reservedB => none
  | .reservedC => none
  | .reservedD => none
  | .reservedE => none
  | .reservedF => none
  | .rxAck0 _ => none
  | .rxAck1 _ => none
  | .rxNack _ => none
  | .rxIdreq _ => none
  | .rxBadlen01 _ _ => none
  | .rxBadlen2 _ => none
  | .rxBadlen4 _ => none
  | .rxBadlenHi _ _ => none
  | .rxLen _ _ => none
  | .rxData _ _ => none
  | .fInbound _ _ _ _ _ => none
  | .idResponse _ => none
  | .checkByte _ _ _ _ _ _ _ => none

/-- The instructions that are one operation of the core or one inbound byte: every row but `F.INBOUND`,
which stands for several operations. -/
def isSingle : Instr → Bool
  | .fInbound _ _ _ _ _ => false
  | _ => true

/-- The inbound byte that a row of the operation `RX` presents, if the instruction is one. -/
def inboundByteOf (c : Config) : Instr → Option Byte
  | .rx b _ => some b
  | .rxAck0 _ => some c.codeAck0
  | .rxAck1 _ => some c.codeAck1
  | .rxNack _ => some c.codeNack
  | .rxIdreq _ => some c.codeId
  | .rxBadlen01 low _ => some (lowByte low)
  | .rxBadlen2 _ => some 2
  | .rxBadlen4 _ => some 4
  | .rxBadlenHi low _ => some (highByte low)
  | .rxLen length _ => some (lengthByte length)
  | .rxData b _ => some b
  | .checkByte tag p0 p1 p2 p3 p4 _ => some (packCheck tag p0 p1 p2 p3 p4)
  | .reset => none
  | .poll _ => none
  | .setinit => none
  | .reply _ _ _ => none
  | .limit _ _ => none
  | .sense _ _ _ => none
  | .movedone _ => none
  | .temprdy _ _ => none
  | .resume _ _ => none
  | .autosleep _ _ => none
  | .ping _ _ => none
  | .reservedB => none
  | .reservedC => none
  | .reservedD => none
  | .reservedE => none
  | .reservedF => none
  | .fLimit _ _ _ _ => none
  | .fSense _ _ _ _ _ => none
  | .fMovecb _ _ _ _ => none
  | .fTempcb _ _ _ _ => none
  | .fReply _ _ _ _ _ => none
  | .fResume _ _ _ _ => none
  | .fAutosleep _ _ _ _ => none
  | .fPong _ _ _ _ => none
  | .fInbound _ _ _ _ _ => none
  | .idResponse _ => none

/-- The possible contents of `ev` after the operation `RX` (spec/60_exceptions.md R362). -/
def rxEvents : List (List Condition) :=
  [[], [.malformedLength], [.checksumMismatch], [.duplicateFrame], [.staleAck], [.staleNack], [.idleTimeout],
    [.idleTimeout, .malformedLength], [.idleTimeout, .staleAck], [.idleTimeout, .staleNack]]

/-- The possible contents of `ev` after an operation (R362); for the rows that are no operation, those of
the operation they are part of. `F.INBOUND` stands for several operations and has no entry. -/
def possibleEvents : Instr → List (List Condition)
  | .reset => [[]]
  | .setinit => [[]]
  | .reservedB => [[]]
  | .reservedC => [[]]
  | .reservedD => [[]]
  | .reservedE => [[]]
  | .reservedF => [[]]
  | .poll _ => [[], [.idleTimeout], [.ackTimeout], [.idleTimeout, .ackTimeout]]
  | .reply _ _ _ => [[], [.replyRejected], [.droppedUninit]]
  | .limit _ _ => [[], [.badArgument], [.droppedUninit]]
  | .sense _ _ _ => [[], [.badArgument], [.droppedUninit]]
  | .temprdy _ _ => [[], [.badArgument], [.droppedUninit]]
  | .resume _ _ => [[], [.badArgument], [.droppedUninit]]
  | .ping _ _ => [[], [.badArgument], [.droppedUninit]]
  | .movedone _ => [[], [.droppedUninit]]
  | .autosleep _ _ => [[], [.droppedUninit]]
  | .rx _ _ => rxEvents
  | .rxAck0 _ => rxEvents
  | .rxAck1 _ => rxEvents
  | .rxNack _ => rxEvents
  | .rxIdreq _ => rxEvents
  | .rxBadlen01 _ _ => rxEvents
  | .rxBadlen2 _ => rxEvents
  | .rxBadlen4 _ => rxEvents
  | .rxBadlenHi _ _ => rxEvents
  | .rxLen _ _ => rxEvents
  | .rxData _ _ => rxEvents
  | .checkByte _ _ _ _ _ _ _ => rxEvents
  | .fLimit _ _ _ _ => [[]]
  | .fSense _ _ _ _ _ => [[]]
  | .fMovecb _ _ _ _ => [[]]
  | .fTempcb _ _ _ _ => [[]]
  | .fReply _ _ _ _ _ => [[]]
  | .fResume _ _ _ _ => [[]]
  | .fAutosleep _ _ _ _ => [[]]
  | .fPong _ _ _ _ => [[]]
  | .idResponse _ => [[]]
  | .fInbound _ _ _ _ _ => []

end Sys2Proof.Machine
end

