-- ==== Sys2Proof/Certificates/Slice0/Obligations.lean ====
section
/-!
DEFINITION. The statements for the provers. Each docstring names the rules of spec/ that the statement
formalises. Statements about all states quantify over the parameters too, because a state carries them.

Many rules carry the spec's own mark `[decision: ...]` or `[derived: ...]`: they say what the spec chose or
inferred where its source is silent (spec/92_eei_decisions.md; log entry 20). A statement that rests on such a rule has
basis 'derived' in OBLIGATIONS.json; so has one that rests on a choice of the model, and it names the log entry.
-/

open Sys2Proof Sys2Proof.Machine

/-! ### Encoding -/

/-- Decoding the encoding of a well-formed instruction gives the instruction back, every operand at every
value (spec/30_encoding.md). -/
def Obligations.DecodeOfEncodeIsTheInstruction : Prop :=
  ∀ (c : Config) (i : Instr), c.Legal → wellFormed c i = true → decode c (decodesIdle i) (encode c i) = .ok i

/-- A few words written out from the spec's encodings decode to the instructions they stand for (R125, R110
with the defaults, R115, R120). How a word becomes a presented unit is the model's choice (log entry 14). -/
def Obligations.WordsOfTheSpecDecode : Prop :=
  decodeTableWord 8 0x0 = some (.poll 0) ∧ decodeTableWord 8 0x2 = some .setinit ∧
  decodeTableWord 8 0xB = some .reservedB ∧
  decodeTableWord 8 0xB3 = some (.rxAck0 0) ∧ decodeTableWord 8 0xAD = some (.rxAck1 0) ∧
  decodeTableWord 8 0x80 = some (.rxNack 0) ∧ decodeTableWord 8 0xAA = some (.rxIdreq 0) ∧
  decodeTableWord 8 0x7F = some (.rxLen 0x7F 0) ∧ decodeTableWord 8 0xFF = some (.rxBadlenHi 0x7F 0) ∧
  decodeTableWord 32 0x03010120 = some (.fLimit false 0x01 0x20 0) ∧
  decodeTableWord 32 0x03850168 = some (.fResume true true 0x68 0)

/-- An inbound byte that finds a frame in progress, once the watchdog has been evaluated, is data whatever its
value; else it is a first byte and belongs to the first matching row of the table of R110. -/
def Obligations.InboundByteIsDecodedByTheTable : Prop :=
  ∀ (s : State) (b : Byte) (now : Tick), s.cfg.Legal →
    let t := now % 2 ^ s.cfg.wTime
    let row := s.decodeUnit (.inboundByte b now)
    if s.asm.bytesAccumulated ≠ 0 ∧ elapsed s.cfg now s.asm.lastByteTime ≤ s.cfg.tIdle then row = .ok (.rxData b t)
    else
      (b = s.cfg.codeAck0 → row = .ok (.rxAck0 t)) ∧ (b = s.cfg.codeAck1 → row = .ok (.rxAck1 t)) ∧
      (b = s.cfg.codeNack → row = .ok (.rxNack t)) ∧ (b = s.cfg.codeId → row = .ok (.rxIdreq t)) ∧
      (b = 0 → row = .ok (.rxBadlen01 false t)) ∧ (b = 1 → row = .ok (.rxBadlen01 true t)) ∧
      (b = 2 → row = .ok (.rxBadlen2 t)) ∧ (b = 4 → row = .ok (.rxBadlen4 t)) ∧
      (∀ v : BitVec 7, b = highByte v → isControl s.cfg b = false → row = .ok (.rxBadlenHi v t)) ∧
      ∀ v : BitVec 7, b = lengthByte v → legalLength b = true → row = .ok (.rxLen v t)

/-! ### The codec -/

/-- `fold` is the parity of the eight bits (R151). -/
def Obligations.FoldIsTheParityOfAllBits : Prop :=
  ∀ v : Byte, fold v = (List.range 8).foldl (fun p i => p ^^ v.getLsbD i) false

/-- The three low bits of a check byte are the group index modulo 8, and bit `r + 3` is the parity of the
bits that row `r` of the matrix selects (R155). -/
def Obligations.CheckByteHasTagAndRowParities : Prop :=
  ∀ (m : ParityMatrix) (d0 d1 d2 idx : Byte),
    (encodeBlock m d0 d1 d2 idx).toNat % 8 = idx.toNat % 8 ∧
    ∀ (r : Nat) (row : ParityRow), m.rows[r]? = some row →
      (encodeBlock m d0 d1 d2 idx).getLsbD (r + 3) =
        (List.range 8).foldl (fun p i => p ^^ ((d0.getLsbD i && row.m0.getLsbD i) ^^ (d1.getLsbD i && row.m1.getLsbD i) ^^
          (d2.getLsbD i && row.m2.getLsbD i) ^^ (decide (i < 3) && idx.getLsbD i && row.m3.getLsbD i))) false

/-- A check byte verifies for its own group and fails after any single bit of the group or of the check byte
is flipped, and for any group index with another tag (R157), for every matrix that meets R153 (a). -/
def Obligations.EverySingleBitErrorIsDetected : Prop :=
  ∀ (c : Config) (d0 d1 d2 idx : Byte), c.Legal →
    let k := encodeBlock c.matrix d0 d1 d2 idx
    verifyBlock c.matrix d0 d1 d2 k idx = true ∧
    (∀ i < 8,
      verifyBlock c.matrix (d0 ^^^ BitVec.twoPow 8 i) d1 d2 k idx = false ∧
      verifyBlock c.matrix d0 (d1 ^^^ BitVec.twoPow 8 i) d2 k idx = false ∧
      verifyBlock c.matrix d0 d1 (d2 ^^^ BitVec.twoPow 8 i) k idx = false ∧
      verifyBlock c.matrix d0 d1 d2 (k ^^^ BitVec.twoPow 8 i) idx = false) ∧
    ∀ idx' : Byte, idx'.toNat % 8 ≠ idx.toNat % 8 → verifyBlock c.matrix d0 d1 d2 k idx' = false

/-- The mask form of the verification agrees with the normative form (R161). -/
def Obligations.MaskFormVerifiesTheSameBytes : Prop :=
  ∀ (m : ParityMatrix) (d0 d1 d2 k idx : Byte),
    (∀ r row, m.rows[r]? = some row → ∀ i, 3 ≤ i → i < 8 → row.m3.getLsbD i = decide (i = r + 3)) →
    (verifyBlock m d0 d1 d2 k idx = true ↔
      k &&& 7 = idx &&& 7 ∧ ∀ row ∈ m.rows,
        fold ((d0 &&& row.m0) ^^^ (d1 &&& row.m1) ^^^ (d2 &&& row.m2) ^^^ (k &&& row.m3)) = false)

/-- `VERIFY_FRAME` passes exactly the buffers in which every check byte is the one `encode_block` gives for its
group (R158), which are those that begin with a well-formed frame (R100). `STAMP_CHECKS` writes the bytes from `L`
to `need(L)-1` only, and what it leaves passes (R159). With a matrix that meets R153 (a), a buffer that passes
fails after any single bit of the bytes 1 to `need(L)-1` is flipped (R157, R188; spec/95_test_vectors.md L1.7). -/
def Obligations.VerifyFramePassesExactlyTheUncorruptedFrames : Prop :=
  ∀ (c : Config) (buf : Vector Byte 170), legalLength (bufRead buf 0) = true →
    let m := c.matrix
    let L := (bufRead buf 0).toNat
    (verifyFrame m buf = true ↔ ∀ t < (L + 2) / 3, bufRead buf (L + t) =
      encodeBlock m (bufRead buf (3 * t)) (bufRead buf (3 * t + 1)) (bufRead buf (3 * t + 2)) (BitVec.ofNat 8 t)) ∧
    verifyFrame m buf = wellFormedFrame m (bufSlice buf 0 (need L)) ∧
    (verifyFrame m (stampChecks m buf) = true ∧
      ∀ i, (i < L ∨ need L ≤ i) → bufRead (stampChecks m buf) i = bufRead buf i) ∧
    (c.Legal → verifyFrame m buf = true → ∀ (i j : Nat) (flipped : Vector Byte 170),
      1 ≤ i → i < need L → j < 8 → bufRead flipped i = bufRead buf i ^^^ BitVec.twoPow 8 j →
      (∀ k, k ≠ i → bufRead flipped k = bufRead buf k) → verifyFrame m flipped = false)

/-! ### Receiving: the frame assembler and the duplicate suppressor -/

/-- A row that sub-decodes an inbound byte is the operation `RX` of that byte, in every state (R110, R128; log
entry 7), and so is the row `CHECKBYTE` of a byte, also where the assembler is idle or the byte is late (log entry
10). -/
def Obligations.RowOfAnInboundByteIsTheOperationRx : Prop :=
  ∀ (s : State) (b : Byte) (now : Tick),
    (∀ i : Instr, s.decodeUnit (.inboundByte b now) = .ok i → exec i s = exec (.rx b (now % 2 ^ s.cfg.wTime)) s) ∧
    exec (decodeCheck b now) s = exec (.rx b now) s

/-- A first byte of legal length starts a frame: it is stored at index 0, the count is 1, its time is
recorded; nothing else changes and nothing is emitted (R183). -/
def Obligations.LegalLengthStartsAFrame : Prop :=
  ∀ (s : State) (v : BitVec 7) (now : Tick), s.cfg.Legal → s.asm.bytesAccumulated = 0 →
    legalLength (lengthByte v) = true →
    ∃ buf, (bufRead buf 0 = lengthByte v ∧ ∀ i, i ≠ 0 → bufRead buf i = bufRead s.asm.rxBuf i) ∧
      exec (.rx (lengthByte v) now) s =
        .next { s with asm := ⟨buf, 1, now % 2 ^ s.cfg.wTime⟩, out := Outputs.empty } ∧
      exec (.rxLen v now) s = .next { s with asm := ⟨buf, 1, now % 2 ^ s.cfg.wTime⟩, out := Outputs.empty }

/-- A first byte that is neither a control code nor a legal length is answered with one NACK and
`MalformedLength`; no state changes (R184). -/
def Obligations.IllegalLengthIsNacked : Prop :=
  ∀ (s : State) (now : Tick), s.cfg.Legal → s.asm.bytesAccumulated = 0 →
    let t := { s with out := ⟨[s.cfg.codeNack], [], [.malformedLength], none⟩ }
    (∀ b, isControl s.cfg b = false → legalLength b = false → exec (.rx b now) s = .next t) ∧
    (∀ low, exec (.rxBadlen01 low now) s = .next t) ∧ exec (.rxBadlen2 now) s = .next t ∧
    exec (.rxBadlen4 now) s = .next t ∧
    ∀ low, isControl s.cfg (highByte low) = false → exec (.rxBadlenHi low now) s = .next t

/-- While a frame is being assembled, a byte that does not complete it is stored whatever its value, also
when it is a control code (R185, R190). `decodeCheck b` is the row `CHECKBYTE` of the byte (log entry 10). -/
def Obligations.ByteInsideAFrameIsData : Prop :=
  ∀ (s : State) (b : Byte) (now : Tick), AssemblerInv s → s.asm.bytesAccumulated ≠ 0 →
    elapsed s.cfg now s.asm.lastByteTime ≤ s.cfg.tIdle →
    s.asm.bytesAccumulated.toNat + 1 < need (bufRead s.asm.rxBuf 0).toNat →
    ∃ buf, (bufRead buf s.asm.bytesAccumulated.toNat = b ∧
        ∀ i, i ≠ s.asm.bytesAccumulated.toNat → bufRead buf i = bufRead s.asm.rxBuf i) ∧
      ∀ i ∈ [Instr.rx b now, .rxData b now, decodeCheck b now],
        exec i s = .next { s with
          asm := ⟨buf, s.asm.bytesAccumulated + 1, now % 2 ^ s.cfg.wTime⟩, out := Outputs.empty }

/-- The byte that completes a frame: a frame the codec rejects is answered with one NACK; a frame it passes
is acknowledged with the code of the frame's own sequence bit, delivered if that bit is the expected one
(which then flips) and not delivered if it is not. The assembler is idle again in every case (R186, R188,
R211 to R215). -/
def Obligations.CompletedFrameIsJudgedByCodecThenSequenceBit : Prop :=
  ∀ (s : State) (b : Byte) (now : Tick), AssemblerInv s → s.asm.bytesAccumulated ≠ 0 →
    elapsed s.cfg now s.asm.lastByteTime ≤ s.cfg.tIdle →
    s.asm.bytesAccumulated.toNat + 1 = need (bufRead s.asm.rxBuf 0).toNat →
    let buf := bufWrite s.asm.rxBuf s.asm.bytesAccumulated.toNat b
    let q := (bufRead buf 1).getLsbD 7
    let ack := if q then s.cfg.codeAck1 else s.cfg.codeAck0
    let L := (bufRead buf 0).toNat
    let asm : Assembler := ⟨buf, 0, now % 2 ^ s.cfg.wTime⟩
    ∀ i ∈ [Instr.rx b now, .rxData b now, decodeCheck b now],
      exec i s = .next (
        if verifyFrame s.cfg.matrix buf = false then
          { s with asm := asm, out := ⟨[s.cfg.codeNack], [], [.checksumMismatch], none⟩ }
        else if q = s.receiveSequenceBit then
          { s with asm := asm, receiveSequenceBit := !s.receiveSequenceBit,
                   out := ⟨[ack], [⟨(bufRead buf 1).setWidth 7, (List.range (L - 2)).map fun t => bufRead buf (2 + t)⟩], [], none⟩ }
        else { s with asm := asm, out := ⟨[ack], [], [.duplicateFrame], none⟩ })

/-- A well-formed frame presented to an idle assembler with the expected sequence bit is delivered once,
acknowledged with its own sequence bit, and flips the expected bit; a second copy is acknowledged with the
same code and not delivered (R217; log entry 11). After each copy the assembler is idle, `rx_buf` holds the
frame from index 0 on and is otherwise as before, and the recorded time is that of the last byte. Nothing of
the outbound side changes. The watchdog bound is at least the tick between two bytes. -/
def Obligations.FrameIsDeliveredOnceAndItsCopyOnlyAcknowledged : Prop :=
  ∀ (s : State) (op : BitVec 7) (payload checks : List Byte) (now later : Tick),
    wellFormed s.cfg (.fInbound s.receiveSequenceBit op payload checks now) = true →
    s.cfg.Legal → 1 ≤ s.cfg.tIdle → s.asm.bytesAccumulated = 0 →
    let f := frameBody s.receiveSequenceBit op payload ++ checks
    let ack := if s.receiveSequenceBit then s.cfg.codeAck1 else s.cfg.codeAck0
    let received (start : Tick) : Assembler :=
      ⟨bufWriteSlice s.asm.rxBuf 0 f, 0, (start + (f.length - 1)) % 2 ^ s.cfg.wTime⟩
    let delivered : State := { s with
      asm := received now
      receiveSequenceBit := !s.receiveSequenceBit
      out := ⟨[ack], [⟨op, payload⟩], [], none⟩ }
    exec (.fInbound s.receiveSequenceBit op payload checks now) s = .next delivered ∧
    exec (.fInbound s.receiveSequenceBit op payload checks later) delivered =
      .next { delivered with asm := received later, out := ⟨[ack], [], [.duplicateFrame], none⟩ }

/-- A delivery and a flip of the expected sequence bit happen together or not at all, in every single
operation but `RESET` (R36). -/
def Obligations.DeliveryAndReceiveBitFlipGoTogether : Prop :=
  ∀ (s t : State) (i : Instr), isSingle i = true → i ≠ .reset → exec i s = .next t →
    (t.out.deliver = [] ∧ t.receiveSequenceBit = s.receiveSequenceBit) ∨
    (∃ d, t.out.deliver = [d]) ∧ t.receiveSequenceBit = !s.receiveSequenceBit

/-- Only inbound bytes, `POLL` and `RESET` touch the assembler (R191, last row). -/
def Obligations.OtherOperationsLeaveTheAssembler : Prop :=
  ∀ (s t : State) (i : Instr), inboundByteOf s.cfg i = none → isSingle i = true → i ≠ .reset →
    (∀ now, i ≠ .poll now) → exec i s = .next t →
    t.asm = s.asm ∧ t.receiveSequenceBit = s.receiveSequenceBit ∧ t.out.deliver = []

/-! ### Control bytes -/

/-- An ACK of the pending frame's polarity, with nothing else pending, frees the link and flips the send
sequence bit; nothing else changes (R231). -/
def Obligations.MatchingAckFreesTheLink : Prop :=
  ∀ (s : State) (p : Bool) (now : Tick), s.cfg.Legal → s.asm.bytesAccumulated = 0 →
    s.snd.outboundBusy = true → s.snd.sendSequenceBit = p → Quiet s.src →
    ∀ i ∈ [Instr.rx (if p then s.cfg.codeAck1 else s.cfg.codeAck0) now, if p then .rxAck1 now else .rxAck0 now],
      exec i s = .next { s with
        snd := { s.snd with outboundBusy := false, sendSequenceBit := !p }, out := Outputs.empty }

/-- An ACK of the pending frame's polarity, with an event pending, transmits the event the multiplexer picks,
stamped with the flipped sequence bit; the link stays busy (R231, R262). -/
def Obligations.MatchingAckReleasesTheNextFrame : Prop :=
  ∀ (s : State) (p : Bool) (now : Tick) (x : Picked), s.cfg.Legal → SenderInv s → s.asm.bytesAccumulated = 0 →
    s.initialized = true → s.snd.outboundBusy = true → s.snd.sendSequenceBit = p →
    pick s.cfg s.src = some x →
    ∀ i ∈ [Instr.rx (if p then s.cfg.codeAck1 else s.cfg.codeAck0) now, if p then .rxAck1 now else .rxAck0 now],
      Transmits { s with snd := { s.snd with sendSequenceBit := !p } } (exec i s) x.rest x.body now none

/-- An ACK while no frame is in flight, or of the other polarity, changes nothing and emits nothing (R232). -/
def Obligations.StaleAckIsIgnored : Prop :=
  ∀ (s : State) (p : Bool) (now : Tick), s.cfg.Legal → s.asm.bytesAccumulated = 0 →
    (s.snd.outboundBusy = false ∨ s.snd.sendSequenceBit ≠ p) →
    ∀ i ∈ [Instr.rx (if p then s.cfg.codeAck1 else s.cfg.codeAck0) now, if p then .rxAck1 now else .rxAck0 now],
      exec i s = .next { s with out := ⟨[], [], [.staleAck], none⟩ }

/-- A NACK while a frame is in flight emits the identical bytes again and re-arms the timeout (R233, R305);
otherwise it changes nothing (R234). The re-arming is the spec's own decision D20 (log entry 20). -/
def Obligations.NackRetransmitsOrIsStale : Prop :=
  ∀ (s : State) (now : Tick), s.cfg.Legal → s.asm.bytesAccumulated = 0 →
    ∀ i ∈ [Instr.rx s.cfg.codeNack now, .rxNack now],
      exec i s = .next (
        if s.snd.outboundBusy then
          { s with snd := { s.snd with sendTime := now % 2 ^ s.cfg.wTime },
                   out := ⟨(List.range s.snd.txLen.toNat).map fun k => bufRead s.snd.txBuf k, [], [], none⟩ }
        else { s with out := ⟨[], [], [.staleNack], none⟩ })

/-- The identification request is answered at once and changes no state, whatever the mode and the link are
(R235, R236). That the row `ID.RESPONSE` emits the response too, whatever its operand
is, is the model's choice (log entry 9). -/
def Obligations.IdentificationIsServedWithoutAnyStateChange : Prop :=
  ∀ (s : State) (now : Tick), s.cfg.Legal → s.asm.bytesAccumulated = 0 →
    let t := { s with out := ⟨s.cfg.codeId :: s.cfg.idPayload, [], [], none⟩ }
    exec (.rx s.cfg.codeId now) s = .next t ∧ exec (.rxIdreq now) s = .next t ∧
    ∀ payload, exec (.idResponse payload) s = .next t

/-! ### Timers -/

/-- Elapsed time is the modular difference of two time values (R20). -/
def Obligations.ElapsedTimeIsTheModularDifference : Prop :=
  ∀ (c : Config) (now t : Nat), now < 2 ^ c.wTime → t < 2 ^ c.wTime →
    elapsed c now t = if t ≤ now then now - t else now + 2 ^ c.wTime - t

/-- `POLL` abandons a partial frame whose last byte is more than `T_IDLE` ago, and retransmits a frame whose
last transmission is more than `T_ACK` ago; both comparisons are strict (R331, R333, R334, R335). -/
def Obligations.PollEvaluatesBothTimers : Prop :=
  ∀ (s : State) (now : Tick),
    let stalled := s.asm.bytesAccumulated ≠ 0 ∧ s.cfg.tIdle < elapsed s.cfg now s.asm.lastByteTime
    let overdue := s.snd.outboundBusy = true ∧ s.cfg.tAck < elapsed s.cfg now s.snd.sendTime
    exec (.poll now) s = .next { s with
      asm := if stalled then { s.asm with bytesAccumulated := 0 } else s.asm
      snd := if overdue then { s.snd with sendTime := now % 2 ^ s.cfg.wTime } else s.snd
      out := ⟨if overdue then (List.range s.snd.txLen.toNat).map fun k => bufRead s.snd.txBuf k else [], [],
        (if stalled then [.idleTimeout] else []) ++ (if overdue then [.ackTimeout] else []), none⟩ }

/-- A byte that arrives more than `T_IDLE` after its predecessor is treated as a first byte: `RX` does what it
does with an idle assembler, after `IdleTimeout` (R181, R331). -/
def Obligations.LateByteIsAFirstByte : Prop :=
  ∀ (s : State) (b : Byte) (now : Tick), s.asm.bytesAccumulated ≠ 0 →
    s.cfg.tIdle < elapsed s.cfg now s.asm.lastByteTime →
    ∃ u, exec (.rx b now) { s with asm := { s.asm with bytesAccumulated := 0 } } = .next u ∧
      exec (.rx b now) s = .next { u with out := { u.out with ev := .idleTimeout :: u.out.ev } }

/-! ### Notifications -/

/-- `LIMIT`, `SENSE` and `TEMPRDY` on a busy link only mark their source pending: bit `axis` or `ch`, and for
`SENSE` the latest flag (R251, R252, R254, R260). -/
def Obligations.BusyLinkDefersLimitSenseAndTemprdy : Prop :=
  ∀ (s : State) (n : Byte) (flag : Bool) (now : Tick), s.snd.outboundBusy = true →
    (n.toNat < s.cfg.nAxes → ∃ m : BitMap, (∀ j, m.getLsbD j = (s.src.limitPending.getLsbD j || decide (j = n.toNat))) ∧
      exec (.limit n now) s = .next { s with src := { s.src with limitPending := m }, out := Outputs.empty }) ∧
    (n.toNat < s.cfg.nAxes → ∃ m f : BitMap,
      (∀ j, m.getLsbD j = (s.src.sensePending.getLsbD j || decide (j = n.toNat))) ∧
      (∀ j, f.getLsbD j = if j = n.toNat then flag else s.src.senseFlag.getLsbD j) ∧
      exec (.sense n flag now) s =
        .next { s with src := { s.src with sensePending := m, senseFlag := f }, out := Outputs.empty }) ∧
    (n.toNat < s.cfg.nTemps → ∃ m : BitMap, (∀ j, m.getLsbD j = (s.src.tempPending.getLsbD j || decide (j = n.toNat))) ∧
      exec (.temprdy n now) s = .next { s with src := { s.src with tempPending := m }, out := Outputs.empty })

/-- `MOVEDONE`, `RESUME`, `AUTOSLEEP` and `PING` on a busy link only update their source: the count saturates
at 255, the masks of merged notices are ORed (R253, R257, R258, R259, R260). -/
def Obligations.BusyLinkDefersTheOtherNotifications : Prop :=
  ∀ (s : State) (n : Byte) (now : Tick), s.snd.outboundBusy = true →
    exec (.movedone now) s = .next { s with
      src := { s.src with moveDoneCount := BitVec.ofNat 8 (min 255 (s.src.moveDoneCount.toNat + 1)) },
      out := Outputs.empty } ∧
    exec (.resume 0 now) s = .next { s with src := { s.src with resumeMovePending := true }, out := Outputs.empty } ∧
    exec (.resume 1 now) s = .next { s with src := { s.src with resumeAudioPending := true }, out := Outputs.empty } ∧
    exec (.autosleep n now) s = .next { s with
      src := { s.src with autosleepPending := true, autosleepMask := s.src.autosleepMask ||| n },
      out := Outputs.empty } ∧
    (n.toNat ≤ 7 → ∃ m : Byte, (∀ j < 8, m.getLsbD j = (s.src.pingPending.getLsbD j || decide (j = n.toNat))) ∧
      exec (.ping n now) s = .next { s with src := { s.src with pingPending := m }, out := Outputs.empty })

/-- `REPLY` on a busy link with the slot free and a frameable payload is accepted and stored, not transmitted
(R255). -/
def Obligations.BusyLinkDefersAReply : Prop :=
  ∀ (s : State) (op : BitVec 7) (payload : List Byte) (now : Tick), s.snd.outboundBusy = true →
    s.src.replyPending = false → legalLen (2 + payload.length) = true →
    ∃ buf, ((∀ i < payload.length, bufRead buf i = payload.getD i 0) ∧
        ∀ i, payload.length ≤ i → bufRead buf i = bufRead s.src.replyBuf i) ∧
      exec (.reply (op.setWidth 8) payload now) s = .next { s with
        src := { s.src with
          replyPending := true, replyOp := op, replyLen := BitVec.ofNat 7 payload.length, replyBuf := buf }
        out := ⟨[], [], [], some true⟩ }

/-- `REPLY` is refused without a state change when the slot is occupied, the length cannot be framed, or the
opcode exceeds 7 bits (R255, D18). The spec disagrees with itself about the condition of an opcode with bit 7 set:
R126 lists it among the arguments that signal `BadArgument`; R255, R351 (row 9) and L2.6 of
spec/95_test_vectors.md say `ReplyRejected`, which is followed here (log entry 27). -/
def Obligations.ReplyIsRefusedWithoutAStateChange : Prop :=
  ∀ (s : State) (op : Byte) (payload : List Byte) (now : Tick),
    (s.src.replyPending = true ∨ payload.length = 0 ∨ payload.length = 2 ∨ 125 < payload.length ∨ 127 < op.toNat) →
    exec (.reply op payload now) s = .next { s with out := ⟨[], [], [.replyRejected], some false⟩ }

/-- An argument outside its range makes the operation signal `BadArgument` and change nothing (R276). -/
def Obligations.ArgumentOutOfRangeChangesNothing : Prop :=
  ∀ (s : State) (n : Byte) (flag : Bool) (now : Tick),
    let t := { s with out := ⟨[], [], [.badArgument], none⟩ }
    (s.cfg.nAxes ≤ n.toNat → exec (.limit n now) s = .next t ∧ exec (.sense n flag now) s = .next t) ∧
    (s.cfg.nTemps ≤ n.toNat → exec (.temprdy n now) s = .next t) ∧
    (1 < n.toNat → exec (.resume n now) s = .next t) ∧
    (7 < n.toNat → exec (.ping n now) s = .next t)

/-- `LIMIT` and `SENSE` on a ready link transmit their frame at once and leave nothing pending (R251, R252,
R115, R116). -/
def Obligations.ReadyLinkSendsLimitAndSense : Prop :=
  ∀ (s : State) (axis : Byte) (flag : Bool) (now : Tick), s.cfg.Legal → Ready s → axis.toNat < s.cfg.nAxes →
    Transmits s (exec (.limit axis now) s) s.src [0x03, seqOpByte false s.cfg.opLimit, axis] now none ∧
    ∃ f : BitMap, (∀ j, f.getLsbD j = if j = axis.toNat then flag else s.src.senseFlag.getLsbD j) ∧
      Transmits s (exec (.sense axis flag now) s) { s.src with senseFlag := f }
        [0x03, seqOpByte false s.cfg.opSense, BitVec.ofNat 8 (axis.toNat + if flag then 128 else 0)] now none

/-- `MOVEDONE` and `TEMPRDY` on a ready link transmit their frame at once; the round-robin pointer moves to
the channel after the one served (R253, R254, R256, R117, R118). -/
def Obligations.ReadyLinkSendsMovedoneAndTemprdy : Prop :=
  ∀ (s : State) (ch : Byte) (now : Tick), Ready s → ch.toNat < s.cfg.nTemps →
    Transmits s (exec (.movedone now) s) s.src [0x03, seqOpByte false s.cfg.opMovecb, 1] now none ∧
    Transmits s (exec (.temprdy ch now) s) { s.src with tempRr := (ch.toNat + 1) % s.cfg.nTemps }
      [0x03, seqOpByte false s.cfg.opTempcb, ch] now none

/-- `RESUME`, `AUTOSLEEP` and `PING` on a ready link transmit their frame at once (R257, R258, R259, R120,
R121, R122). -/
def Obligations.ReadyLinkSendsResumeAutosleepAndPing : Prop :=
  ∀ (s : State) (n : Byte) (now : Tick), Ready s →
    Transmits s (exec (.resume 0 now) s) s.src [0x03, seqOpByte false s.cfg.opResume, 0] now none ∧
    Transmits s (exec (.resume 1 now) s) s.src [0x03, seqOpByte false s.cfg.opResume, 1] now none ∧
    Transmits s (exec (.autosleep n now) s) { s.src with autosleepMask := 0 }
      [0x03, seqOpByte false s.cfg.opAutosleep, s.src.autosleepMask ||| n] now none ∧
    (n.toNat ≤ 7 → Transmits s (exec (.ping n now) s) s.src [0x03, seqOpByte false s.cfg.opPong, n] now none)

/-- `REPLY` on a ready link is accepted, transmitted at once, and its slot is free again (R255, R119, R51); the
reply buffer holds the payload from index 0 on and is otherwise as before. -/
def Obligations.ReadyLinkSendsAReply : Prop :=
  ∀ (s : State) (op : BitVec 7) (payload : List Byte) (now : Tick), Ready s →
    legalLen (2 + payload.length) = true →
    ∃ buf, Overwrites buf s.src.replyBuf payload ∧
      Transmits s (exec (.reply (op.setWidth 8) payload now) s)
      { s.src with replyOp := op, replyLen := BitVec.ofNat 7 payload.length, replyBuf := buf }
      (BitVec.ofNat 8 (2 + payload.length) :: seqOpByte false op :: payload) now (some true)

/-- Before initialization an event is consumed and not transmitted: `DroppedUninit` is signalled once, the
link stays idle, and the sources are left as if the event had been sent (R274); a reply's opcode, length and
payload stay in the slot. -/
def Obligations.UninitializedCoreDropsEveryEvent : Prop :=
  ∀ (s : State) (n : Byte) (flag : Bool) (now : Tick), Unready s →
    let dropped (q : Sources) : Host.Outcome State Fault Refusal :=
      .next { s with src := q, out := ⟨[], [], [.droppedUninit], none⟩ }
    (n.toNat < s.cfg.nAxes → exec (.limit n now) s = dropped s.src ∧
      ∃ f : BitMap, (∀ j, f.getLsbD j = if j = n.toNat then flag else s.src.senseFlag.getLsbD j) ∧
        exec (.sense n flag now) s = dropped { s.src with senseFlag := f }) ∧
    exec (.movedone now) s = dropped s.src ∧
    (n.toNat < s.cfg.nTemps →
      exec (.temprdy n now) s = dropped { s.src with tempRr := (n.toNat + 1) % s.cfg.nTemps }) ∧
    exec (.resume 0 now) s = dropped s.src ∧ exec (.resume 1 now) s = dropped s.src ∧
    exec (.autosleep n now) s = dropped { s.src with autosleepMask := 0 } ∧
    (n.toNat ≤ 7 → exec (.ping n now) s = dropped s.src) ∧
    ∀ (op : BitVec 7) (payload : List Byte), legalLen (2 + payload.length) = true →
      ∃ buf, Overwrites buf s.src.replyBuf payload ∧ exec (.reply (op.setWidth 8) payload now) s = .next { s with
        src := { s.src with replyOp := op, replyLen := BitVec.ofNat 7 payload.length, replyBuf := buf }
        out := ⟨[], [], [.droppedUninit], some true⟩ }

/-! ### The multiplexer -/

/-- The multiplexer picks a source that has an event and is the highest such source; it picks none exactly
when no source has an event (R272). -/
def Obligations.PickServesTheHighestPendingSource : Prop :=
  ∀ (c : Config) (q : Sources),
    (∀ x, pick c q = some x → sourcePending c q x.source ∧
      ∀ src, src.rank < x.source.rank → ¬ sourcePending c q src) ∧
    (pick c q = none ↔ ∀ src, ¬ sourcePending c q src)

/-- A per-axis source serves its lowest pending axis and the pong source its lowest pending slot; the picked
bit is cleared and nothing else of the sources changes (R263, R264, R271). -/
def Obligations.AxesAndSlotsAreServedLowestFirst : Prop :=
  ∀ (c : Config) (q : Sources) (x : Picked), pick c q = some x →
    (x.source = .limit → ∃ a < c.nAxes, q.limitPending.getLsbD a = true ∧
      (∀ j < a, q.limitPending.getLsbD j = false) ∧
      x.body = [0x03, seqOpByte false c.opLimit, BitVec.ofNat 8 a] ∧
      ∃ m, x.rest = { q with limitPending := m } ∧ ∀ j, m.getLsbD j = (q.limitPending.getLsbD j && decide (j ≠ a))) ∧
    (x.source = .sense → ∃ a < c.nAxes, q.sensePending.getLsbD a = true ∧
      (∀ j < a, q.sensePending.getLsbD j = false) ∧
      x.body = [0x03, seqOpByte false c.opSense, senseByte (q.senseFlag.getLsbD a) (BitVec.ofNat 8 a)] ∧
      ∃ m, x.rest = { q with sensePending := m } ∧ ∀ j, m.getLsbD j = (q.sensePending.getLsbD j && decide (j ≠ a))) ∧
    (x.source = .pong → ∃ a < 8, q.pingPending.getLsbD a = true ∧
      (∀ j < a, q.pingPending.getLsbD j = false) ∧
      x.body = [0x03, seqOpByte false c.opPong, BitVec.ofNat 8 a] ∧
      ∃ m, x.rest = { q with pingPending := m } ∧ ∀ j, m.getLsbD j = (q.pingPending.getLsbD j && decide (j ≠ a)))

/-- The temperature source is served round robin: the scan starts at the pointer, goes round, and leaves the
pointer at the channel after the one served (R256, R266). -/
def Obligations.TemperatureChannelsAreServedRoundRobin : Prop :=
  ∀ (c : Config) (q : Sources) (x : Picked), pick c q = some x → x.source = .tempcb →
    ∃ k < c.nTemps, q.tempPending.getLsbD ((q.tempRr + k) % c.nTemps) = true ∧
      (∀ j < k, q.tempPending.getLsbD ((q.tempRr + j) % c.nTemps) = false) ∧
      x.body = [0x03, seqOpByte false c.opTempcb, BitVec.ofNat 8 ((q.tempRr + k) % c.nTemps)] ∧
      ∃ m, x.rest = { q with tempPending := m, tempRr := ((q.tempRr + k) % c.nTemps + 1) % c.nTemps } ∧
        ∀ j, m.getLsbD j = (q.tempPending.getLsbD j && decide (j ≠ (q.tempRr + k) % c.nTemps))

/-- The sources without an index: the whole move count in one frame, the queued reply, the resume signals, the
auto-sleep mask; only the picked source is cleared (R265, R267 to R270). -/
def Obligations.UnindexedSourcesSendAndClearTheirEvent : Prop :=
  ∀ (c : Config) (q : Sources) (x : Picked), pick c q = some x →
    (x.source = .movecb → q.moveDoneCount ≠ 0 ∧ x.rest = { q with moveDoneCount := 0 } ∧
      x.body = [0x03, seqOpByte false c.opMovecb, q.moveDoneCount]) ∧
    (x.source = .reply → q.replyPending = true ∧ x.rest = { q with replyPending := false } ∧
      x.body = BitVec.ofNat 8 (2 + q.replyLen.toNat) :: seqOpByte false q.replyOp ::
        (List.range q.replyLen.toNat).map fun k => bufRead q.replyBuf k) ∧
    (x.source = .resumeMove → q.resumeMovePending = true ∧ x.rest = { q with resumeMovePending := false } ∧
      x.body = [0x03, seqOpByte false c.opResume, 0]) ∧
    (x.source = .resumeAudio → q.resumeAudioPending = true ∧ x.rest = { q with resumeAudioPending := false } ∧
      x.body = [0x03, seqOpByte false c.opResume, 1]) ∧
    (x.source = .autosleep → q.autosleepPending = true ∧
      x.rest = { q with autosleepPending := false, autosleepMask := 0 } ∧
      x.body = [0x03, seqOpByte false c.opAutosleep, q.autosleepMask])

/-- Each pick removes one unit from the finite number of pending events, at most `2*N_AXES + N_TEMPS + 13`
(R275). -/
def Obligations.EachPickRemovesOnePendingUnit : Prop :=
  ∀ (c : Config) (q : Sources),
    (∀ x, pick c q = some x → pendingUnits c q = pendingUnits c x.rest + 1) ∧
    (pick c q = none ↔ pendingUnits c q = 0) ∧ pendingUnits c q ≤ 2 * c.nAxes + c.nTemps + 13

/-- While uninitialized and with the link idle, the multiplexer discards every pending event, signals
`DroppedUninit` once for each, and touches nothing but the sources and `ev`; every event leaves the sources
as if it had been sent (R274, R275): `Discarded` says what each of them becomes. -/
def Obligations.UninitializedMultiplexerDiscardsEverything : Prop :=
  ∀ (s : State) (now : Tick), s.initialized = false → s.snd.outboundBusy = false →
    ∃ q, Discarded s.cfg s.src q ∧ (∀ src, ¬ sourcePending s.cfg q src) ∧
      s.mux now = { s with
        src := q
        out := { s.out with ev := s.out.ev ++ List.replicate (pendingUnits s.cfg s.src) .droppedUninit } }

/-- A frame row is the call of the multiplexer that transmits this frame: on an idle initialized link whose
highest pending event is the row's, the row transmits the frame and clears the event (R114 to R122, R262).
The sequence bit and the check bytes written in the row are overwritten by those the core computes (R301). That a
frame row is this call is the model's choice (log entry 8). -/
def Obligations.FrameRowTransmitsThePickedEvent : Prop :=
  ∀ (s : State) (now : Tick) (x : Picked) (sq : Bool) (k : Byte) (ks : List Byte), SenderInv s →
    s.initialized = true → s.snd.outboundBusy = false → pick s.cfg s.src = some x →
    let sent (i : Instr) : Prop := Transmits s (exec i s) x.rest x.body now none
    (∀ a, x.source = .limit → x.body = [0x03, seqOpByte false s.cfg.opLimit, a] → sent (.fLimit sq a k now)) ∧
    (∀ g (a : BitVec 7), x.source = .sense →
      x.body = [0x03, seqOpByte false s.cfg.opSense, BitVec.ofBool g ++ a] → sent (.fSense sq g a k now)) ∧
    (∀ n, x.source = .movecb → x.body = [0x03, seqOpByte false s.cfg.opMovecb, n] → sent (.fMovecb sq n k now)) ∧
    (∀ ch, x.source = .tempcb → x.body = [0x03, seqOpByte false s.cfg.opTempcb, ch] → sent (.fTempcb sq ch k now)) ∧
    (∀ op payload, x.source = .reply → x.body = BitVec.ofNat 8 (2 + payload.length) :: seqOpByte false op :: payload →
      sent (.fReply sq op payload ks now)) ∧
    (x.source = .resumeMove → sent (.fResume sq false k now)) ∧
    (x.source = .resumeAudio → sent (.fResume sq true k now)) ∧
    (∀ m, x.source = .autosleep → x.body = [0x03, seqOpByte false s.cfg.opAutosleep, m] →
      sent (.fAutosleep sq m k now)) ∧
    (∀ q : BitVec 3, x.source = .pong → x.body = [0x03, seqOpByte false s.cfg.opPong, q.setWidth 8] →
      sent (.fPong sq q k now))

/-- A frame row transmits nothing and changes nothing while a frame is in flight (R261), and on an idle link
when the multiplexer would pick another event or none, the only idle case a run reaches (R55). On an
uninitialized core whose link is idle and whose picked event is the row's, that one event is discarded with
`DroppedUninit` and nothing is transmitted. All three are the model's choice (log entry 8). -/
def Obligations.FrameRowTransmitsNothingWhereTheMultiplexerWouldNot : Prop :=
  ∀ (s : State) (i : Instr) (src : Source) (body : List Byte), frameRowEvent s.cfg i = some (src, body) →
    (s.snd.outboundBusy = true → exec i s = .next { s with out := Outputs.empty }) ∧
    (pick s.cfg s.src = none → exec i s = .next { s with out := Outputs.empty }) ∧
    ∀ x, pick s.cfg s.src = some x →
      (x.source ≠ src ∨ x.body ≠ body → exec i s = .next { s with out := Outputs.empty }) ∧
      (x.source = src → x.body = body → s.initialized = false → s.snd.outboundBusy = false →
        exec i s = .next { s with src := x.rest, out := ⟨[], [], [.droppedUninit], none⟩ })

/-! ### The sender -/

/-- `PREPARE` and `SEND` put on the wire the body with the sequence bit stamped and its check bytes, which is a
well-formed frame (R100, R301, R302). -/
def Obligations.PreparedBodyIsAWellFormedFrame : Prop :=
  ∀ (m : ParityMatrix) (seq : Bool) (op : BitVec 7) (payload : List Byte) (buf : Vector Byte 170),
    legalLen (2 + payload.length) = true →
    let L := 2 + payload.length
    let b := preparedBuf m seq (BitVec.ofNat 8 L :: seqOpByte false op :: payload) buf
    let f := (List.range (need L)).map fun k => bufRead b k
    wellFormedFrame m f = true ∧ f.take L = BitVec.ofNat 8 L :: seqOpByte seq op :: payload ∧
      verifyFrame m b = true ∧ ∀ i, need L ≤ i → bufRead b i = bufRead buf i

/-- A frame in flight stays: no single operation but `RESET` and the accepted ACK of its own polarity clears
`outbound_busy`, changes the kept frame or the sequence bit (R308, R310, R89). -/
def Obligations.FrameInFlightIsKeptUntilItsAck : Prop :=
  ∀ (s t : State) (i : Instr), s.snd.outboundBusy = true → isSingle i = true → i ≠ .reset → exec i s = .next t →
    (t.snd.outboundBusy = true ∧ t.snd.txBuf = s.snd.txBuf ∧ t.snd.txLen = s.snd.txLen ∧
      t.snd.sendSequenceBit = s.snd.sendSequenceBit) ∨
    (inboundByteOf s.cfg i = some (if s.snd.sendSequenceBit then s.cfg.codeAck1 else s.cfg.codeAck0) ∧
      t.snd.sendSequenceBit = !s.snd.sendSequenceBit)

/-- While its frame stays in flight, the core emits nothing but one ACK or NACK, the identification response, or
the identical frame again (R277, R85). -/
def Obligations.OnlyTheSameFrameIsRepeatedWhileInFlight : Prop :=
  ∀ (s t : State) (i : Instr), s.snd.outboundBusy = true → isSingle i = true → i ≠ .reset → exec i s = .next t →
    t.snd.sendSequenceBit = s.snd.sendSequenceBit →
    t.out.tx ∈ [[], [s.cfg.codeAck0], [s.cfg.codeAck1], [s.cfg.codeNack], s.cfg.codeId :: s.cfg.idPayload, s.snd.frame]

/-! ### System operations, the whole machine -/

/-- The machine after reset has the values of R401; and the operation `RESET` gives them from every state, with
empty outputs, keeping the parameters and the units not yet executed (R340, R401, R404; log entry 17). -/
def Obligations.ResetGivesTheStatedValues : Prop :=
  ResetValues State.reset ∧
  ∀ s : State, ∃ t, exec .reset s = .next t ∧ ResetValues t ∧ t.out = ⟨[], [], [], none⟩ ∧ t.cfg = s.cfg ∧
    t.input = s.input

/-- `SETINIT` sets `initialized`, touches nothing else and has no outputs (R341). -/
def Obligations.SetinitOnlySetsTheModeBit : Prop :=
  ∀ s : State, exec .setinit s = .next { s with initialized := true, out := ⟨[], [], [], none⟩ }

/-- A reserved selector changes no state and has empty outputs (R344). -/
def Obligations.ReservedSelectorsDoNothing : Prop :=
  ∀ s : State, ∀ i ∈ [Instr.reservedB, .reservedC, .reservedD, .reservedE, .reservedF],
    exec i s = .next { s with out := ⟨[], [], [], none⟩ }

/-- Every operation is total: from every state and for every argument it ends with a next state (R350). That the
rows that are no operation end with one too is the model's reading of them (log entries 7 to 11). -/
def Obligations.EveryInstructionHasANextState : Prop :=
  ∀ (i : Instr) (s : State), ∃ t, exec i s = .next t

/-- A step takes the unit presented first, and runs the instruction it decodes to on the state without that
unit (R8); a unit that is no row of the table is refused by name; with nothing presented nothing changes. The
last two clauses are the model's choices (log entries 5 and 16). -/
def Obligations.StepRunsTheDecodedInstruction : Prop :=
  (∀ (s : State) (u : Presented) (rest : List Presented), s.input = u :: rest →
    (∀ i, { s with input := rest }.decodeUnit u = .ok i → step s = exec i { s with input := rest }) ∧
    (∀ r, { s with input := rest }.decodeUnit u = .error r → step s = .refused (.undecodable r))) ∧
  ∀ s : State, s.input = [] → step s = .next s

/-- The parameters never change, and only a step takes a unit out of the queue: `exec` leaves both (R13, R404; log
entry 5). -/
def Obligations.ParametersNeverChange : Prop :=
  ∀ (s t : State) (i : Instr), exec i s = .next t → t.cfg = s.cfg ∧ t.input = s.input

/-- The possible contents of `ev` after each operation are those of the table of R362, from every state that
meets the invariants (log entries 7, 8 and 9 for the rows that are no operation). -/
def Obligations.ConditionsOfAnOperationAreThoseOfTheTable : Prop :=
  ∀ (s t : State) (i : Instr), Inv s → isSingle i = true → exec i s = .next t → t.out.ev ∈ possibleEvents i

/-- One operation emits at most one control byte, or one identification response, or one frame, which is then
the frame in flight (R85). -/
def Obligations.OneOperationEmitsAtMostOneUnit : Prop :=
  ∀ (s t : State) (i : Instr), Inv s → isSingle i = true → exec i s = .next t →
    t.out.tx ∈ [[], [s.cfg.codeAck0], [s.cfg.codeAck1], [s.cfg.codeNack], s.cfg.codeId :: s.cfg.idPayload] ∨
    (t.snd.outboundBusy = true ∧ t.out.tx = t.snd.frame ∧ wellFormedFrame s.cfg.matrix t.out.tx = true)

/-- Every step keeps R34: a frame being assembled has a legal length and is not complete. -/
def Obligations.StepKeepsThePartialFrameLegal : Prop :=
  ∀ s t : State, AssemblerInv s → step s = .next t → AssemblerInv t

/-- Every step keeps R45: a frame in flight is well formed and carries the current sequence bit. -/
def Obligations.StepKeepsTheFrameInFlightWellFormed : Prop :=
  ∀ s t : State, SenderInv s → step s = .next t → SenderInv t

/-- Every step keeps R55: while the link is idle no source is pending; and no bit of `limit_pending`,
`sense_pending`, `sense_flag` or `temp_pending` beyond the axes and channels is set, and the round-robin pointer is
a channel (R31, R256; log entry 13). -/
def Obligations.StepKeepsIdleLinkQuiet : Prop :=
  ∀ s t : State, SourcesInv s → step s = .next t → SourcesInv t

/-- Every step keeps R408: an uninitialized core has no frame in flight. -/
def Obligations.StepKeepsUninitializedLinkIdle : Prop :=
  ∀ s t : State, ModeInv s → step s = .next t → ModeInv t

/-- Every step keeps all invariants together. -/
def Obligations.StepKeepsTheInvariants : Prop :=
  ∀ s t : State, Inv s → step s = .next t → Inv t

/-- The state after reset meets all invariants; its parameters are the defaults of R12 (the model's choice, log
entries 1 and 2). -/
def Obligations.ResetMeetsTheInvariants : Prop :=
  Inv State.reset

/-- Operations of one instant are executed in the order of R412: `RESET` discards all others; else `RX`, the
application's operations in ascending selector, `POLL`; none is lost and equals keep their order. Presented
units are appended to the queue in that order. The units of the serial link rank with `RX` and the reserved
selectors last by the model's choice (log entry 18). -/
def Obligations.OperationsOfOneInstantAreOrdered : Prop :=
  (instantRank .resetLine = 0 ∧ ∀ r : Request, (r.opSel = 1 → instantRank (.request r) = 1) ∧
    (2 ≤ r.opSel.toNat → r.opSel.toNat ≤ 10 → instantRank (.request r) = r.opSel.toNat) ∧
    (r.opSel = 0 → instantRank (.request r) = 11) ∧ (11 ≤ r.opSel.toNat → instantRank (.request r) = 12)) ∧
  (∀ (b : Byte) (f : List Byte) (now : Tick), instantRank (.inboundByte b now) = 1 ∧
    instantRank (.checkByte b now) = 1 ∧ instantRank (.inboundFrame f now) = 1 ∧
    instantRank (.outboundFrame f now) = 1 ∧ instantRank (.rawResponse f) = 1) ∧
  (∀ (s : State) (units : List Presented), s.present units = { s with input := s.input ++ serialize units }) ∧
  ∀ units : List Presented,
    (.resetLine ∈ units → serialize units = [.resetLine]) ∧
    (.resetLine ∉ units → (serialize units).Perm units ∧
      (serialize units).Pairwise (fun u v => instantRank u ≤ instantRank v) ∧
      ∀ r, (serialize units).filter (fun u => instantRank u == r) = units.filter (fun u => instantRank u == r))
end

