-- ==== Sys2Proof/Laws/State.lean ====
section
/-!
SUPPORT. What each named update of the state leaves and writes: one lemma per field, true by definition.
-/

namespace Sys2Proof.Machine

variable (s : State)

/-! ### startOp -/

@[simp] theorem startOp_cfg : s.startOp.cfg = s.cfg := rfl
@[simp] theorem startOp_receiveSequenceBit : s.startOp.receiveSequenceBit = s.receiveSequenceBit := rfl
@[simp] theorem startOp_initialized : s.startOp.initialized = s.initialized := rfl
@[simp] theorem startOp_asm : s.startOp.asm = s.asm := rfl
@[simp] theorem startOp_snd : s.startOp.snd = s.snd := rfl
@[simp] theorem startOp_src : s.startOp.src = s.src := rfl
@[simp] theorem startOp_freeDraws : s.startOp.freeDraws = s.freeDraws := rfl
@[simp] theorem startOp_input : s.startOp.input = s.input := rfl

/-! ### emit -/

@[simp] theorem emit_cfg (bs : List Byte) : (s.emit bs).cfg = s.cfg := rfl
@[simp] theorem emit_receiveSequenceBit (bs : List Byte) : (s.emit bs).receiveSequenceBit = s.receiveSequenceBit := rfl
@[simp] theorem emit_initialized (bs : List Byte) : (s.emit bs).initialized = s.initialized := rfl
@[simp] theorem emit_asm (bs : List Byte) : (s.emit bs).asm = s.asm := rfl
@[simp] theorem emit_snd (bs : List Byte) : (s.emit bs).snd = s.snd := rfl
@[simp] theorem emit_src (bs : List Byte) : (s.emit bs).src = s.src := rfl
@[simp] theorem emit_freeDraws (bs : List Byte) : (s.emit bs).freeDraws = s.freeDraws := rfl
@[simp] theorem emit_input (bs : List Byte) : (s.emit bs).input = s.input := rfl

/-! ### signal -/

@[simp] theorem signal_cfg (e : Condition) : (s.signal e).cfg = s.cfg := rfl
@[simp] theorem signal_receiveSequenceBit (e : Condition) : (s.signal e).receiveSequenceBit = s.receiveSequenceBit := rfl
@[simp] theorem signal_initialized (e : Condition) : (s.signal e).initialized = s.initialized := rfl
@[simp] theorem signal_asm (e : Condition) : (s.signal e).asm = s.asm := rfl
@[simp] theorem signal_snd (e : Condition) : (s.signal e).snd = s.snd := rfl
@[simp] theorem signal_src (e : Condition) : (s.signal e).src = s.src := rfl
@[simp] theorem signal_freeDraws (e : Condition) : (s.signal e).freeDraws = s.freeDraws := rfl
@[simp] theorem signal_input (e : Condition) : (s.signal e).input = s.input := rfl

/-! ### deliverPacket -/

@[simp] theorem deliverPacket_cfg (op : BitVec 7) (p : List Byte) : (s.deliverPacket op p).cfg = s.cfg := rfl
@[simp] theorem deliverPacket_receiveSequenceBit (op : BitVec 7) (p : List Byte) : (s.deliverPacket op p).receiveSequenceBit = s.receiveSequenceBit := rfl
@[simp] theorem deliverPacket_initialized (op : BitVec 7) (p : List Byte) : (s.deliverPacket op p).initialized = s.initialized := rfl
@[simp] theorem deliverPacket_asm (op : BitVec 7) (p : List Byte) : (s.deliverPacket op p).asm = s.asm := rfl
@[simp] theorem deliverPacket_snd (op : BitVec 7) (p : List Byte) : (s.deliverPacket op p).snd = s.snd := rfl
@[simp] theorem deliverPacket_src (op : BitVec 7) (p : List Byte) : (s.deliverPacket op p).src = s.src := rfl
@[simp] theorem deliverPacket_freeDraws (op : BitVec 7) (p : List Byte) : (s.deliverPacket op p).freeDraws = s.freeDraws := rfl
@[simp] theorem deliverPacket_input (op : BitVec 7) (p : List Byte) : (s.deliverPacket op p).input = s.input := rfl

/-! ### setAccepted -/

@[simp] theorem setAccepted_cfg (v : Bool) : (s.setAccepted v).cfg = s.cfg := rfl
@[simp] theorem setAccepted_receiveSequenceBit (v : Bool) : (s.setAccepted v).receiveSequenceBit = s.receiveSequenceBit := rfl
@[simp] theorem setAccepted_initialized (v : Bool) : (s.setAccepted v).initialized = s.initialized := rfl
@[simp] theorem setAccepted_asm (v : Bool) : (s.setAccepted v).asm = s.asm := rfl
@[simp] theorem setAccepted_snd (v : Bool) : (s.setAccepted v).snd = s.snd := rfl
@[simp] theorem setAccepted_src (v : Bool) : (s.setAccepted v).src = s.src := rfl
@[simp] theorem setAccepted_freeDraws (v : Bool) : (s.setAccepted v).freeDraws = s.freeDraws := rfl
@[simp] theorem setAccepted_input (v : Bool) : (s.setAccepted v).input = s.input := rfl

/-! ### setAccumulated -/

@[simp] theorem setAccumulated_cfg (n : Byte) : (s.setAccumulated n).cfg = s.cfg := rfl
@[simp] theorem setAccumulated_receiveSequenceBit (n : Byte) : (s.setAccumulated n).receiveSequenceBit = s.receiveSequenceBit := rfl
@[simp] theorem setAccumulated_initialized (n : Byte) : (s.setAccumulated n).initialized = s.initialized := rfl
@[simp] theorem setAccumulated_snd (n : Byte) : (s.setAccumulated n).snd = s.snd := rfl
@[simp] theorem setAccumulated_src (n : Byte) : (s.setAccumulated n).src = s.src := rfl
@[simp] theorem setAccumulated_freeDraws (n : Byte) : (s.setAccumulated n).freeDraws = s.freeDraws := rfl
@[simp] theorem setAccumulated_input (n : Byte) : (s.setAccumulated n).input = s.input := rfl
@[simp] theorem setAccumulated_out (n : Byte) : (s.setAccumulated n).out = s.out := rfl

/-! ### storeRx -/

@[simp] theorem storeRx_cfg (i : Nat) (b n : Byte) (now : Tick) : (s.storeRx i b n now).cfg = s.cfg := rfl
@[simp] theorem storeRx_receiveSequenceBit (i : Nat) (b n : Byte) (now : Tick) : (s.storeRx i b n now).receiveSequenceBit = s.receiveSequenceBit := rfl
@[simp] theorem storeRx_initialized (i : Nat) (b n : Byte) (now : Tick) : (s.storeRx i b n now).initialized = s.initialized := rfl
@[simp] theorem storeRx_snd (i : Nat) (b n : Byte) (now : Tick) : (s.storeRx i b n now).snd = s.snd := rfl
@[simp] theorem storeRx_src (i : Nat) (b n : Byte) (now : Tick) : (s.storeRx i b n now).src = s.src := rfl
@[simp] theorem storeRx_freeDraws (i : Nat) (b n : Byte) (now : Tick) : (s.storeRx i b n now).freeDraws = s.freeDraws := rfl
@[simp] theorem storeRx_input (i : Nat) (b n : Byte) (now : Tick) : (s.storeRx i b n now).input = s.input := rfl
@[simp] theorem storeRx_out (i : Nat) (b n : Byte) (now : Tick) : (s.storeRx i b n now).out = s.out := rfl

/-! ### withSources -/

@[simp] theorem withSources_cfg (q : Sources) : (s.withSources q).cfg = s.cfg := rfl
@[simp] theorem withSources_receiveSequenceBit (q : Sources) : (s.withSources q).receiveSequenceBit = s.receiveSequenceBit := rfl
@[simp] theorem withSources_initialized (q : Sources) : (s.withSources q).initialized = s.initialized := rfl
@[simp] theorem withSources_asm (q : Sources) : (s.withSources q).asm = s.asm := rfl
@[simp] theorem withSources_snd (q : Sources) : (s.withSources q).snd = s.snd := rfl
@[simp] theorem withSources_freeDraws (q : Sources) : (s.withSources q).freeDraws = s.freeDraws := rfl
@[simp] theorem withSources_input (q : Sources) : (s.withSources q).input = s.input := rfl
@[simp] theorem withSources_out (q : Sources) : (s.withSources q).out = s.out := rfl

/-! ### prepare -/

@[simp] theorem prepare_cfg (body : List Byte) : (s.prepare body).cfg = s.cfg := rfl
@[simp] theorem prepare_receiveSequenceBit (body : List Byte) : (s.prepare body).receiveSequenceBit = s.receiveSequenceBit := rfl
@[simp] theorem prepare_initialized (body : List Byte) : (s.prepare body).initialized = s.initialized := rfl
@[simp] theorem prepare_asm (body : List Byte) : (s.prepare body).asm = s.asm := rfl
@[simp] theorem prepare_src (body : List Byte) : (s.prepare body).src = s.src := rfl
@[simp] theorem prepare_freeDraws (body : List Byte) : (s.prepare body).freeDraws = s.freeDraws := rfl
@[simp] theorem prepare_input (body : List Byte) : (s.prepare body).input = s.input := rfl
@[simp] theorem prepare_out (body : List Byte) : (s.prepare body).out = s.out := rfl

/-! ### send -/

@[simp] theorem send_cfg (now : Tick) : (s.send now).cfg = s.cfg := rfl
@[simp] theorem send_receiveSequenceBit (now : Tick) : (s.send now).receiveSequenceBit = s.receiveSequenceBit := rfl
@[simp] theorem send_initialized (now : Tick) : (s.send now).initialized = s.initialized := rfl
@[simp] theorem send_asm (now : Tick) : (s.send now).asm = s.asm := rfl
@[simp] theorem send_src (now : Tick) : (s.send now).src = s.src := rfl
@[simp] theorem send_freeDraws (now : Tick) : (s.send now).freeDraws = s.freeDraws := rfl
@[simp] theorem send_input (now : Tick) : (s.send now).input = s.input := rfl

/-! ### retransmit -/

@[simp] theorem retransmit_cfg (now : Tick) : (s.retransmit now).cfg = s.cfg := rfl
@[simp] theorem retransmit_receiveSequenceBit (now : Tick) : (s.retransmit now).receiveSequenceBit = s.receiveSequenceBit := rfl
@[simp] theorem retransmit_initialized (now : Tick) : (s.retransmit now).initialized = s.initialized := rfl
@[simp] theorem retransmit_asm (now : Tick) : (s.retransmit now).asm = s.asm := rfl
@[simp] theorem retransmit_src (now : Tick) : (s.retransmit now).src = s.src := rfl
@[simp] theorem retransmit_freeDraws (now : Tick) : (s.retransmit now).freeDraws = s.freeDraws := rfl
@[simp] theorem retransmit_input (now : Tick) : (s.retransmit now).input = s.input := rfl

/-! ### The outputs -/

@[simp] theorem startOp_out : s.startOp.out = ⟨[], [], [], none⟩ := rfl
@[simp] theorem emit_tx (bs : List Byte) : (s.emit bs).out.tx = s.out.tx ++ bs := rfl
@[simp] theorem emit_deliver (bs : List Byte) : (s.emit bs).out.deliver = s.out.deliver := rfl
@[simp] theorem emit_ev (bs : List Byte) : (s.emit bs).out.ev = s.out.ev := rfl
@[simp] theorem emit_accepted (bs : List Byte) : (s.emit bs).out.accepted = s.out.accepted := rfl
@[simp] theorem signal_tx (e : Condition) : (s.signal e).out.tx = s.out.tx := rfl
@[simp] theorem signal_deliver (e : Condition) : (s.signal e).out.deliver = s.out.deliver := rfl
@[simp] theorem signal_ev (e : Condition) : (s.signal e).out.ev = s.out.ev ++ [e] := rfl
@[simp] theorem signal_accepted (e : Condition) : (s.signal e).out.accepted = s.out.accepted := rfl
@[simp] theorem deliverPacket_tx (op : BitVec 7) (p : List Byte) : (s.deliverPacket op p).out.tx = s.out.tx := rfl
@[simp] theorem deliverPacket_deliver (op : BitVec 7) (p : List Byte) :
    (s.deliverPacket op p).out.deliver = s.out.deliver ++ [⟨op, p⟩] := rfl
@[simp] theorem deliverPacket_ev (op : BitVec 7) (p : List Byte) : (s.deliverPacket op p).out.ev = s.out.ev := rfl
@[simp] theorem deliverPacket_accepted (op : BitVec 7) (p : List Byte) :
    (s.deliverPacket op p).out.accepted = s.out.accepted := rfl
@[simp] theorem setAccepted_tx (v : Bool) : (s.setAccepted v).out.tx = s.out.tx := rfl
@[simp] theorem setAccepted_deliver (v : Bool) : (s.setAccepted v).out.deliver = s.out.deliver := rfl
@[simp] theorem setAccepted_ev (v : Bool) : (s.setAccepted v).out.ev = s.out.ev := rfl
@[simp] theorem setAccepted_accepted (v : Bool) : (s.setAccepted v).out.accepted = some v := rfl

/-! ### The assembler, the sources and the sender -/

@[simp] theorem setAccumulated_asm (n : Byte) :
    (s.setAccumulated n).asm = { s.asm with bytesAccumulated := n } := rfl
@[simp] theorem storeRx_asm (i : Nat) (b n : Byte) (now : Tick) :
    (s.storeRx i b n now).asm = ⟨bufWrite s.asm.rxBuf i b, n, sampled s.cfg now⟩ := rfl
@[simp] theorem withSources_src (q : Sources) : (s.withSources q).src = q := rfl
@[simp] theorem prepare_snd (body : List Byte) : (s.prepare body).snd =
    { s.snd with
      txBuf := preparedBuf s.cfg.matrix s.snd.sendSequenceBit body s.snd.txBuf
      txLen := BitVec.ofNat 8 (need (body.headD 0).toNat) } := rfl
@[simp] theorem send_snd (now : Tick) : (s.send now).snd =
    { s.snd with outboundBusy := true, sendTime := sampled s.cfg now } := rfl
@[simp] theorem send_out (now : Tick) : (s.send now).out = { s.out with tx := s.out.tx ++ s.snd.frame } := rfl
@[simp] theorem retransmit_snd (now : Tick) : (s.retransmit now).snd =
    { s.snd with sendTime := sampled s.cfg now } := rfl
@[simp] theorem retransmit_out (now : Tick) :
    (s.retransmit now).out = { s.out with tx := s.out.tx ++ s.snd.frame } := rfl
@[simp] theorem badArg_eq : s.badArg = s.signal .badArgument := rfl

end Sys2Proof.Machine
end

