-- ==== Sys2Proof/Laws/Bytes.lean ====
section
/-!
SUPPORT. The laws of byte fields, frame lengths and byte buffers.
-/

namespace Sys2Proof.Machine

/-! ### Lengths -/

theorem legalLen_iff {n : Nat} : legalLen n = true ↔ 3 ≤ n ∧ n ≤ 127 ∧ n ≠ 4 := by simp [legalLen]

theorem legalLength_iff {v : Byte} : legalLength v = true ↔ 3 ≤ v.toNat ∧ v.toNat ≤ 127 ∧ v.toNat ≠ 4 :=
  legalLen_iff

/-- A whole frame of legal length has 4 to 170 bytes. -/
theorem need_bounds {L : Nat} (h : legalLen L = true) : L < need L ∧ 4 ≤ need L ∧ need L ≤ 170 := by
  have := legalLen_iff.mp h
  unfold need groups
  omega

/-- The bytes of a group come before its own check byte: this is what the illegal lengths would break (R105). -/
theorem group_before_check {L t : Nat} (h : legalLen L = true) (ht : t < groups L) : 3 * t + 2 < L + t := by
  have := legalLen_iff.mp h
  unfold groups at ht
  omega

theorem need_pos (L : Nat) : L ≠ 0 → 0 < need L := by unfold need; omega

/-! ### Fields of a byte -/

@[simp] theorem seqBit_seqOpByte (s : Bool) (op : BitVec 7) : seqBit (seqOpByte s op) = s := by
  revert s op
  decide +kernel

@[simp] theorem opcodeOf_seqOpByte (s : Bool) (op : BitVec 7) : opcodeOf (seqOpByte s op) = op := by
  revert s op
  decide +kernel

theorem seqOpByte_eta (b : Byte) : seqOpByte (seqBit b) (opcodeOf b) = b := by
  revert b
  decide +kernel

@[simp] theorem stampSeq_seqOpByte (s s' : Bool) (op : BitVec 7) :
    stampSeq (seqOpByte s' op) s = seqOpByte s op := by
  revert s s' op
  decide +kernel

/-! ### Buffers -/

section
variable {n : Nat} (buf : Vector Byte n)

theorem bufRead_bufWrite (i j : Nat) (v : Byte) :
    bufRead (bufWrite buf i v) j = if j = i ∧ i < n then v else bufRead buf j := by
  unfold bufRead bufWrite
  by_cases hj : j < n
  · simp only [hj, dif_pos, Vector.getElem_setIfInBounds]
    by_cases hij : i = j
    · subst hij; simp [hj]
    · simp [hij, Ne.symm hij]
  · have : ¬ (j = i ∧ i < n) := by omega
    simp [hj, this]

/-- A read after a write to the same index gives the byte written (R72). -/
theorem bufRead_bufWrite_same {i : Nat} (v : Byte) (h : i < n) : bufRead (bufWrite buf i v) i = v := by
  simp [bufRead_bufWrite, h]

/-- A write changes no other element (R72). -/
theorem bufRead_bufWrite_ne {i j : Nat} (v : Byte) (h : j ≠ i) :
    bufRead (bufWrite buf i v) j = bufRead buf j := by
  simp [bufRead_bufWrite, h]

@[simp] theorem bufSlice_length (i k : Nat) : (bufSlice buf i k).length = k := by simp [bufSlice]

theorem bufSlice_getD {i k j : Nat} (d : Byte) (h : j < k) : (bufSlice buf i k).getD j d = bufRead buf (i + j) := by
  simp [bufSlice, List.getD, h]

theorem bufRead_bufWriteSlice (vs : List Byte) (i j : Nat) :
    bufRead (bufWriteSlice buf i vs) j =
      if i ≤ j ∧ j < i + vs.length ∧ j < n then vs.getD (j - i) 0 else bufRead buf j := by
  induction vs generalizing buf i with
  | nil => simp [bufWriteSlice]; omega
  | cons v vs ih =>
    rw [bufWriteSlice, ih, bufRead_bufWrite]
    simp only [List.length_cons]
    by_cases h1 : i + 1 ≤ j ∧ j < i + 1 + vs.length ∧ j < n
    · have h2 : i ≤ j ∧ j < i + (vs.length + 1) ∧ j < n := by omega
      have h3 : j - i = (j - (i + 1)) + 1 := by omega
      rw [if_pos h1, if_pos h2, h3]
      simp
    · rw [if_neg h1]
      by_cases h4 : j = i ∧ i < n
      · obtain ⟨rfl, h4⟩ := h4
        simp [h4]
      · rw [if_neg h4, if_neg]
        omega

end

/-- Two buffers with the same bytes are equal. -/
theorem buf_ext {n : Nat} {a b : Vector Byte n} (h : ∀ i < n, bufRead a i = bufRead b i) : a = b := by
  apply Vector.ext
  intro i hi
  have := h i hi
  simpa [bufRead, hi] using this

/-- A buffer that is 0 everywhere reads 0 inside. -/
theorem bufRead_replicate {n i : Nat} (v : Byte) (h : i < n) : bufRead (Vector.replicate n v) i = v := by
  simp [bufRead, h]

end Sys2Proof.Machine
end

