-- ==== Sys2Proof/Laws/Codec.lean ====
section
/-!
SUPPORT. The laws of the Parity Codec: linearity of `fold`, the fields of a check byte, and what it means
that the check bytes of a frame are right, stated once for lists and buffers alike.
-/

namespace Sys2Proof.Machine

/-! ### fold -/

theorem fold_eq_bits (v : Byte) : fold v =
    (v.getLsbD 0 ^^ v.getLsbD 1 ^^ v.getLsbD 2 ^^ v.getLsbD 3 ^^ v.getLsbD 4 ^^ v.getLsbD 5 ^^ v.getLsbD 6 ^^
      v.getLsbD 7) := by
  revert v
  decide +kernel

/-- The parity is linear over exclusive or (R157). -/
theorem fold_xor (a b : Byte) : fold (a ^^^ b) = (fold a ^^ fold b) := by
  simp only [fold_eq_bits, BitVec.getLsbD_xor]
  generalize a.getLsbD 0 = a0, a.getLsbD 1 = a1, a.getLsbD 2 = a2, a.getLsbD 3 = a3,
    a.getLsbD 4 = a4, a.getLsbD 5 = a5, a.getLsbD 6 = a6, a.getLsbD 7 = a7,
    b.getLsbD 0 = b0, b.getLsbD 1 = b1, b.getLsbD 2 = b2, b.getLsbD 3 = b3,
    b.getLsbD 4 = b4, b.getLsbD 5 = b5, b.getLsbD 6 = b6, b.getLsbD 7 = b7
  cases a0 <;> cases a1 <;> cases a2 <;> cases a3 <;> cases a4 <;> cases a5 <;> cases a6 <;> cases a7 <;> simp

/-- The parity of one selected bit. -/
theorem fold_and_twoPow (v : Byte) {i : Nat} (h : i < 8) : fold (BitVec.twoPow 8 i &&& v) = v.getLsbD i := by
  revert v i
  decide +kernel

/-! ### The check byte -/

theorem packCheck_setWidth (tag : BitVec 3) (p0 p1 p2 p3 p4 : Bool) :
    (packCheck tag p0 p1 p2 p3 p4).setWidth 3 = tag := by
  revert tag p0 p1 p2 p3 p4
  decide +kernel

theorem packCheck_bits (tag : BitVec 3) (p0 p1 p2 p3 p4 : Bool) :
    (packCheck tag p0 p1 p2 p3 p4).getLsbD 3 = p0 ∧ (packCheck tag p0 p1 p2 p3 p4).getLsbD 4 = p1 ∧
      (packCheck tag p0 p1 p2 p3 p4).getLsbD 5 = p2 ∧ (packCheck tag p0 p1 p2 p3 p4).getLsbD 6 = p3 ∧
      (packCheck tag p0 p1 p2 p3 p4).getLsbD 7 = p4 := by
  revert tag p0 p1 p2 p3 p4
  decide +kernel

/-- A byte is the check byte of its own fields. -/
theorem packCheck_eta (b : Byte) :
    packCheck (b.setWidth 3) (b.getLsbD 3) (b.getLsbD 4) (b.getLsbD 5) (b.getLsbD 6) (b.getLsbD 7) = b := by
  revert b
  decide +kernel

theorem packCheck_inj {t t' : BitVec 3} {a b c d e a' b' c' d' e' : Bool} :
    packCheck t a b c d e = packCheck t' a' b' c' d' e' ↔
      t = t' ∧ a = a' ∧ b = b' ∧ c = c' ∧ d = d' ∧ e = e' := by
  constructor
  · intro h
    have h1 := congrArg (BitVec.setWidth 3) h
    rw [packCheck_setWidth, packCheck_setWidth] at h1
    obtain ⟨a1, b1, c1, d1, e1⟩ := packCheck_bits t a b c d e
    obtain ⟨a2, b2, c2, d2, e2⟩ := packCheck_bits t' a' b' c' d' e'
    rw [h] at a1 b1 c1 d1 e1
    exact ⟨h1, a1.symm.trans a2, b1.symm.trans b2, c1.symm.trans c2, d1.symm.trans d2, e1.symm.trans e2⟩
  · rintro ⟨rfl, rfl, rfl, rfl, rfl, rfl⟩
    rfl

/-- Only the three low bits of the group index enter the check byte (R150). -/
theorem encodeBlock_tag (m : ParityMatrix) (d0 d1 d2 idx : Byte) :
    (encodeBlock m d0 d1 d2 idx).setWidth 3 = idx.setWidth 3 := packCheck_setWidth ..

theorem verifyBlock_iff {m : ParityMatrix} {d0 d1 d2 k idx : Byte} :
    verifyBlock m d0 d1 d2 k idx = true ↔ k = encodeBlock m d0 d1 d2 idx := by simp [verifyBlock]

/-! ### The check bytes of a frame -/

/-- Read through `read`, the check bytes of a frame of length `L` are those the codec computes (R100). -/
abbrev Checked (m : ParityMatrix) (L : Nat) (read : Nat → Byte) : Prop :=
  ∀ t < groups L, read (L + t) =
    encodeBlock m (read (3 * t)) (read (3 * t + 1)) (read (3 * t + 2)) (BitVec.ofNat 8 t)

theorem verifyFrame_iff (m : ParityMatrix) {n : Nat} (buf : Vector Byte n) :
    verifyFrame m buf = true ↔ Checked m (bufRead buf 0).toNat (bufRead buf) := by
  simp [verifyFrame, firstBadGroup, groupOk, verifyBlock]

theorem wellFormedFrame_iff (m : ParityMatrix) (f : List Byte) :
    wellFormedFrame m f = true ↔ legalLen (f.getD 0 0).toNat = true ∧ f.length = need (f.getD 0 0).toNat ∧
      Checked m (f.getD 0 0).toNat (fun i => f.getD i 0) := by
  simp [wellFormedFrame, verifyBlock, and_assoc]

/-- A frame of legal length is determined by its body: the check bytes follow from it. -/
theorem checked_unique {m : ParityMatrix} {L : Nat} {r r' : Nat → Byte} (hL : legalLen L = true)
    (h : Checked m L r) (h' : Checked m L r') (body : ∀ i < L, r i = r' i) : ∀ i < need L, r i = r' i := by
  have key : ∀ t ≤ groups L, ∀ i < L + t, r i = r' i := by
    intro t
    induction t with
    | zero => intro _; simpa using body
    | succ t ih =>
      intro ht i hi
      have ih := ih (by omega)
      have hg := group_before_check hL (t := t) (by omega)
      by_cases hit : i < L + t
      · exact ih i hit
      · have : i = L + t := by omega
        subst this
        rw [h t (by omega), h' t (by omega), ih _ (by omega), ih _ (by omega), ih _ (by omega)]
  exact key (groups L) le_rfl

theorem checked_congr {m : ParityMatrix} {L : Nat} {r r' : Nat → Byte} (hL : legalLen L = true)
    (h : Checked m L r) (same : ∀ i < need L, r i = r' i) : Checked m L r' := by
  intro t ht
  have hg := group_before_check hL ht
  have hn : L + t < need L := by unfold need; omega
  rw [← same _ hn, ← same _ (by omega), ← same _ (by omega), ← same _ (by omega)]
  exact h t ht

/-- The loop of `STAMP_CHECKS` after `k` passes. -/
theorem stampFold_spec {m : ParityMatrix} {L n : Nat} (buf : Vector Byte n) (hL : legalLen L = true) (hn : need L ≤ n)
    {k : Nat} (hk : k ≤ groups L) :
    let b := (List.range k).foldl (stampGroup m L) buf
    (∀ i, (i < L ∨ L + k ≤ i) → bufRead b i = bufRead buf i) ∧
      ∀ t < k, bufRead b (L + t) =
        encodeBlock m (bufRead b (3 * t)) (bufRead b (3 * t + 1)) (bufRead b (3 * t + 2)) (BitVec.ofNat 8 t) := by
  induction k with
  | zero => simp
  | succ k ih =>
    obtain ⟨hout, hin⟩ := ih (by omega)
    simp only [List.range_succ, List.foldl_append, List.foldl_cons, List.foldl_nil]
    generalize (List.range k).foldl (stampGroup m L) buf = b at hout hin
    have hgk := group_before_check hL (t := k) (by omega)
    have hin' : L + k < n := by unfold need at hn; omega
    refine ⟨fun i hi => ?_, fun t ht => ?_⟩
    · rw [stampGroup, bufRead_bufWrite_ne _ _ (by omega), hout i (by omega)]
    · have hgt := group_before_check hL (t := t) (by omega)
      simp only [stampGroup]
      rw [bufRead_bufWrite_ne _ _ (j := 3 * t) (by omega), bufRead_bufWrite_ne _ _ (j := 3 * t + 1) (by omega),
        bufRead_bufWrite_ne _ _ (j := 3 * t + 2) (by omega)]
      by_cases htk : t = k
      · subst htk
        rw [bufRead_bufWrite_same _ _ hin', groupCheck]
      · rw [bufRead_bufWrite_ne _ _ (by omega), hin t (by omega)]

/-- What `STAMP_CHECKS` does, once and for all: the check bytes are right, the rest of the buffer stays. -/
theorem stampChecks_spec (m : ParityMatrix) {n : Nat} (buf : Vector Byte n)
    (hL : legalLen (bufRead buf 0).toNat = true) (hn : need (bufRead buf 0).toNat ≤ n) :
    (∀ i, (i < (bufRead buf 0).toNat ∨ need (bufRead buf 0).toNat ≤ i) →
      bufRead (stampChecks m buf) i = bufRead buf i) ∧
      Checked m (bufRead buf 0).toNat (bufRead (stampChecks m buf)) := by
  have h := stampFold_spec (m := m) buf hL hn le_rfl
  exact ⟨fun i hi => h.1 i (by unfold need at hi; omega), h.2⟩

/-- The loop of `frameOf` after `k` passes. -/
theorem frameFold_spec {m : ParityMatrix} (body : List Byte) (hL : legalLen body.length = true) {k : Nat}
    (hk : k ≤ groups body.length) :
    let f := (List.range k).foldl (fun f t =>
      f ++ [encodeBlock m (f.getD (3 * t) 0) (f.getD (3 * t + 1) 0) (f.getD (3 * t + 2) 0) (BitVec.ofNat 8 t)]) body
    f.length = body.length + k ∧ (∀ i < body.length, f.getD i 0 = body.getD i 0) ∧
      ∀ t < k, f.getD (body.length + t) 0 =
        encodeBlock m (f.getD (3 * t) 0) (f.getD (3 * t + 1) 0) (f.getD (3 * t + 2) 0) (BitVec.ofNat 8 t) := by
  induction k with
  | zero => simp
  | succ k ih =>
    obtain ⟨hlen, hbody, hin⟩ := ih (by omega)
    simp only [List.range_succ, List.foldl_append, List.foldl_cons, List.foldl_nil]
    generalize (List.range k).foldl _ body = f at hlen hbody hin ⊢
    have old : ∀ (x : Byte) (i : Nat), i < body.length + k → (f ++ [x]).getD i 0 = f.getD i 0 := by
      intro x i hi
      simp only [List.getD]
      rw [List.getElem?_append_left (by omega)]
    refine ⟨by simp [hlen]; omega, fun i hi => by rw [old _ _ (by omega), hbody i hi], fun t ht => ?_⟩
    have hgt := group_before_check hL (t := t) (by omega)
    rw [old _ (3 * t) (by omega), old _ (3 * t + 1) (by omega), old _ (3 * t + 2) (by omega)]
    by_cases htk : t = k
    · subst htk
      simp only [List.getD]
      rw [List.getElem?_append_right (by omega)]
      simp [hlen]
    · rw [old _ _ (by omega), hin t (by omega)]

/-- What `frameOf` does, once and for all: the body, then the check bytes of a frame of R100. -/
theorem frameOf_spec (m : ParityMatrix) (body : List Byte) (hL : legalLen body.length = true) :
    (frameOf m body).length = need body.length ∧ (∀ i < body.length, (frameOf m body).getD i 0 = body.getD i 0) ∧
      Checked m body.length (fun i => (frameOf m body).getD i 0) := by
  have h := frameFold_spec (m := m) body hL le_rfl
  exact ⟨h.1, h.2.1, h.2.2⟩

end Sys2Proof.Machine
end

