-- ==== Sys2Proof/Laws/Flags.lean ====
section
/-!
SUPPORT. The laws of bit maps: set, clear and assign one bit; the scans over a map; the number of bits set.
-/

namespace Sys2Proof.Machine

section
variable {w : Nat} (m : BitVec w)

@[simp] theorem setBit_getLsbD (i j : Nat) :
    (setBit m i).getLsbD j = (m.getLsbD j || decide (j = i ∧ i < w)) := by
  simp only [setBit, BitVec.getLsbD_or, BitVec.getLsbD_twoPow]
  congr 1
  by_cases h : i = j <;> simp [h, eq_comm]

@[simp] theorem clearBit_getLsbD (i j : Nat) : (clearBit m i).getLsbD j = (m.getLsbD j && decide (j ≠ i)) := by
  simp only [clearBit, BitVec.getLsbD_and, BitVec.getLsbD_not, BitVec.getLsbD_twoPow]
  by_cases hj : j < w
  · by_cases h : i = j
    · subst h; simp [hj]
    · simp [hj, h, Ne.symm h]
  · simp [BitVec.getLsbD_of_ge m j (by omega)]

@[simp] theorem assignBit_getLsbD (i j : Nat) (v : Bool) :
    (assignBit m i v).getLsbD j = if j = i ∧ i < w then v else m.getLsbD j := by
  cases v
  · simp only [assignBit, Bool.false_eq_true, if_false, clearBit_getLsbD]
    by_cases h : j = i
    · subst h
      by_cases hj : j < w
      · simp [hj]
      · simp [hj, BitVec.getLsbD_of_ge m j (by omega)]
    · simp [h]
  · simp only [assignBit, if_true, setBit_getLsbD]
    by_cases h : j = i ∧ i < w <;> simp [h]

/-! ### Scans -/

theorem firstSet_eq_some {n a : Nat} :
    firstSet n m = some a ↔ a < n ∧ m.getLsbD a = true ∧ ∀ j < a, m.getLsbD j = false := by
  simp [firstSet, List.find?_range_eq_some, and_left_comm]

theorem firstSet_eq_none {n : Nat} : firstSet n m = none ↔ ∀ j < n, m.getLsbD j = false := by
  simp [firstSet]

theorem firstSetFrom_eq_some {n rr ch : Nat} (h : firstSetFrom n rr m = some ch) :
    ∃ k < n, ch = (rr + k) % n ∧ m.getLsbD ch = true ∧ ∀ j < k, m.getLsbD ((rr + j) % n) = false := by
  simp only [firstSetFrom, List.find?_map, Option.map_eq_some_iff] at h
  obtain ⟨k, hk, rfl⟩ := h
  rw [List.find?_range_eq_some] at hk
  obtain ⟨hset, hmem, hfirst⟩ := hk
  exact ⟨k, by simpa using hmem, rfl, by simpa using hset, by simpa using hfirst⟩

theorem firstSetFrom_eq_none {n rr : Nat} :
    firstSetFrom n rr m = none ↔ ∀ ch < n, m.getLsbD ch = false := by
  simp only [firstSetFrom, List.find?_eq_none, List.mem_map, List.mem_range, Bool.not_eq_true,
    forall_exists_index, and_imp, forall_apply_eq_imp_iff₂]
  constructor
  · intro h ch hch
    have := h ((ch + (n - rr % n)) % n) (Nat.mod_lt _ (by omega))
    have hr : rr % n < n := Nat.mod_lt _ (by omega)
    have e : (rr + (ch + (n - rr % n)) % n) % n = ch := by
      rw [Nat.add_mod_mod, ← Nat.mod_add_mod, show rr % n + (ch + (n - rr % n)) = ch + n by omega,
        Nat.add_mod_right, Nat.mod_eq_of_lt hch]
    rwa [e] at this
  · intro h k hk
    exact h _ (Nat.mod_lt _ (by omega))

/-! ### Counting -/

theorem countSet_le (n : Nat) : countSet n m ≤ n := by
  have := List.countP_le_length (p := fun i => m.getLsbD i) (l := List.range n)
  simpa [countSet] using this

theorem countSet_eq_zero {n : Nat} : countSet n m = 0 ↔ ∀ j < n, m.getLsbD j = false := by
  simp [countSet, List.countP_eq_zero]

/-- Clearing a set bit takes one from the number of bits set (R275). -/
theorem countSet_clearBit {n a : Nat} (ha : a < n) (h : m.getLsbD a = true) :
    countSet n m = countSet n (clearBit m a) + 1 := by
  induction n with
  | zero => omega
  | succ n ih =>
    have step : ∀ x : BitVec w, countSet (n + 1) x = countSet n x + (if x.getLsbD n = true then 1 else 0) := by
      intro x
      simp [countSet, List.range_succ, List.countP_append, List.countP_singleton]
    rw [step, step]
    by_cases hn : a = n
    · subst hn
      have : countSet a m = countSet a (clearBit m a) := by
        apply List.countP_congr
        intro i hi
        have : i ≠ a := by have := List.mem_range.mp hi; omega
        simp [this]
      simp [h, this]
    · rw [ih (by omega)]
      simp [Ne.symm hn]
      omega

/-- The scans of a map with one bit set. -/
theorem firstSet_setBit_zero {n a : Nat} (ha : a < n) (hw : a < w) :
    firstSet n (setBit (0 : BitVec w) a) = some a := by
  rw [firstSet_eq_some]
  refine ⟨ha, by simp [hw], fun j hj => by simp; omega⟩

theorem firstSetFrom_setBit_zero {n rr a : Nat} (ha : a < n) (hw : a < w) :
    firstSetFrom n rr (setBit (0 : BitVec w) a) = some a := by
  cases h : firstSetFrom n rr (setBit (0 : BitVec w) a) with
  | none =>
    have := (firstSetFrom_eq_none _).mp h a ha
    rw [setBit_getLsbD] at this
    simp [hw] at this
  | some ch =>
    obtain ⟨k, _, _, hset, _⟩ := firstSetFrom_eq_some _ h
    simp at hset
    rw [hset.1]

theorem clearBit_setBit_zero (a : Nat) : clearBit (setBit (0 : BitVec w) a) a = 0 := by
  apply BitVec.eq_of_getLsbD_eq
  intro i _
  simp
  tauto

end

end Sys2Proof.Machine
end

