-- ==== Sys2Proof/Laws/Sources.lean ====
section
/-!
SUPPORT. The laws of the nine sources and of `PICK`: what each source answers, what a pick leaves.
-/

namespace Sys2Proof.Machine

variable {c : Config} {q : Sources} {x : Picked}

/-! ### The sources, one by one -/

theorem pickLimit_eq_some : pickLimit c q = some x ↔ ∃ a < c.nAxes, q.limitPending.getLsbD a = true ∧
    (∀ j < a, q.limitPending.getLsbD j = false) ∧
    x = ⟨.limit, eventBody false c.opLimit (BitVec.ofNat 8 a), { q with limitPending := clearBit q.limitPending a }⟩ := by
  simp only [pickLimit, Option.map_eq_some_iff, firstSet_eq_some]
  constructor
  · rintro ⟨a, ⟨h1, h2, h3⟩, rfl⟩; exact ⟨a, h1, h2, h3, rfl⟩
  · rintro ⟨a, h1, h2, h3, rfl⟩; exact ⟨a, ⟨h1, h2, h3⟩, rfl⟩

theorem pickSense_eq_some : pickSense c q = some x ↔ ∃ a < c.nAxes, q.sensePending.getLsbD a = true ∧
    (∀ j < a, q.sensePending.getLsbD j = false) ∧
    x = ⟨.sense, eventBody false c.opSense (senseByte (q.senseFlag.getLsbD a) (BitVec.ofNat 8 a)),
      { q with sensePending := clearBit q.sensePending a }⟩ := by
  simp only [pickSense, Option.map_eq_some_iff, firstSet_eq_some]
  constructor
  · rintro ⟨a, ⟨h1, h2, h3⟩, rfl⟩; exact ⟨a, h1, h2, h3, rfl⟩
  · rintro ⟨a, h1, h2, h3, rfl⟩; exact ⟨a, ⟨h1, h2, h3⟩, rfl⟩

theorem pickMovecb_eq_some : pickMovecb c q = some x ↔ q.moveDoneCount ≠ 0 ∧
    x = ⟨.movecb, eventBody false c.opMovecb q.moveDoneCount, { q with moveDoneCount := 0 }⟩ := by
  unfold pickMovecb
  split <;> rename_i h
  · simp [h]
  · exact ⟨fun e => ⟨h, (Option.some.inj e).symm⟩, fun e => congrArg some e.2.symm⟩

theorem pickTempcb_eq_some (h : pickTempcb c q = some x) : ∃ k < c.nTemps,
    q.tempPending.getLsbD ((q.tempRr + k) % c.nTemps) = true ∧
    (∀ j < k, q.tempPending.getLsbD ((q.tempRr + j) % c.nTemps) = false) ∧
    x = ⟨.tempcb, eventBody false c.opTempcb (BitVec.ofNat 8 ((q.tempRr + k) % c.nTemps)),
      { q with
        tempPending := clearBit q.tempPending ((q.tempRr + k) % c.nTemps)
        tempRr := ((q.tempRr + k) % c.nTemps + 1) % c.nTemps }⟩ := by
  simp only [pickTempcb, Option.map_eq_some_iff] at h
  obtain ⟨ch, hch, rfl⟩ := h
  obtain ⟨k, hk, rfl, hset, hfirst⟩ := firstSetFrom_eq_some _ hch
  exact ⟨k, hk, hset, hfirst, rfl⟩

theorem pickReply_eq_some : pickReply q = some x ↔ q.replyPending = true ∧
    x = ⟨.reply, frameBody false q.replyOp (bufSlice q.replyBuf 0 q.replyLen.toNat), { q with replyPending := false }⟩ := by
  unfold pickReply; split <;> rename_i h <;> simp [h, eq_comm (a := x)]

theorem pickResumeMove_eq_some : pickResumeMove c q = some x ↔ q.resumeMovePending = true ∧
    x = ⟨.resumeMove, eventBody false c.opResume 0, { q with resumeMovePending := false }⟩ := by
  unfold pickResumeMove; split <;> rename_i h <;> simp [h, eq_comm (a := x)]

theorem pickResumeAudio_eq_some : pickResumeAudio c q = some x ↔ q.resumeAudioPending = true ∧
    x = ⟨.resumeAudio, eventBody false c.opResume 1, { q with resumeAudioPending := false }⟩ := by
  unfold pickResumeAudio; split <;> rename_i h <;> simp [h, eq_comm (a := x)]

theorem pickAutosleep_eq_some : pickAutosleep c q = some x ↔ q.autosleepPending = true ∧
    x = ⟨.autosleep, eventBody false c.opAutosleep q.autosleepMask,
      { q with autosleepPending := false, autosleepMask := 0 }⟩ := by
  unfold pickAutosleep; split <;> rename_i h <;> simp [h, eq_comm (a := x)]

theorem pickPong_eq_some : pickPong c q = some x ↔ ∃ a < 8, q.pingPending.getLsbD a = true ∧
    (∀ j < a, q.pingPending.getLsbD j = false) ∧
    x = ⟨.pong, eventBody false c.opPong (BitVec.ofNat 8 a), { q with pingPending := clearBit q.pingPending a }⟩ := by
  simp only [pickPong, Option.map_eq_some_iff, firstSet_eq_some]
  constructor
  · rintro ⟨a, ⟨h1, h2, h3⟩, rfl⟩; exact ⟨a, h1, h2, h3, rfl⟩
  · rintro ⟨a, h1, h2, h3, rfl⟩; exact ⟨a, ⟨h1, h2, h3⟩, rfl⟩

/-! ### When a source has nothing -/

theorem pickLimit_eq_none : pickLimit c q = none ↔ ¬ sourcePending c q .limit := by
  simp [pickLimit, firstSet_eq_none, sourcePending]

theorem pickSense_eq_none : pickSense c q = none ↔ ¬ sourcePending c q .sense := by
  simp [pickSense, firstSet_eq_none, sourcePending]

theorem pickMovecb_eq_none : pickMovecb c q = none ↔ ¬ sourcePending c q .movecb := by
  simp [pickMovecb, sourcePending]

theorem pickTempcb_eq_none : pickTempcb c q = none ↔ ¬ sourcePending c q .tempcb := by
  simp [pickTempcb, firstSetFrom_eq_none, sourcePending]

theorem pickReply_eq_none : pickReply q = none ↔ ¬ sourcePending c q .reply := by
  simp [pickReply, sourcePending]

theorem pickResumeMove_eq_none : pickResumeMove c q = none ↔ ¬ sourcePending c q .resumeMove := by
  simp [pickResumeMove, sourcePending]

theorem pickResumeAudio_eq_none : pickResumeAudio c q = none ↔ ¬ sourcePending c q .resumeAudio := by
  simp [pickResumeAudio, sourcePending]

theorem pickAutosleep_eq_none : pickAutosleep c q = none ↔ ¬ sourcePending c q .autosleep := by
  simp [pickAutosleep, sourcePending]

theorem pickPong_eq_none : pickPong c q = none ↔ ¬ sourcePending c q .pong := by
  simp [pickPong, firstSet_eq_none, sourcePending]

/-! ### The order -/

/-- A pick is the answer of the first source, in the order of R272, that has one. -/
theorem pick_eq_some : pick c q = some x ↔
    pickLimit c q = some x ∨ pickLimit c q = none ∧ (pickSense c q = some x ∨ pickSense c q = none ∧
      (pickMovecb c q = some x ∨ pickMovecb c q = none ∧ (pickTempcb c q = some x ∨ pickTempcb c q = none ∧
        (pickReply q = some x ∨ pickReply q = none ∧ (pickResumeMove c q = some x ∨ pickResumeMove c q = none ∧
          (pickResumeAudio c q = some x ∨ pickResumeAudio c q = none ∧
            (pickAutosleep c q = some x ∨ pickAutosleep c q = none ∧ pickPong c q = some x))))))) := by
  simp only [pick, Option.orElse_eq_orElse, Option.orElse_eq_or, Option.or_eq_some_iff]

/-- Nothing is picked exactly when no source has an event. -/
theorem pick_eq_none : pick c q = none ↔ ∀ src, ¬ sourcePending c q src := by
  simp only [pick, Option.orElse_eq_orElse, Option.orElse_eq_or, Option.or_eq_none_iff, pickLimit_eq_none,
    pickSense_eq_none, pickMovecb_eq_none, pickTempcb_eq_none, pickReply_eq_none (c := c), pickResumeMove_eq_none,
    pickResumeAudio_eq_none, pickAutosleep_eq_none, pickPong_eq_none]
  constructor
  · rintro ⟨h1, h2, h3, h4, h5, h6, h7, h8, h9⟩ src
    cases src <;> assumption
  · intro h
    exact ⟨h _, h _, h _, h _, h _, h _, h _, h _, h _⟩

/-- The answer of a pick is the answer of its own source. -/
theorem pick_cases (h : pick c q = some x) :
    pickLimit c q = some x ∨ pickSense c q = some x ∨ pickMovecb c q = some x ∨ pickTempcb c q = some x ∨
      pickReply q = some x ∨ pickResumeMove c q = some x ∨ pickResumeAudio c q = some x ∨
      pickAutosleep c q = some x ∨ pickPong c q = some x := by
  have := pick_eq_some.mp h
  tauto

/-- While the link is idle and nothing is pending, nothing is picked. -/
theorem pick_of_quiet (h : Quiet q) : pick c q = none := by
  rw [pick_eq_none]
  intro src
  cases src <;>
    simp [sourcePending, h.limit, h.sense, h.movecb, h.tempcb, h.reply, h.resumeMove, h.resumeAudio, h.autosleep, h.pong]

/-! ### What a pick leaves -/

/-- `q'` has no event that `q` has not: what a pick leaves, and what a discard leaves. -/
structure Reduced (c : Config) (q q' : Sources) : Prop where
  limit : ∀ a, q'.limitPending.getLsbD a = true → q.limitPending.getLsbD a = true
  sense : ∀ a, q'.sensePending.getLsbD a = true → q.sensePending.getLsbD a = true
  senseFlag : q'.senseFlag = q.senseFlag
  tempcb : ∀ a, q'.tempPending.getLsbD a = true → q.tempPending.getLsbD a = true
  reply : q'.replyPending = true → q.replyPending = true
  replyLen : q'.replyLen = q.replyLen
  pointer : q.tempRr < c.nTemps → q'.tempRr < c.nTemps

theorem Reduced.refl : Reduced c q q := 
  ⟨fun _ h => h, fun _ h => h, rfl, fun _ h => h, fun h => h, rfl, fun h => h⟩

theorem Reduced.trans {q' q'' : Sources} (h : Reduced c q q') (h' : Reduced c q' q'') : Reduced c q q'' :=
  ⟨fun a k => h.limit a (h'.limit a k), fun a k => h.sense a (h'.sense a k), h'.senseFlag.trans h.senseFlag,
    fun a k => h.tempcb a (h'.tempcb a k), fun k => h.reply (h'.reply k), h'.replyLen.trans h.replyLen, fun k => h'.pointer (h.pointer k)⟩

theorem pick_reduced (h : pick c q = some x) : Reduced c q x.rest := by
  rcases pick_cases h with h | h | h | h | h | h | h | h | h
  · obtain ⟨a, -, -, -, rfl⟩ := pickLimit_eq_some.mp h
    refine { Reduced.refl (c := c) (q := q) with limit := fun j hj => ?_ }
    simp only [clearBit_getLsbD, Bool.and_eq_true] at hj
    exact hj.1
  · obtain ⟨a, -, -, -, rfl⟩ := pickSense_eq_some.mp h
    refine { Reduced.refl (c := c) (q := q) with sense := fun j hj => ?_ }
    simp only [clearBit_getLsbD, Bool.and_eq_true] at hj
    exact hj.1
  · obtain ⟨-, rfl⟩ := pickMovecb_eq_some.mp h
    exact { Reduced.refl (c := c) (q := q) with }
  · obtain ⟨k, hk, -, -, rfl⟩ := pickTempcb_eq_some h
    refine { Reduced.refl (c := c) (q := q) with tempcb := fun j hj => ?_, pointer := fun _ => Nat.mod_lt _ (by omega) }
    simp only [clearBit_getLsbD, Bool.and_eq_true] at hj
    exact hj.1
  · obtain ⟨hp, rfl⟩ := pickReply_eq_some.mp h
    exact { Reduced.refl (c := c) (q := q) with reply := fun _ => hp }
  · obtain ⟨-, rfl⟩ := pickResumeMove_eq_some.mp h
    exact { Reduced.refl (c := c) (q := q) with }
  · obtain ⟨-, rfl⟩ := pickResumeAudio_eq_some.mp h
    exact { Reduced.refl (c := c) (q := q) with }
  · obtain ⟨-, rfl⟩ := pickAutosleep_eq_some.mp h
    exact { Reduced.refl (c := c) (q := q) with }
  · obtain ⟨a, -, -, -, rfl⟩ := pickPong_eq_some.mp h
    exact { Reduced.refl (c := c) (q := q) with }

/-- Sources without an event, within their maps, are quiet. -/
theorem quiet_of_none (none : ∀ src, ¬ sourcePending c q src)
    (axes : ∀ a, c.nAxes ≤ a → q.limitPending.getLsbD a = false ∧ q.sensePending.getLsbD a = false)
    (temps : ∀ ch, c.nTemps ≤ ch → q.tempPending.getLsbD ch = false) : Quiet q := by
  have h1 := none .limit
  have h2 := none .sense
  have h3 := none .movecb
  have h4 := none .tempcb
  have h5 := none .reply
  have h6 := none .resumeMove
  have h7 := none .resumeAudio
  have h8 := none .autosleep
  have h9 := none .pong
  simp only [sourcePending, not_exists, not_and, Bool.not_eq_true, not_not] at h1 h2 h3 h4 h5 h6 h7 h8 h9
  refine ⟨?_, ?_, h3, ?_, h5, h6, h7, h8, ?_⟩
  · apply BitVec.eq_of_getLsbD_eq
    intro i _
    by_cases hi : i < c.nAxes
    · simpa using h1 i hi
    · simpa using (axes i (by omega)).1
  · apply BitVec.eq_of_getLsbD_eq
    intro i _
    by_cases hi : i < c.nAxes
    · simpa using h2 i hi
    · simpa using (axes i (by omega)).2
  · apply BitVec.eq_of_getLsbD_eq
    intro i _
    by_cases hi : i < c.nTemps
    · simpa using h4 i hi
    · simpa using temps i (by omega)
  · apply BitVec.eq_of_getLsbD_eq
    intro i hi
    simpa using h9 i hi

/-! ### What discarding everything leaves -/

/-- With nothing pending, discarding changes nothing. -/
theorem discarded_of_none (h : pick c q = none) : Discarded c q q := by
  have none := pick_eq_none.mp h
  have h1 := none .limit
  have h2 := none .sense
  have h3 := none .movecb
  have h4 := none .tempcb
  have h5 := none .reply
  have h6 := none .resumeMove
  have h7 := none .resumeAudio
  have h8 := none .autosleep
  have h9 := none .pong
  simp only [sourcePending, not_exists, not_and, Bool.not_eq_true, not_not] at h1 h2 h3 h4 h5 h6 h7 h8 h9
  have below : ∀ {n : Nat} {m : BitMap}, (∀ a < n, m.getLsbD a = false) →
      ∀ j, m.getLsbD j = (m.getLsbD j && decide (n ≤ j)) := by
    intro n m hm j
    by_cases hj : n ≤ j
    · simp [hj]
    · simp [hm j (by omega)]
  refine ⟨below h1, below h2, rfl, h3, below h4, fun _ => rfl, fun k hk hp => ?_, h5, rfl, rfl, rfl, h6, h7, h8,
    by simp [h8], ?_⟩
  · rw [h4 _ (Nat.mod_lt _ (by omega))] at hp
    cases hp
  · apply BitVec.eq_of_getLsbD_eq
    intro i hi
    simpa using h9 i hi

/-- A bit below the bound that is cleared first is discarded all the same. -/
theorem clearBit_discarded {n a : Nat} (ha : a < n) (m : BitMap) (j : Nat) :
    ((clearBit m a).getLsbD j && decide (n ≤ j)) = (m.getLsbD j && decide (n ≤ j)) := by
  rw [clearBit_getLsbD]
  by_cases hj : n ≤ j
  · simp [show j ≠ a by omega]
  · simp [hj]

/-- Offset `i` from the pointer moved behind offset `k` is offset `k + 1 + i` from the old pointer (R256). -/
theorem scan_shift (rr n k i : Nat) : (((rr + k) % n + 1) % n + i) % n = (rr + (k + 1 + i)) % n := by
  rw [Nat.mod_add_mod, Nat.add_assoc, Nat.mod_add_mod]
  congr 1
  omega

/-- Serving the channel at offset `k` moves the pointer behind it: the scan from there meets what was pending
behind it in the old round, and nothing else (R256). -/
theorem scan_after_serving {n k : Nat} (rr : Nat) (m : BitMap) (hk : k < n)
    (hfirst : ∀ j < k, m.getLsbD ((rr + j) % n) = false) : ∀ i < n,
    (clearBit m ((rr + k) % n)).getLsbD ((((rr + k) % n + 1) % n + i) % n) =
      (m.getLsbD ((rr + (k + 1 + i)) % n) && decide (k + 1 + i < n)) := by
  -- Two offsets less than a round apart are different channels.
  have apart : ∀ i, k < i → i < k + n → (rr + i) % n ≠ (rr + k) % n := by
    intro i h1 h2 e
    have := (Nat.modEq_iff_dvd' (show rr + k ≤ rr + i by omega)).mp e.symm
    have := Nat.le_of_dvd (by omega) this
    omega
  intro i hi
  rw [scan_shift, clearBit_getLsbD]
  by_cases hw : k + 1 + i < n
  · simp [hw, apart (k + 1 + i) (by omega) (by omega)]
  · by_cases he : k + 1 + i = k + n
    · rw [he, ← Nat.add_assoc, Nat.add_mod_right]
      simp
    · have hj := hfirst (k + 1 + i - n) (by omega)
      have e : (rr + (k + 1 + i)) % n = (rr + (k + 1 + i - n)) % n := by
        rw [← Nat.add_mod_right (rr + (k + 1 + i - n))]
        congr 1
        omega
      simp [e, hj]

/-- Discarding a picked event and then the rest is discarding everything (R262, R274). -/
theorem Discarded.of_pick {q' : Sources} (h : pick c q = some x) (hd : Discarded c x.rest q') : Discarded c q q' := by
  rcases pick_cases h with h | h | h | h | h | h | h | h | h
  · obtain ⟨a, ha, -, -, rfl⟩ := pickLimit_eq_some.mp h
    exact { hd with limit := fun j => (hd.limit j).trans (clearBit_discarded ha _ j) }
  · obtain ⟨a, ha, -, -, rfl⟩ := pickSense_eq_some.mp h
    exact { hd with sense := fun j => (hd.sense j).trans (clearBit_discarded ha _ j) }
  · obtain ⟨-, rfl⟩ := pickMovecb_eq_some.mp h
    exact { hd with }
  · obtain ⟨k, hk, hset, hfirst, rfl⟩ := pickTempcb_eq_some h
    have hch : (q.tempRr + k) % c.nTemps < c.nTemps := Nat.mod_lt _ (by omega)
    refine { hd with
      tempcb := fun j => (hd.tempcb j).trans (clearBit_discarded hch _ j)
      pointer_kept := fun hnone => by rw [hnone _ hch] at hset; cases hset
      pointer_moved := fun l hl hlset hlast => ?_ }
    have left := scan_after_serving q.tempRr q.tempPending hk hfirst
    by_cases hlk : l = k
    · subst hlk
      refine hd.pointer_kept fun ch hc => ?_
      obtain ⟨i, hi, rfl⟩ : ∃ i < c.nTemps, (((q.tempRr + l) % c.nTemps + 1) % c.nTemps + i) % c.nTemps = ch := by
        have hr := Nat.mod_lt ((q.tempRr + l) % c.nTemps + 1) (show 0 < c.nTemps by omega)
        generalize ((q.tempRr + l) % c.nTemps + 1) % c.nTemps = r at hr
        by_cases hrc : r ≤ ch
        · exact ⟨ch - r, by omega, by rw [Nat.add_sub_cancel' hrc, Nat.mod_eq_of_lt hc]⟩
        · exact ⟨ch + c.nTemps - r, by omega,
            by rw [Nat.add_sub_cancel' (by omega), Nat.add_mod_right, Nat.mod_eq_of_lt hc]⟩
      show (clearBit q.tempPending _).getLsbD _ = false
      rw [left i hi]
      by_cases hw : l + 1 + i < c.nTemps
      · simp [hlast _ hw (by omega)]
      · simp [hw]
    · have hkl : k < l := by
        by_contra hn
        rw [hfirst l (by omega)] at hlset
        cases hlset
      have he : k + 1 + (l - k - 1) = l := by omega
      refine (hd.pointer_moved (l - k - 1) (by omega) ?_ fun j hj hlt => ?_).trans ?_
      · refine (left (l - k - 1) (by omega)).trans ?_
        rw [he, hlset]
        simp [hl]
      · refine (left j hj).trans ?_
        by_cases hw : k + 1 + j < c.nTemps
        · simp [hlast _ hw (by omega)]
        · simp [hw]
      · show ((((q.tempRr + k) % c.nTemps + 1) % c.nTemps + (l - k - 1)) % c.nTemps + 1) % c.nTemps = _
        rw [scan_shift, he]
  · obtain ⟨-, rfl⟩ := pickReply_eq_some.mp h
    exact { hd with }
  · obtain ⟨-, rfl⟩ := pickResumeMove_eq_some.mp h
    exact { hd with }
  · obtain ⟨-, rfl⟩ := pickResumeAudio_eq_some.mp h
    exact { hd with }
  · obtain ⟨hp, rfl⟩ := pickAutosleep_eq_some.mp h
    exact { hd with autosleepMask := by rw [hp]; simpa using hd.autosleepMask }
  · obtain ⟨a, -, -, -, rfl⟩ := pickPong_eq_some.mp h
    exact { hd with }

/-! ### The bodies -/

/-- A body that can be framed: its length byte is its length and is legal (R119, R301). -/
def Frameable (body : List Byte) : Prop :=
  ∃ op payload, body = frameBody false op payload ∧ legalLen (2 + payload.length) = true

theorem frameable_event (op : BitVec 7) (a : Byte) : Frameable (eventBody false op a) := ⟨op, [a], rfl, rfl⟩

/-- Every body that is picked can be framed, if the queued reply can (R114). -/
theorem pick_frameable (hr : q.replyPending = true → legalLen (2 + q.replyLen.toNat) = true)
    (h : pick c q = some x) : Frameable x.body := by
  rcases pick_cases h with h | h | h | h | h | h | h | h | h
  · obtain ⟨a, -, -, -, rfl⟩ := pickLimit_eq_some.mp h
    exact frameable_event _ _
  · obtain ⟨a, -, -, -, rfl⟩ := pickSense_eq_some.mp h
    exact frameable_event _ _
  · obtain ⟨-, rfl⟩ := pickMovecb_eq_some.mp h
    exact frameable_event _ _
  · obtain ⟨k, hk, -, -, rfl⟩ := pickTempcb_eq_some h
    exact frameable_event _ _
  · obtain ⟨hp, rfl⟩ := pickReply_eq_some.mp h
    exact ⟨_, _, rfl, by simpa using hr hp⟩
  · obtain ⟨-, rfl⟩ := pickResumeMove_eq_some.mp h
    exact frameable_event _ _
  · obtain ⟨-, rfl⟩ := pickResumeAudio_eq_some.mp h
    exact frameable_event _ _
  · obtain ⟨-, rfl⟩ := pickAutosleep_eq_some.mp h
    exact frameable_event _ _
  · obtain ⟨a, -, -, -, rfl⟩ := pickPong_eq_some.mp h
    exact frameable_event _ _

end Sys2Proof.Machine
end

