-- ==== Sys2Proof/Laws/Outbound.lean ====
section
/-!
SUPPORT. The laws of the outbound path: what `PREPARE` leaves in the frame buffer, what `SEND` and
`RETRANSMIT` do, and everything `MUX` can do.
-/

namespace Sys2Proof.Machine

/-! ### Bodies -/

@[simp] theorem frameBody_length (s : Bool) (op : BitVec 7) (payload : List Byte) :
    (frameBody s op payload).length = 2 + payload.length := by simp [frameBody]; omega

theorem frameBody_lengthByte {payload : List Byte} (h : legalLen (2 + payload.length) = true) :
    (BitVec.ofNat 8 (2 + payload.length)).toNat = 2 + payload.length := by
  have := legalLen_iff.mp h
  simp only [BitVec.toNat_ofNat]
  omega

theorem eventBody_eq (s : Bool) (op : BitVec 7) (a : Byte) : eventBody s op a = frameBody s op [a] := rfl

theorem wireFrame_frameBody (c : Config) (seq s : Bool) (op : BitVec 7) (payload : List Byte) :
    wireFrame c seq (frameBody s op payload) = frameOf c.matrix (frameBody seq op payload) := by
  simp [wireFrame, frameBody]

/-- The frame on the wire is well formed and begins with the body (R100). -/
theorem frameOf_frameBody (m : ParityMatrix) (s : Bool) (op : BitVec 7) (payload : List Byte)
    (h : legalLen (2 + payload.length) = true) :
    wellFormedFrame m (frameOf m (frameBody s op payload)) = true ∧
      (frameOf m (frameBody s op payload)).length = need (2 + payload.length) ∧
      (frameOf m (frameBody s op payload)).take (2 + payload.length) = frameBody s op payload := by
  have hL : legalLen (frameBody s op payload).length = true := by simpa using h
  obtain ⟨hlen, hbody, hchk⟩ := frameOf_spec m _ hL
  have h0 : (frameOf m (frameBody s op payload)).getD 0 0 = BitVec.ofNat 8 (2 + payload.length) := by
    rw [hbody 0 (by simp)]; rfl
  rw [frameBody_length] at hlen hchk hbody
  refine ⟨?_, hlen, ?_⟩
  · rw [wellFormedFrame_iff, h0, frameBody_lengthByte h]
    exact ⟨h, hlen, hchk⟩
  · have hn := need_bounds h
    apply List.ext_getElem
    · simp [hlen]; omega
    · intro i h1 h2
      have hi : i < 2 + payload.length := by simpa using h2
      have e := hbody i hi
      rw [List.getElem_take]
      simp only [List.getD, List.getElem?_eq_getElem h2,
        List.getElem?_eq_getElem (show i < (frameOf m (frameBody s op payload)).length by omega), Option.getD_some] at e
      exact e

/-- What `PREPARE` leaves in the frame buffer, once and for all: the frame of R100, and the old bytes beyond
it (R301). -/
theorem preparedBuf_spec (m : ParityMatrix) (seq s : Bool) (op : BitVec 7) (payload : List Byte) (buf : Vector Byte 170)
    (h : legalLen (2 + payload.length) = true) :
    (∀ i < need (2 + payload.length), bufRead (preparedBuf m seq (frameBody s op payload) buf) i =
      (frameOf m (frameBody seq op payload)).getD i 0) ∧
    ∀ i, need (2 + payload.length) ≤ i →
      bufRead (preparedBuf m seq (frameBody s op payload) buf) i = bufRead buf i := by
  have hl := legalLen_iff.mp h
  have hn := need_bounds h
  have hLen : (BitVec.ofNat 8 (2 + payload.length)).toNat = 2 + payload.length := frameBody_lengthByte h
  unfold preparedBuf
  extract_lets b1 b2
  have h1 : ∀ j, bufRead b1 j = if j < 2 + payload.length then (frameBody s op payload).getD j 0 else bufRead buf j := by
    intro j
    rw [bufRead_bufWriteSlice]
    simp only [frameBody_length, Nat.zero_le, true_and, Nat.zero_add, Nat.sub_zero]
    by_cases hj : j < 2 + payload.length
    · rw [if_pos ⟨hj, by omega⟩, if_pos hj]
    · rw [if_neg (by omega), if_neg hj]
  have h2 : ∀ j, bufRead b2 j = if j < 2 + payload.length then (frameBody seq op payload).getD j 0 else bufRead buf j := by
    intro j
    rw [bufRead_bufWrite]
    by_cases hj : j = 1
    · subst hj
      rw [if_pos ⟨rfl, by omega⟩, if_pos (by omega), h1, if_pos (by omega)]
      simp [frameBody]
    · rw [if_neg (by omega), h1]
      split
      · rcases j with _ | _ | j
        · rfl
        · omega
        · rfl
      · rfl
  have h20 : (bufRead b2 0).toNat = 2 + payload.length := by
    rw [h2, if_pos (by omega)]
    exact hLen
  obtain ⟨hout, hchk⟩ := stampChecks_spec m b2 (by rw [h20]; exact h) (by rw [h20]; omega)
  rw [h20] at hout hchk
  obtain ⟨-, fbody, fchk⟩ := frameOf_spec m (frameBody seq op payload) (by rw [frameBody_length]; exact h)
  rw [frameBody_length] at fbody fchk
  refine ⟨checked_unique h hchk fchk fun i hi => ?_, fun i hi => ?_⟩
  · rw [hout i (Or.inl hi), h2, if_pos hi, fbody i hi]
  · rw [hout i (Or.inr hi), h2, if_neg (by omega)]

/-- The frame buffer after `PREPARE` holds the frame on the wire. -/
theorem preparedBuf_overwrites (c : Config) (seq s : Bool) (op : BitVec 7) (payload : List Byte) (buf : Vector Byte 170)
    (h : legalLen (2 + payload.length) = true) :
    Overwrites (preparedBuf c.matrix seq (frameBody s op payload) buf) buf
      (wireFrame c seq (frameBody s op payload)) := by
  rw [wireFrame_frameBody]
  have hlen := (frameOf_frameBody c.matrix seq op payload h).2.1
  have hs := preparedBuf_spec c.matrix seq s op payload buf h
  exact ⟨fun i hi => hs.1 i (by omega), fun i hi => hs.2 i (by omega)⟩

theorem wireFrame_length {c : Config} {seq : Bool} {body : List Byte} (h : Frameable body) :
    (wireFrame c seq body).length = need (body.headD 0).toNat := by
  obtain ⟨op, payload, rfl, hl⟩ := h
  rw [wireFrame_frameBody, (frameOf_frameBody c.matrix seq op payload hl).2.1]
  show _ = need (BitVec.ofNat 8 (2 + payload.length)).toNat
  rw [frameBody_lengthByte hl]

theorem wireFrame_wellFormed {c : Config} {seq : Bool} {body : List Byte} (h : Frameable body) :
    wellFormedFrame c.matrix (wireFrame c seq body) = true := by
  obtain ⟨op, payload, rfl, hl⟩ := h
  rw [wireFrame_frameBody]
  exact (frameOf_frameBody c.matrix seq op payload hl).1

/-- The sequence bit of the frame on the wire (R302). -/
theorem wireFrame_seqBit {c : Config} {seq : Bool} {body : List Byte} (h : Frameable body) :
    seqBit ((wireFrame c seq body).getD 1 0) = seq := by
  obtain ⟨op, payload, rfl, hl⟩ := h
  rw [wireFrame_frameBody, (frameOf_spec c.matrix (frameBody seq op payload) (by simpa using hl)).2.1 1
    (by rw [frameBody_length]; omega)]
  simp [frameBody]

theorem wireFrame_head {c : Config} {seq : Bool} {body : List Byte} (h : Frameable body) :
    (wireFrame c seq body).getD 0 0 = body.headD 0 := by
  obtain ⟨op, payload, rfl, hl⟩ := h
  rw [wireFrame_frameBody, (frameOf_spec c.matrix (frameBody seq op payload) (by simpa using hl)).2.1 0 (by simp)]
  rfl

theorem wireFrame_bounds {c : Config} {seq : Bool} {body : List Byte} (h : Frameable body) :
    4 ≤ (wireFrame c seq body).length ∧ (wireFrame c seq body).length ≤ 170 := by
  obtain ⟨op, payload, rfl, hl⟩ := h
  rw [wireFrame_frameBody, (frameOf_frameBody c.matrix seq op payload hl).2.1]
  have := need_bounds hl
  omega

/-! ### PREPARE and SEND -/

/-- Writing a list from index 0 on overwrites just that much of a buffer (R16). -/
theorem overwrites_bufWriteSlice {n : Nat} (buf : Vector Byte n) {bytes : List Byte} (h : bytes.length ≤ n) :
    Overwrites (bufWriteSlice buf 0 bytes) buf bytes :=
  ⟨fun i hi => by rw [bufRead_bufWriteSlice, if_pos (by omega), Nat.sub_zero],
    fun i hi => by rw [bufRead_bufWriteSlice, if_neg (by omega)]⟩

/-- Writing the same list twice is writing it once. -/
theorem bufWriteSlice_twice {n : Nat} (buf : Vector Byte n) (bytes : List Byte) :
    bufWriteSlice (bufWriteSlice buf 0 bytes) 0 bytes = bufWriteSlice buf 0 bytes :=
  buf_ext fun i _ => by
    rw [bufRead_bufWriteSlice, bufRead_bufWriteSlice]
    split <;> rfl

/-- The first bytes of a buffer, as a list. -/
theorem bufSlice_eq_of_overwrites {buf old : Vector Byte 170} {f : List Byte} (h : Overwrites buf old f) :
    bufSlice buf 0 f.length = f := by
  apply List.ext_getElem
  · simp
  · intro i h1 h2
    have := h.1 i h2
    simpa [bufSlice, List.getD, h2] using this

/-- `PREPARE` and `SEND` together: the frame goes out and is kept, the link is busy, the time is recorded
(R301, R303). -/
theorem prepare_send (s : State) (body : List Byte) (now : Tick) (h : Frameable body) :
    ∃ buf, Overwrites buf s.snd.txBuf (wireFrame s.cfg s.snd.sendSequenceBit body) ∧
      (s.prepare body).send now = { s with
        snd := ⟨s.snd.sendSequenceBit, true, buf,
          BitVec.ofNat 8 (wireFrame s.cfg s.snd.sendSequenceBit body).length, sampled s.cfg now⟩
        out := { s.out with tx := s.out.tx ++ wireFrame s.cfg s.snd.sendSequenceBit body } } := by
  have hlen := wireFrame_length (c := s.cfg) (seq := s.snd.sendSequenceBit) h
  have hb := wireFrame_bounds (c := s.cfg) (seq := s.snd.sendSequenceBit) h
  have hf := h
  obtain ⟨op, payload, rfl, hl⟩ := hf
  have ho := preparedBuf_overwrites s.cfg s.snd.sendSequenceBit false op payload s.snd.txBuf hl
  refine ⟨_, ho, ?_⟩
  have hframe : (s.prepare (frameBody false op payload)).snd.frame =
      wireFrame s.cfg s.snd.sendSequenceBit (frameBody false op payload) := by
    rw [prepare_snd, ← bufSlice_eq_of_overwrites ho]
    unfold Sender.frame
    simp only [← hlen, BitVec.toNat_ofNat]
    rw [Nat.mod_eq_of_lt (by omega)]
  simp only [State.send, State.emit, hframe]
  simp only [State.prepare, ← hlen]

/-! ### MUX -/

/-- With a frame in flight `MUX` does nothing (R261). -/
theorem mux_busy {s : State} (now : Tick) (h : s.snd.outboundBusy = true) : s.mux now = s := by
  simp [State.mux, h]

/-- With nothing pending `MUX` does nothing (R262). -/
theorem mux_none {s : State} (now : Tick) (h : pick s.cfg s.src = none) : s.mux now = s := by
  simp [State.mux, State.muxLoop, h]

/-- On an initialized idle link `MUX` serves one event (R273). -/
theorem mux_some {s : State} (now : Tick) {x : Picked} (hi : s.initialized = true) (hb : s.snd.outboundBusy = false)
    (h : pick s.cfg s.src = some x) : s.mux now = ((s.withSources x.rest).prepare x.body).send now := by
  simp [State.mux, hb, State.muxLoop, h, hi, State.serve]

/-! #### The number of pending events -/

/-- Each pick removes one pending event (R275). -/
theorem pendingUnits_pick {c : Config} {q : Sources} {x : Picked} (h : pick c q = some x) :
    pendingUnits c q = pendingUnits c x.rest + 1 := by
  rcases pick_cases h with h | h | h | h | h | h | h | h | h
  · obtain ⟨a, ha, hs, -, rfl⟩ := pickLimit_eq_some.mp h
    simp only [pendingUnits, countSet_clearBit _ ha hs]; omega
  · obtain ⟨a, ha, hs, -, rfl⟩ := pickSense_eq_some.mp h
    simp only [pendingUnits, countSet_clearBit _ ha hs]; omega
  · obtain ⟨hs, rfl⟩ := pickMovecb_eq_some.mp h
    simp only [pendingUnits, if_neg hs, if_true]; omega
  · obtain ⟨k, hk, hs, -, rfl⟩ := pickTempcb_eq_some h
    simp only [pendingUnits, countSet_clearBit _ (Nat.mod_lt (q.tempRr + k) (show 0 < c.nTemps by omega)) hs]; omega
  · obtain ⟨hs, rfl⟩ := pickReply_eq_some.mp h
    simp only [pendingUnits, hs, Bool.toNat_true, Bool.toNat_false]; omega
  · obtain ⟨hs, rfl⟩ := pickResumeMove_eq_some.mp h
    simp only [pendingUnits, hs, Bool.toNat_true, Bool.toNat_false]; omega
  · obtain ⟨hs, rfl⟩ := pickResumeAudio_eq_some.mp h
    simp only [pendingUnits, hs, Bool.toNat_true, Bool.toNat_false]; omega
  · obtain ⟨hs, rfl⟩ := pickAutosleep_eq_some.mp h
    simp only [pendingUnits, hs, Bool.toNat_true, Bool.toNat_false]; omega
  · obtain ⟨a, ha, hs, -, rfl⟩ := pickPong_eq_some.mp h
    simp only [pendingUnits, countSet_clearBit _ ha hs]; omega

/-- The loop of `MUX` on an uninitialized core: it discards everything pending and says so (R274). -/
theorem muxLoop_uninit (now : Tick) {n : Nat} : ∀ {s : State}, s.initialized = false →
    pendingUnits s.cfg s.src = n → ∀ bound, n < bound →
    ∃ q, pick s.cfg q = none ∧ Reduced s.cfg s.src q ∧ Discarded s.cfg s.src q ∧ s.muxLoop now bound = { s with
        src := q
        out := { s.out with ev := s.out.ev ++ List.replicate n .droppedUninit } } := by
  induction n with
  | zero =>
    intro s hi hn bound hb
    obtain ⟨b, rfl⟩ : ∃ b, bound = b + 1 := ⟨bound - 1, by omega⟩
    have hnone : pick s.cfg s.src = none := by
      cases hp : pick s.cfg s.src with
      | none => rfl
      | some x => have := pendingUnits_pick hp; omega
    refine ⟨s.src, hnone, Reduced.refl, discarded_of_none hnone, ?_⟩
    simp [State.muxLoop, hnone]
  | succ n ih =>
    intro s hi hn bound hb
    obtain ⟨b, rfl⟩ : ∃ b, bound = b + 1 := ⟨bound - 1, by omega⟩
    cases hp : pick s.cfg s.src with
    | none =>
      exfalso
      have := pick_eq_none.mp hp
      have l := this .limit
      have se := this .sense
      have m := this .movecb
      have te := this .tempcb
      have r := this .reply
      have rm := this .resumeMove
      have ra := this .resumeAudio
      have au := this .autosleep
      have po := this .pong
      simp only [sourcePending, not_exists, not_and, Bool.not_eq_true, not_not] at l se m te r rm ra au po
      have e1 := (countSet_eq_zero _).mpr l
      have e2 := (countSet_eq_zero _).mpr se
      have e3 := (countSet_eq_zero _).mpr te
      have e4 := (countSet_eq_zero _).mpr po
      simp only [pendingUnits, e1, e2, e3, e4, m, r, rm, ra, au, if_true, Bool.toNat_false] at hn
      omega
    | some x =>
      have hx := pendingUnits_pick hp
      have hserve : s.serve x now = (s.withSources x.rest).signal .droppedUninit := by
        simp [State.serve, hi]
      obtain ⟨q, hq, hr, hd, he⟩ := ih (s := (s.withSources x.rest).signal .droppedUninit) (by simpa using hi)
        (by simp; omega) b (by omega)
      refine ⟨q, by simpa using hq, (pick_reduced hp).trans (by simpa using hr),
        Discarded.of_pick hp (by simpa using hd), ?_⟩
      simp only [State.muxLoop, hp, hi, Bool.false_eq_true, if_false, hserve, he]
      simp [State.withSources, State.signal, List.replicate_succ, hi]

/-- On an uninitialized idle link `MUX` discards everything pending (R274). -/
theorem mux_uninit {s : State} (now : Tick) (hi : s.initialized = false) (hb : s.snd.outboundBusy = false) :
    ∃ q, pick s.cfg q = none ∧ Reduced s.cfg s.src q ∧ s.mux now = { s with
      src := q
      out := { s.out with ev := s.out.ev ++ List.replicate (pendingUnits s.cfg s.src) .droppedUninit } } := by
  simp only [State.mux, hb, Bool.false_eq_true, if_false]
  obtain ⟨q, hq, hr, -, he⟩ := muxLoop_uninit now hi rfl _ (Nat.lt_succ_self _)
  exact ⟨q, hq, hr, he⟩

/-- Everything `MUX` can do: nothing; serve one event; discard all events. -/
theorem mux_cases (s : State) (now : Tick) :
    (s.mux now = s ∧ (s.snd.outboundBusy = false → pick s.cfg s.src = none)) ∨
    (∃ x, s.initialized = true ∧ s.snd.outboundBusy = false ∧ pick s.cfg s.src = some x ∧
      s.mux now = ((s.withSources x.rest).prepare x.body).send now) ∨
    (s.initialized = false ∧ s.snd.outboundBusy = false ∧ ∃ q, pick s.cfg q = none ∧ Reduced s.cfg s.src q ∧
      s.mux now = { s with
        src := q
        out := { s.out with ev := s.out.ev ++ List.replicate (pendingUnits s.cfg s.src) .droppedUninit } }) := by
  by_cases hb : s.snd.outboundBusy = true
  · exact Or.inl ⟨mux_busy now hb, by simp [hb]⟩
  · rw [Bool.not_eq_true] at hb
    by_cases hi : s.initialized = true
    · cases hp : pick s.cfg s.src with
      | none => exact Or.inl ⟨mux_none now hp, fun _ => rfl⟩
      | some x => exact Or.inr (Or.inl ⟨x, hi, hb, rfl, mux_some now hi hb hp⟩)
    · rw [Bool.not_eq_true] at hi
      exact Or.inr (Or.inr ⟨hi, hb, mux_uninit now hi hb⟩)

/-- `POST` is `MUX`: both do nothing on a busy link (R260, R261). -/
theorem post_eq_mux (s : State) (now : Tick) : s.post now = s.mux now := by
  simp only [State.post, State.mux]
  split <;> rfl

end Sys2Proof.Machine
end

