-- ==== Sys2Proof/Laws/Inbound.lean ====
section
/-!
SUPPORT. The laws of the inbound path: the two timers, the classes of a first byte, the byte inside a frame,
and everything the completion of a frame can do.
-/

namespace Sys2Proof.Machine

/-! ### The control codes (R107) -/

namespace Codes

variable {c : Config} (h : c.Legal)
include h

theorem ack1_ne_ack0 : c.codeAck1 ≠ c.codeAck0 := by
  have := h.codes_distinct
  simp only [List.nodup_cons, List.mem_cons, not_or] at this
  exact fun e => this.1.1 e.symm

theorem nack_ne : c.codeNack ≠ c.codeAck0 ∧ c.codeNack ≠ c.codeAck1 := by
  have := h.codes_distinct
  simp only [List.nodup_cons, List.mem_cons, not_or] at this
  exact ⟨fun e => this.1.2.1 e.symm, fun e => this.2.1.1 e.symm⟩

theorem id_ne : c.codeId ≠ c.codeAck0 ∧ c.codeId ≠ c.codeAck1 ∧ c.codeId ≠ c.codeNack := by
  have := h.codes_distinct
  simp only [List.nodup_cons, List.mem_cons, not_or] at this
  exact ⟨fun e => this.1.2.2.1 e.symm, fun e => this.2.1.2.1 e.symm, fun e => this.2.2.1.1 e.symm⟩

/-- No control code has bit 7 clear. -/
theorem ne_of_low {b : Byte} (hb : b.getLsbD 7 = false) :
    b ≠ c.codeAck0 ∧ b ≠ c.codeAck1 ∧ b ≠ c.codeNack ∧ b ≠ c.codeId := by
  obtain ⟨h0, h1, h2, h3⟩ := h.codes_high
  refine ⟨?_, ?_, ?_, ?_⟩ <;> rintro rfl <;> simp_all

end Codes

/-- A byte of legal length has bit 7 clear (R101). -/
theorem low_of_legal {b : Byte} (h : legalLength b = true) : b.getLsbD 7 = false := by
  revert b
  decide +kernel

/-! ### The timers -/

theorem watchdog_stalled {s : State} {now : Tick} (h : s.stalled now = true) :
    s.watchdog now = (s.setAccumulated 0).signal .idleTimeout := by simp [State.watchdog, h]

theorem watchdog_fresh {s : State} {now : Tick} (h : s.stalled now = false) : s.watchdog now = s := by
  simp [State.watchdog, h]

/-- An idle assembler is never stalled (R331). -/
theorem stalled_of_idle {s : State} (now : Tick) (h : s.asm.bytesAccumulated = 0) : s.stalled now = false := by
  simp [State.stalled, h]

theorem stalled_iff {s : State} {now : Tick} : s.stalled now = true ↔
    s.asm.bytesAccumulated ≠ 0 ∧ s.cfg.tIdle < elapsed s.cfg now s.asm.lastByteTime := by
  simp [State.stalled]

theorem overdue_iff {s : State} {now : Tick} : s.overdue now = true ↔
    s.snd.outboundBusy = true ∧ s.cfg.tAck < elapsed s.cfg now s.snd.sendTime := by
  simp [State.overdue]

theorem ackTimeoutCheck_overdue {s : State} {now : Tick} (h : s.overdue now = true) :
    s.ackTimeoutCheck now = (s.signal .ackTimeout).retransmit now := by simp [State.ackTimeoutCheck, h]

theorem ackTimeoutCheck_fresh {s : State} {now : Tick} (h : s.overdue now = false) : s.ackTimeoutCheck now = s := by
  simp [State.ackTimeoutCheck, h]

/-! ### The operation RX -/

theorem rxByte_idle {s : State} (b : Byte) (now : Tick) (h : s.asm.bytesAccumulated = 0) :
    s.rxByte b now = s.firstByte b now := by
  simp [State.rxByte, watchdog_fresh (stalled_of_idle now h), h]

theorem rxByte_stalled {s : State} (b : Byte) (now : Tick) (h : s.stalled now = true) :
    s.rxByte b now = ((s.setAccumulated 0).signal .idleTimeout).firstByte b now := by
  simp [State.rxByte, watchdog_stalled h]

theorem rxByte_data {s : State} (b : Byte) (now : Tick) (h : s.stalled now = false)
    (hn : s.asm.bytesAccumulated ≠ 0) : s.rxByte b now = s.dataByte b now := by
  simp only [State.rxByte, watchdog_fresh h]
  exact if_neg hn

/-! ### A first byte -/

/-- Everything a first byte can do (R182). -/
theorem firstByte_cases (s : State) (b : Byte) (now : Tick) :
    (∃ p, b = ackCode s.cfg p ∧ s.firstByte b now = s.ctrlAck p now) ∨
    (b = s.cfg.codeNack ∧ s.firstByte b now = s.ctrlNack now) ∨
    (b = s.cfg.codeId ∧ s.firstByte b now = s.ctrlIdreq) ∨
    (legalLength b = false ∧ s.firstByte b now = s.reject .malformedLength) ∨
    (legalLength b = true ∧ s.firstByte b now = s.storeRx 0 b 1 now) := by
  unfold State.firstByte
  by_cases h0 : b = s.cfg.codeAck0
  · exact Or.inl ⟨false, by simpa [ackCode] using h0, by rw [if_pos h0]⟩
  by_cases h1 : b = s.cfg.codeAck1
  · exact Or.inl ⟨true, by simpa [ackCode] using h1, by rw [if_neg h0, if_pos h1]⟩
  by_cases h2 : b = s.cfg.codeNack
  · exact Or.inr (Or.inl ⟨h2, by rw [if_neg h0, if_neg h1, if_pos h2]⟩)
  by_cases h3 : b = s.cfg.codeId
  · exact Or.inr (Or.inr (Or.inl ⟨h3, by rw [if_neg h0, if_neg h1, if_neg h2, if_pos h3]⟩))
  rw [if_neg h0, if_neg h1, if_neg h2, if_neg h3]
  cases h4 : legalLength b
  · exact Or.inr (Or.inr (Or.inr (Or.inl ⟨rfl, rfl⟩)))
  · exact Or.inr (Or.inr (Or.inr (Or.inr ⟨rfl, rfl⟩)))

theorem firstByte_ack {s : State} (hc : s.cfg.Legal) (p : Bool) (now : Tick) :
    s.firstByte (ackCode s.cfg p) now = s.ctrlAck p now := by
  cases p
  · simp [State.firstByte, ackCode]
  · simp [State.firstByte, ackCode, Codes.ack1_ne_ack0 hc]

theorem firstByte_nack {s : State} (hc : s.cfg.Legal) (now : Tick) :
    s.firstByte s.cfg.codeNack now = s.ctrlNack now := by
  simp [State.firstByte, Codes.nack_ne hc]

theorem firstByte_id {s : State} (hc : s.cfg.Legal) (now : Tick) :
    s.firstByte s.cfg.codeId now = s.ctrlIdreq := by
  simp [State.firstByte, Codes.id_ne hc]

theorem firstByte_illegal {s : State} {b : Byte} (now : Tick) (hc : isControl s.cfg b = false)
    (hl : legalLength b = false) : s.firstByte b now = s.reject .malformedLength := by
  simp only [isControl, Bool.or_eq_false_iff, beq_eq_false_iff_ne] at hc
  simp [State.firstByte, hc, hl, State.badLength]

theorem firstByte_legal {s : State} {b : Byte} (hc : s.cfg.Legal) (now : Tick) (hl : legalLength b = true) :
    s.firstByte b now = s.storeRx 0 b 1 now := by
  obtain ⟨h0, h1, h2, h3⟩ := Codes.ne_of_low hc (low_of_legal hl)
  simp [State.firstByte, h0, h1, h2, h3, hl, State.startFrame]

/-! ### Control bytes -/

/-- The link after an accepted ACK, before the multiplexer runs (R231). -/
def State.freed (s : State) : State :=
  { s with snd := { s.snd with outboundBusy := false, sendSequenceBit := !s.snd.sendSequenceBit } }

theorem ctrlAck_accepted {s : State} {p : Bool} (now : Tick) (h : s.snd.outboundBusy = true ∧ p = s.snd.sendSequenceBit) :
    s.ctrlAck p now = s.freed.mux now := by
  unfold State.ctrlAck
  rw [if_pos h]
  rfl

theorem ctrlAck_stale {s : State} {p : Bool} (now : Tick)
    (h : ¬ (s.snd.outboundBusy = true ∧ p = s.snd.sendSequenceBit)) : s.ctrlAck p now = s.signal .staleAck := by
  unfold State.ctrlAck
  rw [if_neg h]

theorem ctrlNack_busy {s : State} (now : Tick) (h : s.snd.outboundBusy = true) :
    s.ctrlNack now = s.retransmit now := by simp [State.ctrlNack, h]

theorem ctrlNack_stale {s : State} (now : Tick) (h : s.snd.outboundBusy = false) :
    s.ctrlNack now = s.signal .staleNack := by simp [State.ctrlNack, h]

/-! ### A byte inside a frame -/

/-- The state after a byte is stored inside a frame (R185). -/
def State.stored (s : State) (b : Byte) (now : Tick) : State :=
  s.storeRx s.asm.bytesAccumulated.toNat b (s.asm.bytesAccumulated + 1) now

theorem dataByte_more {s : State} {b : Byte} {now : Tick}
    (h : (s.stored b now).asm.bytesAccumulated.toNat ≠ need (bufRead (s.stored b now).asm.rxBuf 0).toNat) :
    s.dataByte b now = s.stored b now := if_neg h

theorem dataByte_last {s : State} {b : Byte} {now : Tick}
    (h : (s.stored b now).asm.bytesAccumulated.toNat = need (bufRead (s.stored b now).asm.rxBuf 0).toNat) :
    s.dataByte b now = (s.stored b now).complete := if_pos h

/-- Inside a frame the length byte stays. -/
theorem stored_lengthByte {s : State} (b : Byte) (now : Tick) (h : s.asm.bytesAccumulated ≠ 0) :
    bufRead (s.stored b now).asm.rxBuf 0 = bufRead s.asm.rxBuf 0 := by
  have h' : s.asm.bytesAccumulated.toNat ≠ 0 := fun e => h (BitVec.eq_of_toNat_eq e)
  exact bufRead_bufWrite_ne _ _ (Ne.symm h')

/-- The count inside a legal frame does not wrap (R34). -/
theorem stored_count {s : State} (b : Byte) (now : Tick) (hi : AssemblerInv s) (h : s.asm.bytesAccumulated ≠ 0) :
    (s.stored b now).asm.bytesAccumulated.toNat = s.asm.bytesAccumulated.toNat + 1 := by
  obtain ⟨hl, hn⟩ := hi h
  have := need_bounds hl
  show (s.asm.bytesAccumulated + 1).toNat = _
  rw [BitVec.toNat_add]
  simp only [BitVec.ofNat_eq_ofNat, BitVec.toNat_ofNat, Nat.reducePow, Nat.reduceMod]
  omega

/-! ### Completion -/

/-- Everything the completion of a frame can do (R186 to R188, R211 to R213). -/
theorem complete_cases (s : State) :
    (legalLength (bufRead s.asm.rxBuf 0) = false ∧ s.complete = (s.setAccumulated 0).reject .malformedLength) ∨
    (legalLength (bufRead s.asm.rxBuf 0) = true ∧ verifyFrame s.cfg.matrix s.asm.rxBuf = false ∧
      s.complete = (s.setAccumulated 0).reject .checksumMismatch) ∨
    (legalLength (bufRead s.asm.rxBuf 0) = true ∧ verifyFrame s.cfg.matrix s.asm.rxBuf = true ∧
      seqBit (bufRead s.asm.rxBuf 1) ≠ s.receiveSequenceBit ∧
      s.complete = (s.setAccumulated 0).duplicate (seqBit (bufRead s.asm.rxBuf 1))) ∨
    (legalLength (bufRead s.asm.rxBuf 0) = true ∧ verifyFrame s.cfg.matrix s.asm.rxBuf = true ∧
      seqBit (bufRead s.asm.rxBuf 1) = s.receiveSequenceBit ∧
      s.complete = (s.setAccumulated 0).accept (seqBit (bufRead s.asm.rxBuf 1))) := by
  unfold State.complete State.sequence
  simp only [setAccumulated_asm, setAccumulated_cfg, setAccumulated_receiveSequenceBit]
  by_cases hl : legalLength (bufRead s.asm.rxBuf 0) = true
  · by_cases hv : verifyFrame s.cfg.matrix s.asm.rxBuf = true
    · by_cases hq : seqBit (bufRead s.asm.rxBuf 1) = s.receiveSequenceBit
      · exact Or.inr (Or.inr (Or.inr ⟨hl, hv, hq, by simp [hl, hv, hq]⟩))
      · exact Or.inr (Or.inr (Or.inl ⟨hl, hv, hq, by simp [hl, hv, hq]⟩))
    · rw [Bool.not_eq_true] at hv
      exact Or.inr (Or.inl ⟨hl, hv, by simp [hl, hv]⟩)
  · rw [Bool.not_eq_true] at hl
    exact Or.inl ⟨hl, by simp [hl]⟩

end Sys2Proof.Machine
end

