-- ==== Sys2Proof/Laws/Decode.lean ====
section
/-!
SUPPORT. The laws of decoding: time fields, the class of a first byte, taking a frame apart.
-/

namespace Sys2Proof.Machine

/-! ### Time fields -/

theorem timeField_of_ok {c : Config} {now : Tick} (h : timeOk c now = true) : timeField c now = now := by
  simp only [timeOk, decide_eq_true_eq] at h
  exact Nat.mod_eq_of_lt h

/-! ### First bytes -/

theorem classify_ack0 (c : Config) : classify c c.codeAck0 = .ack0 := by simp [classify]

theorem classify_ack1 {c : Config} (h : c.Legal) : classify c c.codeAck1 = .ack1 := by
  simp [classify, Codes.ack1_ne_ack0 h]

theorem classify_nack {c : Config} (h : c.Legal) : classify c c.codeNack = .nack := by
  simp [classify, Codes.nack_ne h]

theorem classify_idreq {c : Config} (h : c.Legal) : classify c c.codeId = .idreq := by
  simp [classify, Codes.id_ne h]

/-- A byte with bit 7 clear is classified by its value alone (R110). -/
theorem classify_low {c : Config} (h : c.Legal) {b : Byte} (hb : b.getLsbD 7 = false) :
    classify c b = if b.toNat ≤ 1 then .badlen01 else if b = 2 then .badlen2 else if b = 4 then .badlen4 else .len := by
  obtain ⟨h0, h1, h2, h3⟩ := Codes.ne_of_low h hb
  unfold classify
  rw [if_neg h0, if_neg h1, if_neg h2, if_neg h3, hb]
  simp

theorem classify_high {c : Config} {b : Byte} (hc : isControl c b = false) (hb : b.getLsbD 7 = true) :
    classify c b = .badlenHi := by
  simp only [isControl, Bool.or_eq_false_iff, beq_eq_false_iff_ne] at hc
  have h1 : ¬ b.toNat ≤ 1 ∧ b ≠ 2 ∧ b ≠ 4 := by
    clear hc
    revert b
    decide +kernel
  obtain ⟨⟨⟨h2, h3⟩, h4⟩, h5⟩ := hc
  unfold classify
  rw [if_neg h2, if_neg h3, if_neg h4, if_neg h5, if_neg h1.1, if_neg h1.2.1, if_neg h1.2.2, if_pos hb]

theorem classify_legal {c : Config} (h : c.Legal) {b : Byte} (hl : legalLength b = true) : classify c b = .len := by
  rw [classify_low h (low_of_legal hl)]
  obtain ⟨h3, -, h4⟩ := legalLength_iff.mp hl
  rw [if_neg (by omega), if_neg (by rintro rfl; simp at h3), if_neg (by rintro rfl; simp at h4)]

@[simp] theorem highByte_setWidth (v : BitVec 7) : (highByte v).setWidth 7 = v := by
  revert v
  decide +kernel

@[simp] theorem lengthByte_setWidth (v : BitVec 7) : (lengthByte v).setWidth 7 = v := by
  revert v
  decide +kernel

@[simp] theorem highByte_bit (v : BitVec 7) : (highByte v).getLsbD 7 = true := by
  revert v
  decide +kernel

@[simp] theorem lengthByte_bit (v : BitVec 7) : (lengthByte v).getLsbD 7 = false := by
  revert v
  decide +kernel

@[simp] theorem lowByte_bit (v : Bool) : (lowByte v).getLsbD 0 = v := by
  revert v
  decide

theorem classify_two {c : Config} (h : c.Legal) : classify c 2 = .badlen2 := by
  rw [classify_low h (by decide)]
  rfl

theorem classify_four {c : Config} (h : c.Legal) : classify c 4 = .badlen4 := by
  rw [classify_low h (by decide)]
  rfl

/-! ### Frames -/

theorem senseField (g : Bool) (a : BitVec 7) :
    (BitVec.ofBool g ++ a : Byte).getLsbD 7 = g ∧ (BitVec.ofBool g ++ a : Byte).setWidth 7 = a := by
  revert g a
  decide +kernel


/-- A well-formed frame is taken apart into the fields it was put together from (R100). -/
theorem splitFrame_frameBody {c : Config} {s : Bool} {op : BitVec 7} {payload checks : List Byte}
    (h : frameOk c s op payload checks = true) :
    splitFrame (frameBody s op payload ++ checks) = .ok ⟨s, op, payload, checks⟩ ∧
      checks.length = groups (2 + payload.length) ∧ legalLen (2 + payload.length) = true := by
  simp only [frameOk, Bool.and_eq_true, decide_eq_true_eq, wellFormedFrame_iff] at h
  obtain ⟨hp, hl, hlen, -⟩ := h
  have e0 : (frameBody s op payload ++ checks).getD 0 0 = BitVec.ofNat 8 (2 + payload.length) := rfl
  have hL : (BitVec.ofNat 8 (2 + payload.length)).toNat = 2 + payload.length := by
    simp only [BitVec.toNat_ofNat]; omega
  rw [e0, hL] at hl hlen
  rw [List.length_append, frameBody_length, need] at hlen
  refine ⟨?_, by omega, hl⟩
  simp only [frameBody, List.cons_append, splitFrame, legalLength, hL, hl, Bool.not_true, Bool.false_eq_true, if_false,
    List.length_append, need]
  rw [if_neg (by omega)]
  simp

theorem splitFrame_event {c : Config} {r : EventRow} {s : Bool} {op : BitVec 7} {a k : Byte}
    (h : eventOk c r s op a k = true) :
    splitFrame (eventBody s op a ++ [k]) = .ok ⟨s, op, [a], [k]⟩ ∧ eventRowOf c op a = some r := by
  simp only [eventOk, Bool.and_eq_true, beq_iff_eq] at h
  refine ⟨(splitFrame_frameBody (c := c) (payload := [a]) (checks := [k]) ?_).1, h.1⟩
  simpa [frameOk, eventBody_eq] using h.2

theorem decode_event {c : Config} {r : EventRow} {s : Bool} {op : BitVec 7} {a k : Byte} {now : Tick}
    (ht : timeOk c now = true) (h : eventOk c r s op a k = true) (idle : Bool) :
    decode c idle (eventUnit s op a k now) = .ok (decodeEvent c s op a k now) := by
  simp only [eventUnit, decode, (splitFrame_event h).1, Except.map, timeField_of_ok ht, decodeOutbound]

/-- The payload of the request of `REPLY` (R125). -/
theorem replyRequest_payload (op : Byte) (payload : List Byte) (now : Tick) (h : payload.length ≤ 125) :
    (replyRequest op payload now).payload = payload := by
  have hl : (BitVec.ofNat 7 payload.length).toNat = payload.length := by
    simp only [BitVec.toNat_ofNat]; omega
  apply List.ext_getElem
  · simp [Request.payload, replyRequest, hl]
  · intro i h1 h2
    simp only [Request.payload, replyRequest, bufSlice, List.getElem_map, List.getElem_range, Nat.zero_add]
    rw [bufRead_bufWriteSlice, if_pos (by omega)]
    simp [List.getD, h2]

end Sys2Proof.Machine
end

