-- ==== Sys2Proof/Laws/Notify.lean ====
section
/-!
SUPPORT. The laws of the notifications: the ranges of arguments, what is picked when one event is posted on a
quiet link, and what `POST` then does.
-/

namespace Sys2Proof.Machine

/-! ### Ranges of arguments -/

theorem axisOk_eq_true {c : Config} {n : Byte} : axisOk c n = true ↔ n.toNat < c.nAxes := by simp [axisOk]

theorem axisOk_eq_false {c : Config} {n : Byte} : axisOk c n = false ↔ c.nAxes ≤ n.toNat := by
  simp only [axisOk, decide_eq_false_iff_not, Nat.not_lt]

theorem channelOk_eq_true {c : Config} {n : Byte} : channelOk c n = true ↔ n.toNat < c.nTemps := by
  simp [channelOk]

theorem channelOk_eq_false {c : Config} {n : Byte} : channelOk c n = false ↔ c.nTemps ≤ n.toNat := by
  simp only [channelOk, decide_eq_false_iff_not, Nat.not_lt]

theorem kindOk_eq_false {n : Byte} : kindOk n = false ↔ 1 < n.toNat := by
  simp only [kindOk, decide_eq_false_iff_not, Nat.not_le]

theorem slotOk_eq_true {n : Byte} : slotOk n = true ↔ n.toNat ≤ 7 := by simp [slotOk]

theorem slotOk_eq_false {n : Byte} : slotOk n = false ↔ 7 < n.toNat := by
  simp only [slotOk, decide_eq_false_iff_not, Nat.not_le]

theorem saturatingSucc_eq (n : Byte) : saturatingSucc n = BitVec.ofNat 8 (min 255 (n.toNat + 1)) := by
  revert n
  decide +kernel

theorem opcode_roundTrip (op : BitVec 7) : (op.setWidth 8).setWidth 7 = op ∧ (op.setWidth 8).toNat ≤ 127 := by
  revert op
  decide +kernel

theorem replyOk_of {q : Sources} {op : BitVec 7} {payload : List Byte} (free : q.replyPending = false)
    (h : legalLen (2 + payload.length) = true) : replyOk q (op.setWidth 8) payload = true := by
  simp only [replyOk, free, h, Bool.not_false, Bool.and_self, Bool.true_and, decide_eq_true_eq]
  exact (opcode_roundTrip op).2

/-- A stored payload reads back (R255). -/
theorem bufSlice_bufWriteSlice {payload : List Byte} (h : payload.length ≤ 125) (b : Vector Byte 125) :
    bufSlice (bufWriteSlice b 0 payload) 0 (BitVec.ofNat 7 payload.length).toNat = payload := by
  have hl : (BitVec.ofNat 7 payload.length).toNat = payload.length := by
    simp only [BitVec.toNat_ofNat]; omega
  apply List.ext_getElem
  · simp [hl]
  · intro i h1 h2
    simp only [bufSlice, List.getElem_map, List.getElem_range, Nat.zero_add]
    rw [bufRead_bufWriteSlice, if_pos (by omega)]
    simp [List.getD, h2]

/-! ### One event on a quiet link -/

theorem clearBit_setBit {w : Nat} {m : BitVec w} (h : m = 0) (a : Nat) : clearBit (setBit m a) a = m := by
  rw [h]
  exact clearBit_setBit_zero a

theorem pickLimit_of_zero {c : Config} {q : Sources} (h : q.limitPending = 0) : pickLimit c q = none := by
  simp [pickLimit, firstSet_eq_none, h]

theorem pickSense_of_zero {c : Config} {q : Sources} (h : q.sensePending = 0) : pickSense c q = none := by
  simp [pickSense, firstSet_eq_none, h]

theorem pickMovecb_of_zero {c : Config} {q : Sources} (h : q.moveDoneCount = 0) : pickMovecb c q = none := by
  simp [pickMovecb, h]

theorem pickTempcb_of_zero {c : Config} {q : Sources} (h : q.tempPending = 0) : pickTempcb c q = none := by
  simp [pickTempcb, firstSetFrom_eq_none, h]

theorem pickReply_of_free {q : Sources} (h : q.replyPending = false) : pickReply q = none := by simp [pickReply, h]

theorem pickResumeMove_of_clear {c : Config} {q : Sources} (h : q.resumeMovePending = false) :
    pickResumeMove c q = none := by simp [pickResumeMove, h]

theorem pickResumeAudio_of_clear {c : Config} {q : Sources} (h : q.resumeAudioPending = false) :
    pickResumeAudio c q = none := by simp [pickResumeAudio, h]

theorem pickAutosleep_of_clear {c : Config} {q : Sources} (h : q.autosleepPending = false) :
    pickAutosleep c q = none := by simp [pickAutosleep, h]

section
variable {c : Config} {q : Sources} (hq : Quiet q)
include hq

theorem pick_one_limit {n : Byte} (h : n.toNat < c.nAxes) :
    pick c { q with limitPending := setBit q.limitPending n.toNat } = some ⟨.limit, eventBody false c.opLimit n, q⟩ := by
  refine pick_eq_some.mpr (Or.inl (pickLimit_eq_some.mpr ⟨n.toNat, h, ?_, fun j hj => ?_, ?_⟩))
  · rw [setBit_getLsbD]; simp [show n.toNat < 256 from n.isLt]
  · have : j ≠ n.toNat := by omega
    rw [setBit_getLsbD, hq.limit]; simp [this]
  · simp only [clearBit_setBit hq.limit, BitVec.ofNat_toNat, BitVec.setWidth_eq]

theorem pick_one_sense {n : Byte} {f : BitMap} (h : n.toNat < c.nAxes) :
    pick c { q with sensePending := setBit q.sensePending n.toNat, senseFlag := f } =
      some ⟨.sense, eventBody false c.opSense (senseByte (f.getLsbD n.toNat) n), { q with senseFlag := f }⟩ := by
  refine pick_eq_some.mpr (Or.inr ⟨pickLimit_of_zero hq.limit,
    Or.inl (pickSense_eq_some.mpr ⟨n.toNat, h, ?_, fun j hj => ?_, ?_⟩)⟩)
  · rw [setBit_getLsbD]; simp [show n.toNat < 256 from n.isLt]
  · have : j ≠ n.toNat := by omega
    rw [setBit_getLsbD, hq.sense]; simp [this]
  · simp only [clearBit_setBit hq.sense, BitVec.ofNat_toNat, BitVec.setWidth_eq]

theorem pick_one_movecb : pick c { q with moveDoneCount := saturatingSucc q.moveDoneCount } =
    some ⟨.movecb, eventBody false c.opMovecb 1, q⟩ := by
  refine pick_eq_some.mpr (Or.inr ⟨pickLimit_of_zero hq.limit, Or.inr ⟨pickSense_of_zero hq.sense,
    Or.inl (pickMovecb_eq_some.mpr ⟨?_, ?_⟩)⟩⟩)
  · show saturatingSucc q.moveDoneCount ≠ 0
    rw [hq.movecb]; decide
  · rw [show ({ q with moveDoneCount := 0 } : Sources) = q by rw [← hq.movecb], hq.movecb]; rfl

theorem pick_one_tempcb {n : Byte} (h : n.toNat < c.nTemps) :
    pick c { q with tempPending := setBit q.tempPending n.toNat } =
      some ⟨.tempcb, eventBody false c.opTempcb n, { q with tempRr := (n.toNat + 1) % c.nTemps }⟩ := by
  refine pick_eq_some.mpr (Or.inr ⟨pickLimit_of_zero hq.limit, Or.inr ⟨pickSense_of_zero hq.sense,
    Or.inr ⟨pickMovecb_of_zero hq.movecb, Or.inl ?_⟩⟩⟩)
  simp only [pickTempcb]
  rw [show firstSetFrom c.nTemps q.tempRr (setBit q.tempPending n.toNat) = some n.toNat by
    rw [hq.tempcb]; exact firstSetFrom_setBit_zero h n.isLt]
  simp only [Option.map_some, clearBit_setBit hq.tempcb, BitVec.ofNat_toNat, BitVec.setWidth_eq]

theorem pick_one_reply {op : BitVec 7} {payload : List Byte} {b : Vector Byte 125} (h : payload.length ≤ 125) :
    pick c { q with
        replyOp := op, replyLen := BitVec.ofNat 7 payload.length, replyBuf := bufWriteSlice b 0 payload,
        replyPending := true } =
      some ⟨.reply, frameBody false op payload,
        { q with replyOp := op, replyLen := BitVec.ofNat 7 payload.length, replyBuf := bufWriteSlice b 0 payload }⟩ := by
  refine pick_eq_some.mpr (Or.inr ⟨pickLimit_of_zero hq.limit, Or.inr ⟨pickSense_of_zero hq.sense,
    Or.inr ⟨pickMovecb_of_zero hq.movecb, Or.inr ⟨pickTempcb_of_zero hq.tempcb,
    Or.inl (pickReply_eq_some.mpr ⟨rfl, ?_⟩)⟩⟩⟩⟩)
  simp only [bufSlice_bufWriteSlice h]
  rw [← hq.reply]

theorem pick_one_resumeMove : pick c { q with resumeMovePending := true } =
    some ⟨.resumeMove, eventBody false c.opResume 0, q⟩ := by
  refine pick_eq_some.mpr (Or.inr ⟨pickLimit_of_zero hq.limit, Or.inr ⟨pickSense_of_zero hq.sense,
    Or.inr ⟨pickMovecb_of_zero hq.movecb, Or.inr ⟨pickTempcb_of_zero hq.tempcb,
    Or.inr ⟨pickReply_of_free hq.reply, Or.inl
    (pickResumeMove_eq_some.mpr ⟨rfl, ?_⟩)⟩⟩⟩⟩⟩)
  rw [← hq.resumeMove]

theorem pick_one_resumeAudio : pick c { q with resumeAudioPending := true } =
    some ⟨.resumeAudio, eventBody false c.opResume 1, q⟩ := by
  refine pick_eq_some.mpr (Or.inr ⟨pickLimit_of_zero hq.limit, Or.inr ⟨pickSense_of_zero hq.sense,
    Or.inr ⟨pickMovecb_of_zero hq.movecb, Or.inr ⟨pickTempcb_of_zero hq.tempcb,
    Or.inr ⟨pickReply_of_free hq.reply, Or.inr ⟨pickResumeMove_of_clear hq.resumeMove, Or.inl
    (pickResumeAudio_eq_some.mpr ⟨rfl, ?_⟩)⟩⟩⟩⟩⟩⟩)
  rw [← hq.resumeAudio]

theorem pick_one_autosleep {m : Byte} : pick c { q with autosleepMask := m, autosleepPending := true } =
    some ⟨.autosleep, eventBody false c.opAutosleep m, { q with autosleepMask := 0 }⟩ := by
  refine pick_eq_some.mpr (Or.inr ⟨pickLimit_of_zero hq.limit, Or.inr ⟨pickSense_of_zero hq.sense,
    Or.inr ⟨pickMovecb_of_zero hq.movecb, Or.inr ⟨pickTempcb_of_zero hq.tempcb,
    Or.inr ⟨pickReply_of_free hq.reply, Or.inr ⟨pickResumeMove_of_clear hq.resumeMove,
    Or.inr ⟨pickResumeAudio_of_clear hq.resumeAudio, Or.inl
    (pickAutosleep_eq_some.mpr ⟨rfl, ?_⟩)⟩⟩⟩⟩⟩⟩⟩)
  rw [← hq.autosleep]

theorem pick_one_pong {n : Byte} (h : n.toNat ≤ 7) :
    pick c { q with pingPending := setBit q.pingPending n.toNat } = some ⟨.pong, eventBody false c.opPong n, q⟩ := by
  have hn : n.toNat < 8 := by omega
  refine pick_eq_some.mpr (Or.inr ⟨pickLimit_of_zero hq.limit, Or.inr ⟨pickSense_of_zero hq.sense,
    Or.inr ⟨pickMovecb_of_zero hq.movecb, Or.inr ⟨pickTempcb_of_zero hq.tempcb,
    Or.inr ⟨pickReply_of_free hq.reply, Or.inr ⟨pickResumeMove_of_clear hq.resumeMove,
    Or.inr ⟨pickResumeAudio_of_clear hq.resumeAudio,
    Or.inr ⟨pickAutosleep_of_clear hq.autosleep, pickPong_eq_some.mpr ⟨n.toNat, hn, ?_, fun j hj => ?_, ?_⟩⟩⟩⟩⟩⟩⟩⟩⟩)
  · rw [setBit_getLsbD]; simp [hn]
  · have : j ≠ n.toNat := by omega
    rw [setBit_getLsbD, hq.pong]; simp [this]
  · simp only [clearBit_setBit hq.pong, BitVec.ofNat_toNat, BitVec.setWidth_eq]

end

/-! ### POST -/

theorem post_busy {s : State} (now : Tick) (h : s.snd.outboundBusy = true) : s.post now = s := by
  rw [post_eq_mux, mux_busy _ h]

/-- `POST` on an initialized idle link transmits the event that is picked (R260). -/
theorem post_ready {s : State} (now : Tick) {x : Picked} (hi : s.initialized = true)
    (hb : s.snd.outboundBusy = false) (hx : pick s.cfg s.src = some x) (hf : Frameable x.body) :
    ∃ buf, Overwrites buf s.snd.txBuf (wireFrame s.cfg s.snd.sendSequenceBit x.body) ∧
      s.post now = { s with
        src := x.rest
        snd := ⟨s.snd.sendSequenceBit, true, buf,
          BitVec.ofNat 8 (wireFrame s.cfg s.snd.sendSequenceBit x.body).length, sampled s.cfg now⟩
        out := { s.out with tx := s.out.tx ++ wireFrame s.cfg s.snd.sendSequenceBit x.body } } := by
  rw [post_eq_mux, mux_some now hi hb hx]
  exact prepare_send (s.withSources x.rest) x.body now hf

/-- `POST` on an uninitialized idle link with one event discards it (R274). -/
theorem post_unready {s : State} (now : Tick) {x : Picked} (hi : s.initialized = false)
    (hb : s.snd.outboundBusy = false) (hx : pick s.cfg s.src = some x) (hn : pick s.cfg x.rest = none) :
    s.post now = (s.withSources x.rest).signal .droppedUninit := by
  rw [post_eq_mux]
  simp [State.mux, hb, pendingUnits_pick hx, State.muxLoop, hx, hi, State.serve, hn]

end Sys2Proof.Machine
end

