-- ==== Sys2Proof/Laws/Exec.lean ====
section
/-!
SUPPORT. Everything one instruction can do, said once: the cases of `exec`, for every instruction that is one
operation or one inbound byte. What holds of every operation is proved by going through these cases.
-/

namespace Sys2Proof.Machine

/-! ### Posting one event -/

/-- `q'` is `q` with one event posted by a notification (R251 to R259). -/
structure Posted (c : Config) (q q' : Sources) : Prop where
  limit : ∀ a, c.nAxes ≤ a → q'.limitPending.getLsbD a = q.limitPending.getLsbD a
  sense : ∀ a, c.nAxes ≤ a → q'.sensePending.getLsbD a = q.sensePending.getLsbD a
  senseFlag : ∀ a, c.nAxes ≤ a → q'.senseFlag.getLsbD a = q.senseFlag.getLsbD a
  tempcb : ∀ ch, c.nTemps ≤ ch → q'.tempPending.getLsbD ch = q.tempPending.getLsbD ch
  pointer : q'.tempRr = q.tempRr
  reply : (q.replyPending = true → legalLen (2 + q.replyLen.toNat) = true) →
    q'.replyPending = true → legalLen (2 + q'.replyLen.toNat) = true
  /-- On a quiet link the event posted is the only one, and is picked. -/
  single : Quiet q → ∃ x, pick c q' = some x ∧ pick c x.rest = none

theorem posted_limit {c : Config} (q : Sources) {n : Byte} (h : n.toNat < c.nAxes) :
    Posted c q { q with limitPending := setBit q.limitPending n.toNat } where
  limit a ha := by have : a ≠ n.toNat := by omega
                   simp [this]
  sense _ _ := rfl
  senseFlag _ _ := rfl
  tempcb _ _ := rfl
  pointer := rfl
  reply h := h
  single hq := ⟨_, pick_one_limit hq h, pick_of_quiet hq⟩

theorem posted_sense {c : Config} (q : Sources) {n : Byte} (flag : Bool) (h : n.toNat < c.nAxes) :
    Posted c q { q with
      sensePending := setBit q.sensePending n.toNat
      senseFlag := assignBit q.senseFlag n.toNat flag } where
  limit _ _ := rfl
  sense a ha := by have : a ≠ n.toNat := by omega
                   simp [this]
  senseFlag a ha := by have : a ≠ n.toNat := by omega
                       simp [this]
  tempcb _ _ := rfl
  pointer := rfl
  reply h := h
  single hq := ⟨_, pick_one_sense hq h, pick_of_quiet { hq with }⟩

theorem posted_movedone {c : Config} (q : Sources) :
    Posted c q { q with moveDoneCount := saturatingSucc q.moveDoneCount } where
  limit _ _ := rfl
  sense _ _ := rfl
  senseFlag _ _ := rfl
  tempcb _ _ := rfl
  pointer := rfl
  reply h := h
  single hq := ⟨_, pick_one_movecb hq, pick_of_quiet hq⟩

theorem posted_temprdy {c : Config} (q : Sources) {n : Byte} (h : n.toNat < c.nTemps) :
    Posted c q { q with tempPending := setBit q.tempPending n.toNat } where
  limit _ _ := rfl
  sense _ _ := rfl
  senseFlag _ _ := rfl
  tempcb a ha := by have : a ≠ n.toNat := by omega
                    simp [this]
  pointer := rfl
  reply h := h
  single hq := ⟨_, pick_one_tempcb hq h, pick_of_quiet { hq with }⟩

theorem posted_reply {c : Config} (q : Sources) {op : Byte} {payload : List Byte} (h : replyOk q op payload = true) :
    Posted c q (q.storeReply op payload) where
  limit _ _ := rfl
  sense _ _ := rfl
  senseFlag _ _ := rfl
  tempcb _ _ := rfl
  pointer := rfl
  reply _ _ := by
    simp only [replyOk, Bool.and_eq_true] at h
    have hl := legalLen_iff.mp h.1.2
    have e : (q.storeReply op payload).replyLen.toNat = payload.length := by
      simp only [Sources.storeReply, BitVec.toNat_ofNat]; omega
    rw [e]
    exact h.1.2
  single hq := by
    simp only [replyOk, Bool.and_eq_true] at h
    have hl := legalLen_iff.mp h.1.2
    exact ⟨_, pick_one_reply hq (by omega), pick_of_quiet { hq with }⟩

theorem posted_resumeMove {c : Config} (q : Sources) : Posted c q { q with resumeMovePending := true } where
  limit _ _ := rfl
  sense _ _ := rfl
  senseFlag _ _ := rfl
  tempcb _ _ := rfl
  pointer := rfl
  reply h := h
  single hq := ⟨_, pick_one_resumeMove hq, pick_of_quiet hq⟩

theorem posted_resumeAudio {c : Config} (q : Sources) : Posted c q { q with resumeAudioPending := true } where
  limit _ _ := rfl
  sense _ _ := rfl
  senseFlag _ _ := rfl
  tempcb _ _ := rfl
  pointer := rfl
  reply h := h
  single hq := ⟨_, pick_one_resumeAudio hq, pick_of_quiet hq⟩

theorem posted_autosleep {c : Config} (q : Sources) (mask : Byte) :
    Posted c q { q with autosleepMask := q.autosleepMask ||| mask, autosleepPending := true } where
  limit _ _ := rfl
  sense _ _ := rfl
  senseFlag _ _ := rfl
  tempcb _ _ := rfl
  pointer := rfl
  reply h := h
  single hq := ⟨_, pick_one_autosleep hq, pick_of_quiet { hq with }⟩

theorem posted_ping {c : Config} (q : Sources) {n : Byte} (h : n.toNat ≤ 7) :
    Posted c q { q with pingPending := setBit q.pingPending n.toNat } where
  limit _ _ := rfl
  sense _ _ := rfl
  senseFlag _ _ := rfl
  tempcb _ _ := rfl
  pointer := rfl
  reply h := h
  single hq := ⟨_, pick_one_pong hq h, pick_of_quiet hq⟩

/-! ### The cases of exec -/

/-- The state in which a notification calls `POST`. -/
def State.posting (s : State) (q : Sources) (accepted : Option Bool) : State :=
  { s with src := q, out := ⟨[], [], [], accepted⟩ }

/-- What one instruction does: the cases of `exec`, but for `F.INBOUND`. -/
inductive Effect (s : State) (i : Instr) : State → Prop where
  | reset (h : i = .reset) : Effect s i s.resetOp
  | setinit (h : possibleEvents i = [[]]) : Effect s i { s.startOp with initialized := true }
  | nothing (h : [] ∈ possibleEvents i) : Effect s i s.startOp
  | poll (now : Tick) (h : i = .poll now) : Effect s i ((s.startOp.watchdog now).ackTimeoutCheck now)
  | rx (b : Byte) (now : Tick) (hb : inboundByteOf s.cfg i = some b) (h : possibleEvents i = rxEvents) :
      Effect s i (s.startOp.rxByte b now)
  | badArgument (h : [.badArgument] ∈ possibleEvents i) : Effect s i (s.startOp.signal .badArgument)
  | replyRejected (h : [.replyRejected] ∈ possibleEvents i) :
      Effect s i ((s.startOp.setAccepted false).signal .replyRejected)
  | post (q : Sources) (accepted : Option Bool) (now : Tick) (hq : Posted s.cfg s.src q)
      (h : [] ∈ possibleEvents i ∧ [.droppedUninit] ∈ possibleEvents i) :
      Effect s i ((s.posting q accepted).post now)
  | frame (src : Source) (body : List Byte) (now : Tick) (h : possibleEvents i = [[]]) :
      Effect s i (s.startOp.serveRow src body now)
  | identification (h : possibleEvents i = [[]]) : Effect s i s.startOp.ctrlIdreq

/-- Every instruction but `F.INBOUND` has one of these effects. -/
theorem exec_effect {i : Instr} (hi : isSingle i = true) (s : State) : ∃ t, exec i s = .next t ∧ Effect s i t := by
  have post : ∀ (q : Sources) (acc : Option Bool) (now : Tick) (i : Instr), Posted s.cfg s.src q →
      [] ∈ possibleEvents i ∧ [.droppedUninit] ∈ possibleEvents i → Effect s i ((s.posting q acc).post now) :=
    fun q acc now _ hq h => .post q acc now hq h
  cases i with
  | reset => exact ⟨_, rfl, .reset rfl⟩
  | poll now => exact ⟨_, rfl, .poll now rfl⟩
  | rx b now => exact ⟨_, rfl, .rx b now rfl rfl⟩
  | setinit => exact ⟨_, rfl, .setinit rfl⟩
  | reply op payload now =>
    simp only [exec, execReply]
    split
    · exact ⟨_, rfl, post _ _ now _ (posted_reply _ ‹_›) (by simp [possibleEvents])⟩
    · exact ⟨_, rfl, .replyRejected (by simp [possibleEvents])⟩
  | limit axis now =>
    simp only [exec, execLimit]
    split
    · exact ⟨_, rfl, post _ _ now _ (posted_limit _ (axisOk_eq_true.mp ‹_›)) (by simp [possibleEvents])⟩
    · exact ⟨_, rfl, .badArgument (by simp [possibleEvents])⟩
  | sense axis flag now =>
    simp only [exec, execSense]
    split
    · exact ⟨_, rfl, post _ _ now _ (posted_sense _ flag (axisOk_eq_true.mp ‹_›)) (by simp [possibleEvents])⟩
    · exact ⟨_, rfl, .badArgument (by simp [possibleEvents])⟩
  | movedone now => exact ⟨_, rfl, post _ _ now _ (posted_movedone _) (by simp [possibleEvents])⟩
  | temprdy ch now =>
    simp only [exec, execTemprdy]
    split
    · exact ⟨_, rfl, post _ _ now _ (posted_temprdy _ (channelOk_eq_true.mp ‹_›)) (by simp [possibleEvents])⟩
    · exact ⟨_, rfl, .badArgument (by simp [possibleEvents])⟩
  | resume kind now =>
    simp only [exec, execResume]
    split
    · split
      · exact ⟨_, rfl, post _ _ now _ (posted_resumeMove _) (by simp [possibleEvents])⟩
      · exact ⟨_, rfl, post _ _ now _ (posted_resumeAudio _) (by simp [possibleEvents])⟩
    · exact ⟨_, rfl, .badArgument (by simp [possibleEvents])⟩
  | autosleep mask now => exact ⟨_, rfl, post _ _ now _ (posted_autosleep _ mask) (by simp [possibleEvents])⟩
  | ping slot now =>
    simp only [exec, execPing]
    split
    · exact ⟨_, rfl, post _ _ now _ (posted_ping _ (slotOk_eq_true.mp ‹_›)) (by simp [possibleEvents])⟩
    · exact ⟨_, rfl, .badArgument (by simp [possibleEvents])⟩
  | reservedB => exact ⟨_, rfl, .nothing (by simp [possibleEvents])⟩
  | reservedC => exact ⟨_, rfl, .nothing (by simp [possibleEvents])⟩
  | reservedD => exact ⟨_, rfl, .nothing (by simp [possibleEvents])⟩
  | reservedE => exact ⟨_, rfl, .nothing (by simp [possibleEvents])⟩
  | reservedF => exact ⟨_, rfl, .nothing (by simp [possibleEvents])⟩
  | rxAck0 now => exact ⟨_, rfl, .rx _ now rfl rfl⟩
  | rxAck1 now => exact ⟨_, rfl, .rx _ now rfl rfl⟩
  | rxNack now => exact ⟨_, rfl, .rx _ now rfl rfl⟩
  | rxIdreq now => exact ⟨_, rfl, .rx _ now rfl rfl⟩
  | rxBadlen01 low now => exact ⟨_, rfl, .rx _ now rfl rfl⟩
  | rxBadlen2 now => exact ⟨_, rfl, .rx _ now rfl rfl⟩
  | rxBadlen4 now => exact ⟨_, rfl, .rx _ now rfl rfl⟩
  | rxBadlenHi low now => exact ⟨_, rfl, .rx _ now rfl rfl⟩
  | rxLen length now => exact ⟨_, rfl, .rx _ now rfl rfl⟩
  | rxData b now => exact ⟨_, rfl, .rx _ now rfl rfl⟩
  | fLimit seq a k now => exact ⟨_, rfl, .frame _ _ now rfl⟩
  | fSense seq g a k now => exact ⟨_, rfl, .frame _ _ now rfl⟩
  | fMovecb seq n k now => exact ⟨_, rfl, .frame _ _ now rfl⟩
  | fTempcb seq ch k now => exact ⟨_, rfl, .frame _ _ now rfl⟩
  | fReply seq op payload checks now => exact ⟨_, rfl, .frame _ _ now rfl⟩
  | fResume seq r k now => exact ⟨_, rfl, .frame _ _ now rfl⟩
  | fAutosleep seq m k now => exact ⟨_, rfl, .frame _ _ now rfl⟩
  | fPong seq q k now => exact ⟨_, rfl, .frame _ _ now rfl⟩
  | fInbound seq op payload checks now => simp [isSingle] at hi
  | idResponse payload => exact ⟨_, rfl, .identification rfl⟩
  | checkByte tag p0 p1 p2 p3 p4 now => exact ⟨_, rfl, .rx _ now rfl rfl⟩

/-- A frame row serves the picked event or does nothing (R262). -/
theorem serveRow_cases (s : State) (src : Source) (body : List Byte) (now : Tick) :
    s.serveRow src body now = s ∨ (s.snd.outboundBusy = false ∧ ∃ x, pick s.cfg s.src = some x ∧
      s.serveRow src body now = s.serve x now) := by
  unfold State.serveRow
  split
  · exact Or.inl rfl
  · split
    · exact Or.inl rfl
    · split
      · exact Or.inr ⟨by simpa using ‹¬ s.snd.outboundBusy = true›, _, ‹_›, rfl⟩
      · exact Or.inl rfl

end Sys2Proof.Machine
end

