-- ==== Sys2Proof/Laws/Operations.lean ====
section
/-!
SUPPORT. Everything the larger operations can do, said once each: the multiplexer, the operation `RX`, `POLL`,
and a whole frame presented byte after byte.
-/

namespace Sys2Proof.Machine

/-- What the multiplexer leaves unchanged in every case (R262). -/
theorem mux_frame (s : State) (now : Tick) :
    (s.mux now).cfg = s.cfg ∧ (s.mux now).asm = s.asm ∧
      (s.mux now).receiveSequenceBit = s.receiveSequenceBit ∧ (s.mux now).initialized = s.initialized ∧
      (s.mux now).freeDraws = s.freeDraws ∧ (s.mux now).input = s.input ∧
      (s.mux now).out.deliver = s.out.deliver ∧ (s.mux now).snd.sendSequenceBit = s.snd.sendSequenceBit := by
  rcases mux_cases s now with ⟨e, -⟩ | ⟨x, -, -, -, e⟩ | ⟨-, -, q, -, -, e⟩ <;> rw [e] <;> simp

/-- What serving a picked event leaves unchanged (R262). -/
theorem serve_frame (s : State) (p : Picked) (now : Tick) :
    (s.serve p now).cfg = s.cfg ∧ (s.serve p now).asm = s.asm ∧
      (s.serve p now).receiveSequenceBit = s.receiveSequenceBit ∧ (s.serve p now).initialized = s.initialized ∧
      (s.serve p now).freeDraws = s.freeDraws ∧ (s.serve p now).input = s.input ∧
      (s.serve p now).out.deliver = s.out.deliver ∧ (s.serve p now).snd.sendSequenceBit = s.snd.sendSequenceBit := by
  unfold State.serve
  dsimp only
  split <;> simp

/-- An inbound byte is a first byte of the state as it is or as the watchdog left it, or data (R181). -/
theorem rxByte_cases (s : State) (b : Byte) (now : Tick) :
    (∃ u, (u = s ∧ s.asm.bytesAccumulated = 0 ∨ u = (s.setAccumulated 0).signal .idleTimeout) ∧
      s.rxByte b now = u.firstByte b now) ∨
    (s.asm.bytesAccumulated ≠ 0 ∧ s.rxByte b now = s.dataByte b now) := by
  cases h : s.stalled now
  · by_cases hn : s.asm.bytesAccumulated = 0
    · exact Or.inl ⟨s, Or.inl ⟨rfl, hn⟩, rxByte_idle _ _ hn⟩
    · exact Or.inr ⟨hn, rxByte_data _ _ h hn⟩
  · exact Or.inl ⟨_, Or.inr rfl, rxByte_stalled _ _ h⟩

/-- `RX` keeps the parameters, the queue and the mode; it delivers exactly when it flips the expected
sequence bit (R36). -/
theorem rxByte_frame (s : State) (b : Byte) (now : Tick) :
    (s.rxByte b now).cfg = s.cfg ∧ (s.rxByte b now).input = s.input ∧
    (s.rxByte b now).initialized = s.initialized ∧
    ((s.rxByte b now).out.deliver = s.out.deliver ∧
        (s.rxByte b now).receiveSequenceBit = s.receiveSequenceBit ∨
      (∃ d, (s.rxByte b now).out.deliver = s.out.deliver ++ [d]) ∧
        (s.rxByte b now).receiveSequenceBit = !s.receiveSequenceBit) := by
  rcases rxByte_cases s b now with ⟨u, hu, e⟩ | ⟨hn, e⟩
  · have hu' : u.cfg = s.cfg ∧ u.input = s.input ∧ u.initialized = s.initialized ∧
        u.out.deliver = s.out.deliver ∧ u.receiveSequenceBit = s.receiveSequenceBit := by
      rcases hu with ⟨rfl, -⟩ | rfl <;> simp
    obtain ⟨h1, h2, h3, h4, h5⟩ := hu'
    rw [e]
    rcases firstByte_cases u b now with ⟨p, -, e⟩ | ⟨-, e⟩ | ⟨-, e⟩ | ⟨-, e⟩ | ⟨-, e⟩
    · by_cases ha : u.snd.outboundBusy = true ∧ p = u.snd.sendSequenceBit
      · rw [e, ctrlAck_accepted _ ha]
        obtain ⟨m1, m2, m3, m4, m5, m6, m7, m8⟩ := mux_frame u.freed now
        rw [m1, m3, m4, m6, m7]
        exact ⟨h1, h2, h3, Or.inl ⟨h4, h5⟩⟩
      · rw [e, ctrlAck_stale _ ha]; simp [*]
    · rw [e]
      by_cases ha : u.snd.outboundBusy = true
      · rw [ctrlNack_busy _ ha]; simp [*]
      · rw [ctrlNack_stale _ (by simpa using ha)]; simp [*]
    · rw [e]; simp [State.ctrlIdreq, *]
    · rw [e]; simp [State.reject, *]
    · rw [e]; simp [*]
  · rw [e]
    by_cases hl : (s.stored b now).asm.bytesAccumulated.toNat = need (bufRead (s.stored b now).asm.rxBuf 0).toNat
    · rw [dataByte_last hl]
      rcases complete_cases (s.stored b now) with ⟨-, e⟩ | ⟨-, -, e⟩ | ⟨-, -, -, e⟩ | ⟨-, -, hq, e⟩ <;> rw [e]
      · simp [State.reject, State.stored]
      · simp [State.reject, State.stored]
      · simp [State.duplicate, State.stored]
      · refine ⟨rfl, rfl, rfl, Or.inr ⟨⟨_, rfl⟩, rfl⟩⟩
    · rw [dataByte_more hl]; simp [State.stored]

/-- A data byte touches only the assembler, the expected sequence bit and the outputs (R185). -/
theorem dataByte_frame (s : State) (b : Byte) (now : Tick) :
    (s.dataByte b now).cfg = s.cfg ∧ (s.dataByte b now).snd = s.snd ∧ (s.dataByte b now).src = s.src ∧
      (s.dataByte b now).initialized = s.initialized := by
  by_cases hl : (s.stored b now).asm.bytesAccumulated.toNat = need (bufRead (s.stored b now).asm.rxBuf 0).toNat
  · rw [dataByte_last hl]
    rcases complete_cases (s.stored b now) with ⟨-, e⟩ | ⟨-, -, e⟩ | ⟨-, -, -, e⟩ | ⟨-, -, -, e⟩ <;> rw [e] <;>
      exact ⟨rfl, rfl, rfl, rfl⟩
  · rw [dataByte_more hl]
    exact ⟨rfl, rfl, rfl, rfl⟩

/-- Everything the two timers can do in `POLL` (R330, R334). -/
theorem poll_spec (s : State) (now : Tick) : ∃ asm time tx ev,
    (s.watchdog now).ackTimeoutCheck now = { s with
      asm := asm
      snd := { s.snd with sendTime := time }
      out := { s.out with tx := s.out.tx ++ tx, ev := s.out.ev ++ ev } } ∧
    (tx = [] ∨ s.snd.outboundBusy = true ∧ tx = s.snd.frame) ∧
    ev ∈ [[], [Condition.idleTimeout], [.ackTimeout], [.idleTimeout, .ackTimeout]] ∧
    (asm = s.asm ∨ asm = { s.asm with bytesAccumulated := 0 }) ∧
    (time = s.snd.sendTime ∨ time = sampled s.cfg now) := by
  cases h1 : s.stalled now
  · rw [watchdog_fresh h1]
    cases h2 : s.overdue now
    · rw [ackTimeoutCheck_fresh h2]
      exact ⟨s.asm, s.snd.sendTime, [], [], by simp, by simp, by simp, by simp, by simp⟩
    · rw [ackTimeoutCheck_overdue h2]
      exact ⟨s.asm, _, s.snd.frame, [.ackTimeout], rfl, Or.inr ⟨(overdue_iff.mp h2).1, rfl⟩, by simp, by simp,
        Or.inr rfl⟩
  · rw [watchdog_stalled h1]
    cases h2 : ((s.setAccumulated 0).signal .idleTimeout).overdue now
    · rw [ackTimeoutCheck_fresh h2]
      exact ⟨_, s.snd.sendTime, [], [.idleTimeout], by simp [State.signal, State.setAccumulated]; rfl, by simp,
        by simp, by simp, by simp⟩
    · rw [ackTimeoutCheck_overdue h2]
      exact ⟨{ s.asm with bytesAccumulated := 0 }, sampled s.cfg now, s.snd.frame, [.idleTimeout, .ackTimeout],
        by simp [State.signal, State.setAccumulated, State.retransmit, State.emit],
        Or.inr ⟨(overdue_iff.mp h2).1, rfl⟩, by simp, by simp, Or.inr rfl⟩

/-- Two instants one tick apart are one tick apart (R20). -/
theorem elapsed_succ {c : Config} (hc : c.Legal) (now : Nat) : elapsed c (now + 1) (now % 2 ^ c.wTime) = 1 := by
  have hw : 1 < 2 ^ c.wTime := Nat.one_lt_two_pow (by have := hc.wTime_ge; omega)
  unfold elapsed sampled
  generalize 2 ^ c.wTime = m at hw
  rw [Nat.mod_mod, Nat.add_mod now 1 m, Nat.mod_eq_of_lt hw]
  have hx : now % m < m := Nat.mod_lt _ (by omega)
  generalize now % m = x at hx
  by_cases h : x + 1 = m
  · rw [h, Nat.mod_self, show 0 + m - x = 1 by omega]
    exact Nat.mod_eq_of_lt hw
  · rw [Nat.mod_eq_of_lt (show x + 1 < m by omega), show x + 1 + m - x = m + 1 by omega, Nat.add_mod_left]
    exact Nat.mod_eq_of_lt hw

/-- The remaining bytes of a frame, each a tick after the other (R128): they are stored, the recorded time is
that of the last, and the last completes the frame. -/
theorem rxFrame_rest {s : State} (hc : s.cfg.Legal) (ht : 1 ≤ s.cfg.tIdle) {L : Nat} (hL : legalLen L = true)
    (now : Tick) (bs : List Byte) : ∀ (k : Nat) (buf : Vector Byte 170), 1 ≤ k → bs ≠ [] →
    k + bs.length = need L → (bufRead buf 0).toNat = L →
    State.rxFrame (now + 1) bs { s with asm := ⟨buf, BitVec.ofNat 8 k, now % 2 ^ s.cfg.wTime⟩ } =
      State.complete { s with
        asm := ⟨bufWriteSlice buf k bs, BitVec.ofNat 8 (need L), (now + bs.length) % 2 ^ s.cfg.wTime⟩ } := by
  induction bs generalizing now with
  | nil => intro k buf _ h; exact absurd rfl h
  | cons b bs ih =>
    intro k buf hk _ hlen h0
    have hn := need_bounds hL
    simp only [List.length_cons] at hlen
    have hk8 : (BitVec.ofNat 8 k).toNat = k := by rw [BitVec.toNat_ofNat]; omega
    have hk0 : BitVec.ofNat 8 k ≠ 0 := by
      intro e; rw [e] at hk8; simp at hk8; omega
    generalize hu : ({ s with asm := ⟨buf, BitVec.ofNat 8 k, now % 2 ^ s.cfg.wTime⟩ } : State) = u
    have hcount : u.asm.bytesAccumulated = BitVec.ofNat 8 k := by rw [← hu]
    have hfresh : u.stalled (now + 1) = false := by
      have := elapsed_succ hc now
      rw [← Bool.not_eq_true, stalled_iff, ← hu]
      rintro ⟨-, h⟩
      dsimp only at h
      omega
    have hst : u.stored b (now + 1) =
        { s with asm := ⟨bufWrite buf k b, BitVec.ofNat 8 (k + 1), (now + 1) % 2 ^ s.cfg.wTime⟩ } := by
      rw [← hu]
      simp only [State.stored, State.storeRx, hk8, sampled, BitVec.ofNat_add, BitVec.ofNat_eq_ofNat]
    have hb0 : bufRead (bufWrite buf k b) 0 = bufRead buf 0 := bufRead_bufWrite_ne _ _ (by omega)
    have hk18 : (BitVec.ofNat 8 (k + 1)).toNat = k + 1 := by rw [BitVec.toNat_ofNat]; omega
    rw [State.rxFrame, rxByte_data b (now + 1) hfresh (by rw [hcount]; exact hk0)]
    cases bs with
    | nil =>
      have hk1 : k + 1 = need L := by simpa using hlen
      rw [dataByte_last (by rw [hst]; dsimp only; rw [hk18, hb0, h0, hk1]), hst, ← hk1]
      rfl
    | cons b' bs =>
      simp only [List.length_cons] at hlen
      rw [dataByte_more (by rw [hst]; dsimp only; rw [hk18, hb0, h0]; omega), hst]
      rw [ih (now + 1) (k + 1) (bufWrite buf k b) (by omega) (by simp) (by simp; omega) (by rw [hb0, h0]),
        show now + 1 + (b' :: bs).length = now + (b :: b' :: bs).length by simp only [List.length_cons]; ring]
      rfl

/-- A whole frame of legal length presented to an idle assembler is stored and completed (R183 to R187). -/
theorem rxFrame_complete {s : State} (hc : s.cfg.Legal) (ht : 1 ≤ s.cfg.tIdle) (hidle : s.asm.bytesAccumulated = 0)
    (now : Tick) (b : Byte) (bs : List Byte) (hL : legalLength b = true) (hlen : 1 + bs.length = need b.toNat) :
    s.rxFrame now (b :: bs) = State.complete { s with
      asm := ⟨bufWriteSlice s.asm.rxBuf 0 (b :: bs), BitVec.ofNat 8 (need b.toNat),
        (now + bs.length) % 2 ^ s.cfg.wTime⟩ } := by
  have hn := need_bounds hL
  rw [State.rxFrame, rxByte_idle b now hidle, firstByte_legal hc now hL]
  exact rxFrame_rest hc ht hL now bs 1 (bufWrite s.asm.rxBuf 0 b) le_rfl
    (by rintro rfl; simp at hlen; omega) hlen (by rw [bufRead_bufWrite_same _ _ (by omega)])

end Sys2Proof.Machine
end

