-- ==== Sys2Proof/Laws/PerInstr.lean ====
section
/-!
SUPPORT. The families of statements about instructions, one lemma for each constructor.
-/

namespace Sys2Proof.Laws.EncodeDecode

open Sys2Proof Sys2Proof.Machine

/-- Decoding the encoding of a well-formed instruction gives the instruction back. -/
def Statement (i : Instr) : Prop :=
  ∀ c : Config, c.Legal → wellFormed c i = true → decode c (decodesIdle i) (encode c i) = .ok i

theorem reset : Statement .reset := fun _ _ _ => rfl

theorem poll (now : Tick) : Statement (.poll now) := by
  intro c _ h
  simp only [wellFormed] at h
  simp [decode, encode, plainRequest, decodeRequest, timeField_of_ok h]

theorem rx (b : Byte) (now : Tick) : Statement (.rx b now) := by
  intro c _ h
  simp only [wellFormed] at h
  simp [decode, encode, plainRequest, decodeRequest, timeField_of_ok h]

theorem setinit : Statement .setinit := fun _ _ _ => rfl

theorem reply (op : Byte) (payload : List Byte) (now : Tick) : Statement (.reply op payload now) := by
  intro c _ h
  simp only [wellFormed, Bool.and_eq_true, decide_eq_true_eq] at h
  have hp := replyRequest_payload op payload now h.2
  simp only [encode, decode, decodeRequest, hp]
  simp [replyRequest, plainRequest, timeField_of_ok h.1]

theorem limit (axis : Byte) (now : Tick) : Statement (.limit axis now) := by
  intro c _ h
  simp only [wellFormed] at h
  simp [decode, encode, plainRequest, decodeRequest, timeField_of_ok h]

theorem sense (axis : Byte) (flag : Bool) (now : Tick) : Statement (.sense axis flag now) := by
  intro c _ h
  simp only [wellFormed] at h
  simp only [decode, encode, plainRequest, decodeRequest, timeField_of_ok h, lowByte_bit]
  rfl

theorem movedone (now : Tick) : Statement (.movedone now) := by
  intro c _ h
  simp only [wellFormed] at h
  simp [decode, encode, plainRequest, decodeRequest, timeField_of_ok h]

theorem temprdy (ch : Byte) (now : Tick) : Statement (.temprdy ch now) := by
  intro c _ h
  simp only [wellFormed] at h
  simp [decode, encode, plainRequest, decodeRequest, timeField_of_ok h]

theorem resume (kind : Byte) (now : Tick) : Statement (.resume kind now) := by
  intro c _ h
  simp only [wellFormed] at h
  simp [decode, encode, plainRequest, decodeRequest, timeField_of_ok h]

theorem autosleep (mask : Byte) (now : Tick) : Statement (.autosleep mask now) := by
  intro c _ h
  simp only [wellFormed] at h
  simp [decode, encode, plainRequest, decodeRequest, timeField_of_ok h]

theorem ping (slot : Byte) (now : Tick) : Statement (.ping slot now) := by
  intro c _ h
  simp only [wellFormed] at h
  simp [decode, encode, plainRequest, decodeRequest, timeField_of_ok h]

theorem reservedB : Statement .reservedB := fun _ _ _ => rfl

theorem reservedC : Statement .reservedC := fun _ _ _ => rfl

theorem reservedD : Statement .reservedD := fun _ _ _ => rfl

theorem reservedE : Statement .reservedE := fun _ _ _ => rfl

theorem reservedF : Statement .reservedF := fun _ _ _ => rfl

theorem rxAck0 (now : Tick) : Statement (.rxAck0 now) := by
  intro c hc h
  simp only [wellFormed] at h
  simp [decode, encode, decodesIdle, decodeByte, classify_ack0, timeField_of_ok h]

theorem rxAck1 (now : Tick) : Statement (.rxAck1 now) := by
  intro c hc h
  simp only [wellFormed] at h
  simp [decode, encode, decodesIdle, decodeByte, classify_ack1 hc, timeField_of_ok h]

theorem rxNack (now : Tick) : Statement (.rxNack now) := by
  intro c hc h
  simp only [wellFormed] at h
  simp [decode, encode, decodesIdle, decodeByte, classify_nack hc, timeField_of_ok h]

theorem rxIdreq (now : Tick) : Statement (.rxIdreq now) := by
  intro c hc h
  simp only [wellFormed] at h
  simp [decode, encode, decodesIdle, decodeByte, classify_idreq hc, timeField_of_ok h]

theorem rxBadlen01 (low : Bool) (now : Tick) : Statement (.rxBadlen01 low now) := by
  intro c hc h
  simp only [wellFormed] at h
  have hb : (lowByte low).getLsbD 7 = false ∧ (lowByte low).toNat ≤ 1 := by revert low; decide
  simp only [decode, encode, decodesIdle, decodeByte, classify_low hc hb.1, if_pos hb.2, if_true, timeField_of_ok h,
    lowByte_bit]

theorem rxBadlen2 (now : Tick) : Statement (.rxBadlen2 now) := by
  intro c hc h
  simp only [wellFormed] at h
  simp only [decode, encode, decodesIdle, decodeByte, classify_two hc, if_true, timeField_of_ok h]

theorem rxBadlen4 (now : Tick) : Statement (.rxBadlen4 now) := by
  intro c hc h
  simp only [wellFormed] at h
  simp only [decode, encode, decodesIdle, decodeByte, classify_four hc, if_true, timeField_of_ok h]

theorem rxBadlenHi (low : BitVec 7) (now : Tick) : Statement (.rxBadlenHi low now) := by
  intro c hc h
  simp only [wellFormed, Bool.and_eq_true, Bool.not_eq_true'] at h
  simp only [decode, encode, decodesIdle, decodeByte, classify_high h.2 (highByte_bit low), if_true,
    timeField_of_ok h.1, highByte_setWidth]

theorem rxLen (length : BitVec 7) (now : Tick) : Statement (.rxLen length now) := by
  intro c hc h
  simp only [wellFormed, Bool.and_eq_true] at h
  simp only [decode, encode, decodesIdle, decodeByte, classify_legal hc h.2, if_true, timeField_of_ok h.1,
    lengthByte_setWidth]

theorem rxData (b : Byte) (now : Tick) : Statement (.rxData b now) := by
  intro c _ h
  simp only [wellFormed] at h
  simp [decode, encode, decodesIdle, decodeByte, timeField_of_ok h]

theorem fLimit (s : Bool) (a k : Byte) (now : Tick) : Statement (.fLimit s a k now) := by
  intro c _ h
  simp only [wellFormed, Bool.and_eq_true] at h
  simp only [encode, decode_event h.1.1 h.2, decodeEvent, (splitFrame_event h.2).2]

theorem fSense (s g : Bool) (a : BitVec 7) (k : Byte) (now : Tick) : Statement (.fSense s g a k now) := by
  intro c _ h
  simp only [wellFormed, Bool.and_eq_true] at h
  simp only [encode, decode_event h.1.1 h.2, decodeEvent, (splitFrame_event h.2).2]
  rw [(senseField g a).1, (senseField g a).2]

theorem fMovecb (s : Bool) (n k : Byte) (now : Tick) : Statement (.fMovecb s n k now) := by
  intro c _ h
  simp only [wellFormed, Bool.and_eq_true] at h
  simp only [encode, decode_event h.1.1 h.2, decodeEvent, (splitFrame_event h.2).2]

theorem fTempcb (s : Bool) (ch k : Byte) (now : Tick) : Statement (.fTempcb s ch k now) := by
  intro c _ h
  simp only [wellFormed, Bool.and_eq_true] at h
  simp only [encode, decode_event h.1.1 h.2, decodeEvent, (splitFrame_event h.2).2]

theorem fReply (s : Bool) (op : BitVec 7) (payload checks : List Byte) (now : Tick) :
    Statement (.fReply s op payload checks now) := by
  intro c _ h
  simp only [wellFormed, Bool.and_eq_true, Bool.not_eq_true'] at h
  have hs := (splitFrame_frameBody h.1.2).1
  simp only [encode, decode, hs, Except.map, timeField_of_ok h.1.1, decodeOutbound]
  match payload, checks, h.2 with
  | [a], [k], hl =>
    have : eventRowOf c op a = none := by simpa [looksLikeEvent] using hl
    simp [decodeEvent, this]
  | [], _, _ => rfl
  | [_], [], _ => rfl
  | [_], _ :: _ :: _, _ => rfl
  | _ :: _ :: _, _, _ => rfl

theorem fResume (s r : Bool) (k : Byte) (now : Tick) : Statement (.fResume s r k now) := by
  intro c _ h
  simp only [wellFormed, Bool.and_eq_true] at h
  have hr : ((BitVec.ofBool r).setWidth 8).getLsbD 0 = r := by clear h; revert r; decide
  simp only [encode, decode_event h.1 h.2, decodeEvent, (splitFrame_event h.2).2, hr]

theorem fAutosleep (s : Bool) (m k : Byte) (now : Tick) : Statement (.fAutosleep s m k now) := by
  intro c _ h
  simp only [wellFormed, Bool.and_eq_true] at h
  simp only [encode, decode_event h.1 h.2, decodeEvent, (splitFrame_event h.2).2]

theorem fPong (s : Bool) (q : BitVec 3) (k : Byte) (now : Tick) : Statement (.fPong s q k now) := by
  intro c _ h
  simp only [wellFormed, Bool.and_eq_true] at h
  have hq : (q.setWidth 8).setWidth 3 = q := by clear h; revert q; decide
  simp only [encode, decode_event h.1 h.2, decodeEvent, (splitFrame_event h.2).2, hq]

theorem fInbound (s : Bool) (op : BitVec 7) (payload checks : List Byte) (now : Tick) :
    Statement (.fInbound s op payload checks now) := by
  intro c _ h
  simp only [wellFormed, Bool.and_eq_true] at h
  simp only [encode, decode, (splitFrame_frameBody h.2).1, Except.map, timeField_of_ok h.1]

theorem idResponse (payload : List Byte) : Statement (.idResponse payload) := by
  intro c _ h
  simp only [wellFormed, beq_iff_eq] at h
  simp [encode, decode, decodeRaw, h]

theorem checkByte (tag : BitVec 3) (p0 p1 p2 p3 p4 : Bool) (now : Tick) :
    Statement (.checkByte tag p0 p1 p2 p3 p4 now) := by
  intro c _ h
  simp only [wellFormed] at h
  obtain ⟨e0, e1, e2, e3, e4⟩ := packCheck_bits tag p0 p1 p2 p3 p4
  simp only [encode, decode, decodeCheck, timeField_of_ok h, packCheck_setWidth, e0, e1, e2, e3, e4]

end Sys2Proof.Laws.EncodeDecode
end

