-- ==== Sys2Proof/Tests/Slice0.lean ====
section
/-!
SUPPORT. Tests of the model, and for every statement with hypotheses a witness that meets them. Expected values
are those of spec/95_test_vectors.md (L1 to L3), or written out from the encodings of spec/30_encoding.md; each
theorem names its source.
-/

namespace Sys2Proof.Tests

-- One theorem after the other: many kernel evaluations at once need more threads than memory allows.
set_option Elab.async false

open Sys2Proof.Machine

/-! ### Helpers -/

/-- The state after one instruction; the state itself where there is none. -/
def after (i : Instr) (s : State) : State :=
  match exec i s with
  | .next t => t
  | .fault _ => s
  | .refused _ => s

/-- The state after some instructions, the first one first. -/
def afterAll (is : List Instr) (s : State) : State := is.foldl (fun s i => after i s) s

/-- The state after one step. -/
def afterStep (s : State) : State :=
  match step s with
  | .next t => t
  | .fault _ => s
  | .refused _ => s

/-- Initialized, idle, nothing pending ("ready" in spec/95_test_vectors.md). -/
def ready : State := after .setinit State.reset

/-- Ready, then `LIMIT 1 @10`: the frame 03 01 01 20 is in flight. -/
def inFlight : State := after (.limit 1 10) ready

/-- The first bytes of the frame 05 11 41 42 43 88 F9, from `@100` on, after `s`. -/
def partialFrame (n : Nat) (s : State) : State :=
  s.rxFrame 100 (([0x05, 0x11, 0x41, 0x42, 0x43, 0x88, 0xF9] : List Byte).take n)

/-- The ready state with one source pending and the link idle (a state no run reaches). -/
def pendingOnly (q : Sources) : State := { ready with src := q }

/-- The sources with nothing pending. -/
def quietSources : Sources := State.reset.src

/-- A frame in flight, a partial frame, pending events of several sources, and a unit to be executed. -/
def working : State :=
  { partialFrame 2 (afterAll [.reply 0x21 [0x01] 11, .sense 2 true 12, .temprdy 7 12, .ping 7 13, .movedone 14] inFlight)
    with input := [.inboundByte 0x41 102, .request (plainRequest 0x0 0 0 103)] }

/-! ### The default parameters are legal (spec/00_scope.md R12) -/

theorem test_default_parameters_are_legal : defaultConfig.Legal :=
  ⟨by decide, by decide, by decide, by decide, by decide, by decide +kernel, by decide, by decide⟩

/-! ### What wellFormed refuses: an ill-formed term for each check -/

theorem test_time_too_wide_is_ill_formed :
    wellFormed defaultConfig (.poll (2 ^ 32)) = false ∧ wellFormed defaultConfig (.poll (2 ^ 32 - 1)) = true := by
  decide +kernel

theorem test_payload_of_126_bytes_is_ill_formed :
    wellFormed defaultConfig (.reply 0x20 (List.replicate 126 0) 0) = false ∧
    wellFormed defaultConfig (.reply 0x20 (List.replicate 125 0) 0) = true := by decide +kernel

theorem test_control_code_is_no_illegal_length :
    wellFormed defaultConfig (.rxBadlenHi 0x33 0) = false ∧ wellFormed defaultConfig (.rxBadlenHi 0x7F 0) = true := by
  decide +kernel

theorem test_illegal_length_is_no_length :
    wellFormed defaultConfig (.rxLen 4 0) = false ∧ wellFormed defaultConfig (.rxLen 2 0) = false ∧
    wellFormed defaultConfig (.rxLen 3 0) = true ∧ wellFormed defaultConfig (.rxLen 127 0) = true := by decide +kernel

theorem test_axis_out_of_range_is_ill_formed :
    wellFormed defaultConfig (.fLimit false 3 (encodeBlock defaultMatrix 3 1 3 0) 0) = false ∧
    wellFormed defaultConfig (.fLimit false 2 (encodeBlock defaultMatrix 3 1 2 0) 0) = true ∧
    wellFormed defaultConfig (.fSense false true 3 (encodeBlock defaultMatrix 3 2 0x83 0) 0) = false ∧
    wellFormed defaultConfig (.fSense false true 2 0x08 0) = true := by decide +kernel

theorem test_wrong_check_byte_is_ill_formed :
    wellFormed defaultConfig (.fLimit false 1 0x21 0) = false ∧ wellFormed defaultConfig (.fLimit false 1 0x20 0) = true ∧
    wellFormed defaultConfig (.fInbound false 0x11 [0x41, 0x42, 0x43] [0x88, 0xE9] 0) = false ∧
    wellFormed defaultConfig (.fInbound false 0x11 [0x41, 0x42, 0x43] [0x88, 0xF9] 0) = true := by decide +kernel

theorem test_move_count_zero_is_ill_formed :
    wellFormed defaultConfig (.fMovecb false 0 (encodeBlock defaultMatrix 3 3 0 0) 0) = false ∧
    wellFormed defaultConfig (.fMovecb true 1 0x90 0) = true := by decide +kernel

theorem test_channel_out_of_range_is_ill_formed :
    wellFormed defaultConfig (.fTempcb false 8 (encodeBlock defaultMatrix 3 4 8 0) 0) = false ∧
    wellFormed defaultConfig (.fTempcb false 3 0x70 0) = true := by decide +kernel

theorem test_event_frame_is_no_reply :
    wellFormed defaultConfig (.fReply false 0x01 [0x01] [0x20] 0) = false ∧
    wellFormed defaultConfig (.fReply true 0x21 [0x01] [0xF8] 0) = true := by decide +kernel

theorem test_frame_of_length_4_is_ill_formed :
    wellFormed defaultConfig (.fInbound false 0x11 [0x41, 0x42] [0x88, 0xF9] 0) = false ∧
    wellFormed defaultConfig (.fResume true true 0x69 0) = false ∧ wellFormed defaultConfig (.fResume true true 0x68 0) = true ∧
    wellFormed defaultConfig (.fAutosleep false 7 0x31 0) = false ∧ wellFormed defaultConfig (.fAutosleep false 7 0x30 0) = true ∧
    wellFormed defaultConfig (.fPong false 7 0x19 0) = false ∧ wellFormed defaultConfig (.fPong false 7 0x18 0) = true := by
  decide +kernel

theorem test_other_identity_is_ill_formed :
    wellFormed defaultConfig (.idResponse [1, 2]) = false ∧
    wellFormed defaultConfig (.idResponse [1, 2, 3, 4, 5, 6, 7, 8]) = true := by decide +kernel

/-! ### Decoding: words written out from spec/30_encoding.md (R110, R115 to R122, R125) -/

theorem test_selectors_decode :
    decodeTableWord 8 0x0 = some (.poll 0) ∧ decodeTableWord 8 0x1 = some (.rx 0 0) ∧
    decodeTableWord 8 0x2 = some .setinit ∧ decodeTableWord 8 0x3 = some (.reply 0 [] 0) ∧
    decodeTableWord 8 0x4 = some (.limit 0 0) ∧ decodeTableWord 8 0x5 = some (.sense 0 false 0) ∧
    decodeTableWord 8 0x6 = some (.movedone 0) ∧ decodeTableWord 8 0x7 = some (.temprdy 0 0) ∧
    decodeTableWord 8 0x8 = some (.resume 0 0) ∧ decodeTableWord 8 0x9 = some (.autosleep 0 0) ∧
    decodeTableWord 8 0xA = some (.ping 0 0) ∧ decodeTableWord 8 0xB = some .reservedB ∧
    decodeTableWord 8 0xC = some .reservedC ∧ decodeTableWord 8 0xD = some .reservedD ∧
    decodeTableWord 8 0xE = some .reservedE ∧ decodeTableWord 8 0xF = some .reservedF := by decide +kernel

/-- `3.20.00 [DE AD BE]` and `5.02.01` of program P3: the fields of a request. -/
theorem test_request_fields_decode :
    decode defaultConfig true (.request
      { opSel := 0x3, arg0 := 0x20, arg1 := 0, data := bufWriteSlice (Vector.replicate 125 0xEE) 0 [0xDE, 0xAD, 0xBE],
        dataLen := 3, now := 5 }) = .ok (.reply 0x20 [0xDE, 0xAD, 0xBE] 5) ∧
    decode defaultConfig true (.request (plainRequest 0x5 0x02 0x01 8)) = .ok (.sense 2 true 8) ∧
    decode defaultConfig true (.request (plainRequest 0x5 0x02 0xFE 8)) = .ok (.sense 2 false 8) := by decide +kernel

theorem test_first_bytes_decode :
    decodeByte defaultConfig true 0xB3 7 = .rxAck0 7 ∧ decodeByte defaultConfig true 0xAD 7 = .rxAck1 7 ∧
    decodeByte defaultConfig true 0x80 7 = .rxNack 7 ∧ decodeByte defaultConfig true 0xAA 7 = .rxIdreq 7 ∧
    decodeByte defaultConfig true 0x00 7 = .rxBadlen01 false 7 ∧ decodeByte defaultConfig true 0x01 7 = .rxBadlen01 true 7 ∧
    decodeByte defaultConfig true 0x02 7 = .rxBadlen2 7 ∧ decodeByte defaultConfig true 0x04 7 = .rxBadlen4 7 ∧
    decodeByte defaultConfig true 0x81 7 = .rxBadlenHi 0x01 7 ∧ decodeByte defaultConfig true 0x03 7 = .rxLen 3 7 ∧
    decodeByte defaultConfig true 0x7F 7 = .rxLen 127 7 ∧ decodeByte defaultConfig false 0xB3 7 = .rxData 0xB3 7 := by
  decide +kernel

/-- The frames of program P3 and of L2.4 and the response of L1.8, as words. -/
theorem test_outbound_frames_decode :
    decodeTableWord 32 0x03010120 = some (.fLimit false 1 0x20 0) ∧
    decodeTableWord 32 0x03028208 = some (.fSense false true 2 0x08 0) ∧
    decodeTableWord 32 0x03830260 = some (.fMovecb true 2 0x60 0) ∧
    decodeTableWord 32 0x03840518 = some (.fTempcb true 5 0x18 0) ∧
    decodeTableWord 32 0x03850168 = some (.fResume true true 0x68 0) ∧
    decodeTableWord 32 0x03060730 = some (.fAutosleep false 7 0x30 0) ∧
    decodeTableWord 32 0x03070718 = some (.fPong false 7 0x18 0) ∧
    decodeTableWord 32 0x03A101F8 = some (.fReply true 0x21 [0x01] [0xF8] 0) ∧
    decodeTableWord 56 0x0520DEADBE6091 = some (.fReply false 0x20 [0xDE, 0xAD, 0xBE] [0x60, 0x91] 0) ∧
    decodeTableWord 72 0xAA0102030405060708 = some (.idResponse [1, 2, 3, 4, 5, 6, 7, 8]) := by decide +kernel

/-- The units that are no word of the table: reset input, inbound frame (L1.3), response (L1.8), check byte (L1.6). -/
theorem test_other_units_decode :
    decode defaultConfig true .resetLine = .ok .reset ∧
    decode defaultConfig true (.inboundFrame [0x05, 0x91, 0x41, 0x42, 0x43, 0x20, 0x91] 9) =
      .ok (.fInbound true 0x11 [0x41, 0x42, 0x43] [0x20, 0x91] 9) ∧
    decode defaultConfig true (.rawResponse [0xAA, 1, 2, 3, 4, 5, 6, 7, 8]) = .ok (.idResponse [1, 2, 3, 4, 5, 6, 7, 8]) ∧
    decode defaultConfig true (.checkByte 0xF9 9) = .ok (.checkByte 1 true true true true true 9) ∧
    decode defaultConfig true (.checkByte 0x88 9) = .ok (.checkByte 0 true false false false true 9) := by decide +kernel

theorem test_units_that_are_no_row_are_rejected :
    decode defaultConfig true (.outboundFrame [0x03] 0) = .error .frameTooShort ∧
    decode defaultConfig true (.outboundFrame [0x04, 0x01, 0, 0, 0, 0] 0) = .error .frameIllegalLength ∧
    decode defaultConfig true (.inboundFrame [0x03, 0x01, 0x01] 0) = .error .frameWrongSize ∧
    decode defaultConfig true (.rawResponse [0xAB, 1, 2, 3, 4, 5, 6, 7, 8]) = .error .notIdentification := by decide +kernel

/-! ### The codec (L1.1, L2.1, L2.2) -/

theorem test_fold_and_encode_block :
    [0x00, 0x01, 0x03, 0xFF, 0x80, 0x7F].map fold = [false, true, false, false, true, true] ∧
    (List.range 9).map (fun i => encodeBlock defaultMatrix 0 0 0 (BitVec.ofNat 8 i)) =
      [0x00, 0xF9, 0xF2, 0x0B, 0x04, 0xFD, 0xF6, 0x0F, 0x00] ∧
    encodeBlock defaultMatrix 0xFF 0xFF 0xFF 0 = 0xF0 ∧ encodeBlock defaultMatrix 0x01 0x00 0x00 0 = 0xC0 ∧
    encodeBlock defaultMatrix 0x00 0x01 0x00 0 = 0x28 ∧ encodeBlock defaultMatrix 0x00 0x00 0x01 0 = 0x68 ∧
    encodeBlock defaultMatrix 0x42 0x43 0x88 1 = 0xF9 ∧ encodeBlock defaultMatrix 0x12 0x34 0x56 5 = 0x4D := by decide +kernel

theorem test_verify_block :
    verifyBlock defaultMatrix 0x05 0x11 0x41 0x88 0 = true ∧ verifyBlock defaultMatrix 0x05 0x11 0x40 0x88 0 = false ∧
    verifyBlock defaultMatrix 0x05 0x11 0x41 0x8A 0 = false ∧ verifyBlock defaultMatrix 0x05 0x11 0x41 0x88 1 = false := by
  decide +kernel

theorem test_frames_of_every_length_class :
    wireFrame defaultConfig true [0x06, 0x22, 1, 2, 3, 4] = [0x06, 0xA2, 1, 2, 3, 4, 0x68, 0x31] ∧
    wireFrame defaultConfig true [0x07, 0x22, 1, 2, 3, 4, 5] = [0x07, 0xA2, 1, 2, 3, 4, 5, 0xA8, 0x31, 0xF2] ∧
    wireFrame defaultConfig false [0x05, 0x20, 0xDE, 0xAD, 0xBE] = [0x05, 0x20, 0xDE, 0xAD, 0xBE, 0x60, 0x91] := by
  decide +kernel

/-! ### Operations -/

/-- L2.8: after `RESET` the frame in flight is forgotten. -/
theorem test_reset_forgets_the_frame_in_flight :
    (afterAll [.reset, .rxNack 20] inFlight).out = ⟨[], [], [.staleNack], none⟩ ∧
    (after .reset working).input = working.input := by decide +kernel

/-- L1.5: at elapsed 200 nothing, at 201 the identical frame. -/
theorem test_poll_retransmits_after_the_bound :
    (after (.poll 210) inFlight).out = Outputs.empty ∧
    (after (.poll 211) inFlight).out = ⟨[0x03, 0x01, 0x01, 0x20], [], [.ackTimeout], none⟩ ∧
    (after (.poll 211) inFlight).snd.sendTime = 211 := by decide +kernel

/-- L2.7: the bounds of the watchdog, and both checks in one `POLL`. -/
theorem test_poll_abandons_a_stale_frame :
    (after (.poll 103) (partialFrame 2 ready)).out = Outputs.empty ∧
    (after (.poll 104) (partialFrame 2 ready)).out.ev = [.idleTimeout] ∧
    (after (.poll 300) (partialFrame 2 inFlight)).out.ev = [.idleTimeout, .ackTimeout] := by decide +kernel

/-- L1.8 (d): the watchdog fires before the byte is looked at. -/
theorem test_rx_evaluates_the_watchdog_first :
    (afterAll [.rx 0x05 100, .rx 0x11 102, .rx 0xAA 105] State.reset).out =
      ⟨[0xAA, 1, 2, 3, 4, 5, 6, 7, 8], [], [.idleTimeout], none⟩ := by decide +kernel

/-- L2.7: the time wraps at `W_TIME` bits. -/
theorem test_time_wraps :
    (afterAll [.limit 1 4294967096, .poll 0] ready).out = Outputs.empty ∧
    (afterAll [.limit 1 4294967096, .poll 1] ready).out.ev = [.ackTimeout] := by decide +kernel

theorem test_setinit : (afterAll [.limit 0 1, .setinit, .limit 0 2] State.reset).out.tx = [0x03, 0x01, 0x00, 0x48] := by
  decide +kernel

/-- L1.4: the second reply is deferred until the link frees. -/
theorem test_reply :
    (after (.reply 0x20 [0xDE, 0xAD, 0xBE] 0) ready).out = ⟨[0x05, 0x20, 0xDE, 0xAD, 0xBE, 0x60, 0x91], [], [], some true⟩ ∧
    (afterAll [.reply 0x20 [0xDE, 0xAD, 0xBE] 0, .reply 0x21 [0x01] 5] ready).out = ⟨[], [], [], some true⟩ ∧
    (afterAll [.reply 0x20 [0xDE, 0xAD, 0xBE] 0, .reply 0x21 [0x01] 5, .rxAck0 110] ready).out.tx =
      [0x03, 0xA1, 0x01, 0xF8] := by decide +kernel

/-- L2.6: the refusals. -/
theorem test_reply_refused :
    ∀ p ∈ ([(0x20, []), (0x20, [1, 2]), (0x20, List.replicate 126 0), (0x80, [1])] : List (Byte × List Byte)),
      (after (.reply p.1 p.2 0) ready).out = ⟨[], [], [.replyRejected], some false⟩ := by decide +kernel

theorem test_limit :
    (after (.limit 0 0) ready).out.tx = [0x03, 0x01, 0x00, 0x48] ∧ inFlight.out.tx = [0x03, 0x01, 0x01, 0x20] ∧
    (after (.limit 3 0) ready).out.ev = [.badArgument] := by decide +kernel

/-- L2.6: the last flag wins. -/
theorem test_sense_merges :
    (afterAll [.sense 1 false 1, .sense 1 true 1, .rxAck0 2] inFlight).out.tx = [0x03, 0x82, 0x81, 0x50] := by
  decide +kernel

/-- P2: two completions in one frame. -/
theorem test_movedone_counts :
    (afterAll [.movedone 1, .movedone 1, .rxAck0 2] inFlight).out.tx = [0x03, 0x83, 0x02, 0x60] ∧
    saturatingSucc 255 = 255 ∧ saturatingSucc 254 = 255 := by decide +kernel

theorem test_temprdy :
    (after (.temprdy 3 0) ready).out.tx = [0x03, 0x04, 0x03, 0x70] ∧ (after (.temprdy 3 0) ready).src.tempRr = 4 ∧
    (after (.temprdy 3 1) State.reset).out = ⟨[], [], [.droppedUninit], none⟩ ∧
    (after (.temprdy 3 1) State.reset).src.tempRr = 4 := by decide +kernel

/-- P3: the move-resume signal goes before the audio-resume signal. -/
theorem test_resume_order :
    (afterAll [.movedone 2, .resume 1 3, .resume 0 4, .rxAck0 20, .rxAck1 30] inFlight).out.tx = [0x03, 0x05, 0x00, 0xA8] ∧
    (afterAll [.movedone 2, .resume 1 3, .resume 0 4, .rxAck0 20, .rxAck1 30, .rxAck0 40] inFlight).out.tx =
      [0x03, 0x85, 0x01, 0x68] ∧
    (after (.resume 2 0) ready).out.ev = [.badArgument] := by decide +kernel

/-- P3: the masks are ORed. -/
theorem test_autosleep_merges :
    (afterAll [.autosleep 0x05 2, .autosleep 0x02 2] inFlight).src.autosleepMask = 0x07 ∧
    (after (.autosleep 0x07 0) ready).out.tx = [0x03, 0x06, 0x07, 0x30] := by decide +kernel

theorem test_ping : (after (.ping 7 0) ready).out.tx = [0x03, 0x07, 0x07, 0x18] ∧
    (after (.ping 8 0) ready).out.ev = [.badArgument] := by decide +kernel

theorem test_reserved_selectors_do_nothing :
    ∀ i ∈ [Instr.reservedB, .reservedC, .reservedD, .reservedE, .reservedF], after i ready = { ready with out := Outputs.empty } := by
  intro i hi
  simp only [List.mem_cons, List.not_mem_nil, or_false] at hi
  rcases hi with rfl | rfl | rfl | rfl | rfl <;> rfl

/-- spec/60_exceptions.md R351. -/
theorem test_condition_codes : [Condition.malformedLength, .checksumMismatch, .duplicateFrame, .staleAck, .staleNack,
    .ackTimeout, .idleTimeout, .droppedUninit, .replyRejected, .badArgument].map Condition.code =
    [1, 2, 3, 4, 5, 6, 7, 8, 9, 10] := rfl

/-! ### Inbound bytes and frames -/

/-- L2.4. -/
theorem test_ack0 :
    (after (.rxAck0 22) inFlight).out = Outputs.empty ∧ (after (.rxAck0 22) inFlight).snd.outboundBusy = false ∧
    (after (.rxAck0 22) inFlight).snd.sendSequenceBit = true ∧
    (afterAll [.rxAck0 22, .rxAck0 23] inFlight).out.ev = [.staleAck] := by decide +kernel

theorem test_ack1_of_the_other_polarity_is_stale :
    (after (.rxAck1 20) inFlight).out = ⟨[], [], [.staleAck], none⟩ ∧ (after (.rxAck1 20) inFlight).snd.outboundBusy = true ∧
    (after (.rxAck1 20) inFlight).snd.sendSequenceBit = false := by decide +kernel

theorem test_nack :
    (after (.rxNack 21) inFlight).out = ⟨[0x03, 0x01, 0x01, 0x20], [], [], none⟩ ∧
    (after (.rxNack 21) inFlight).snd.sendTime = 21 ∧ (after (.rxNack 0) ready).out.ev = [.staleNack] := by decide +kernel

theorem test_idreq :
    (after (.rxIdreq 16) inFlight).out.tx = [0xAA, 1, 2, 3, 4, 5, 6, 7, 8] ∧
    (after (.rxIdreq 16) inFlight).snd.outboundBusy = true ∧ (after (.rxIdreq 16) inFlight).snd.sendTime = 10 := by
  decide +kernel

/-- L1.2, L2.3. -/
theorem test_illegal_lengths :
    ∀ i ∈ [Instr.rxBadlen01 false 0, .rxBadlen01 true 0, .rxBadlen2 0, .rxBadlen4 0, .rxBadlenHi 0x01 0, .rxBadlenHi 0x7F 0],
      (after i ready).out = ⟨[0x80], [], [.malformedLength], none⟩ ∧ (after i ready).asm.bytesAccumulated = 0 := by
  decide +kernel

theorem test_length_starts_a_frame :
    (after (.rxLen 0x7F 9) ready).asm.bytesAccumulated = 1 ∧ bufRead (after (.rxLen 0x7F 9) ready).asm.rxBuf 0 = 0x7F ∧
    (after (.rxLen 0x7F 9) ready).asm.lastByteTime = 9 ∧ (after (.rxLen 0x7F 9) ready).out = Outputs.empty := by decide +kernel

/-- L2.3: a control-code value inside a frame is data. -/
theorem test_control_code_inside_a_frame_is_data :
    (after (.rxData 0xB3 101) (partialFrame 1 inFlight)).asm.bytesAccumulated = 2 ∧
    (after (.rxData 0xB3 101) (partialFrame 1 inFlight)).out = Outputs.empty := by decide +kernel

/-- L1.3: one delivery, two ACKs of the same polarity. -/
theorem test_inbound_frame_and_its_copy :
    (after (.fInbound false 0x11 [0x41, 0x42, 0x43] [0x88, 0xF9] 1000) State.reset).out =
      ⟨[0xB3], [⟨0x11, [0x41, 0x42, 0x43]⟩], [], none⟩ ∧
    (afterAll [.fInbound false 0x11 [0x41, 0x42, 0x43] [0x88, 0xF9] 1000,
      .fInbound false 0x11 [0x41, 0x42, 0x43] [0x88, 0xF9] 1100] State.reset).out = ⟨[0xB3], [], [.duplicateFrame], none⟩ := by
  decide +kernel

/-- L2.5, L1.7: a frame of the other sequence bit, a corrupted check bit. -/
theorem test_inbound_frame_out_of_sequence_and_corrupted :
    (after (.fInbound true 0x11 [0x41, 0x42, 0x43] [0x20, 0x91] 0) State.reset).out = ⟨[0xAD], [], [.duplicateFrame], none⟩ ∧
    (after (.fInbound false 0x11 [0x41, 0x42, 0x43] [0x88, 0xE9] 0) State.reset).out =
      ⟨[0x80], [], [.checksumMismatch], none⟩ := by decide +kernel

/-- L1.6: the last check byte of the frame, F9, is tag 1 and five parity bits of 1. -/
theorem test_check_byte_completes_the_frame :
    (after (.checkByte 1 true true true true true 106) (partialFrame 6 State.reset)).out =
      ⟨[0xB3], [⟨0x11, [0x41, 0x42, 0x43]⟩], [], none⟩ := by decide +kernel

/-! ### Frame rows: the sources of P3, one at a time on an idle link -/

theorem test_frame_rows_transmit :
    (after (.fLimit false 1 0x20 5) (pendingOnly { quietSources with limitPending := 2 })).out.tx = [0x03, 0x01, 0x01, 0x20] ∧
    (after (.fSense false true 2 0x08 5) (pendingOnly { quietSources with sensePending := 4, senseFlag := 4 })).out.tx =
      [0x03, 0x02, 0x82, 0x08] ∧
    (after (.fMovecb false 255 0 5) (pendingOnly { quietSources with moveDoneCount := 255 })).out.tx.take 3 = [0x03, 0x03, 0xFF] ∧
    (after (.fTempcb false 2 0x18 5) (pendingOnly { quietSources with tempPending := 36 })).out.tx = [0x03, 0x04, 0x02, 0x18] ∧
    (after (.fReply false 0x10 [0x55] [0x40] 5) (pendingOnly { quietSources with
      replyPending := true, replyOp := 0x10, replyLen := 1, replyBuf := Vector.replicate 125 0x55 })).out.tx =
      [0x03, 0x10, 0x55, 0x40] := by decide +kernel

theorem test_more_frame_rows_transmit :
    (after (.fResume false false 0xA8 5) (pendingOnly { quietSources with resumeMovePending := true })).out.tx =
      [0x03, 0x05, 0x00, 0xA8] ∧
    (after (.fResume false true 0 5) (pendingOnly { quietSources with resumeAudioPending := true })).out.tx.take 3 =
      [0x03, 0x05, 0x01] ∧
    (after (.fAutosleep false 7 0x30 5) (pendingOnly { quietSources with autosleepPending := true, autosleepMask := 7 })).out.tx =
      [0x03, 0x06, 0x07, 0x30] ∧
    (after (.fPong false 7 0x18 5) (pendingOnly { quietSources with pingPending := 0x80 })).out.tx = [0x03, 0x07, 0x07, 0x18] ∧
    (after (.fPong false 6 0 5) (pendingOnly { quietSources with pingPending := 0x80 })).out = Outputs.empty := by decide +kernel

theorem test_identification_response :
    (after (.idResponse [1, 2, 3, 4, 5, 6, 7, 8]) inFlight).out = ⟨[0xAA, 1, 2, 3, 4, 5, 6, 7, 8], [], [], none⟩ ∧
    (after (.idResponse [1, 2, 3, 4, 5, 6, 7, 8]) inFlight).snd.sendTime = 10 := by decide +kernel

/-! ### The step -/

theorem test_step_runs_the_word_presented :
    (afterStep (State.reset.withFetchWord 8 0x2)).initialized = true ∧
    (afterStep (State.reset.withFetchWord 8 0xAA)).out.tx = [0xAA, 1, 2, 3, 4, 5, 6, 7, 8] ∧
    (afterStep (State.reset.withFetchWord 8 0x4)).out.ev = [.droppedUninit] := by decide +kernel

/-! ### Witnesses: states and operands that meet the hypotheses of the statements, at the bounds of each clause -/

/-- Whether an instruction gives a next state here. -/
def completes (i : Instr) (s : State) : Bool :=
  match exec i s with
  | .next _ => true
  | .fault _ => false
  | .refused _ => false

/-- Whether a step gives a next state here. -/
def stepCompletes (s : State) : Bool :=
  match step s with
  | .next _ => true
  | .fault _ => false
  | .refused _ => false

theorem exec_eq_after {i : Instr} {s : State} (h : completes i s = true) : exec i s = .next (after i s) := by
  unfold completes at h
  unfold after
  split at h
  · assumption
  · cases h
  · cases h

theorem step_eq_afterStep {s : State} (h : stepCompletes s = true) : step s = .next (afterStep s) := by
  unfold stepCompletes at h
  unfold afterStep
  split at h
  · assumption
  · cases h
  · cases h

/-- For `DecodeOfEncodeIsTheInstruction`. -/
theorem witness_well_formed_instruction : defaultConfig.Legal ∧
    wellFormed defaultConfig (.fReply false 0x20 [0xDE, 0xAD, 0xBE] [0x60, 0x91] 0) = true ∧
    wellFormed defaultConfig (.rxData 0xB3 (2 ^ 32 - 1)) = true :=
  ⟨test_default_parameters_are_legal, by decide +kernel, by decide +kernel⟩

/-- For `InboundByteIsDecodedByTheTable`: a frame in progress at the bound of the watchdog and one tick later, and
each class of a first byte at its bounds. -/
theorem witness_first_bytes : defaultConfig.Legal ∧
    (partialFrame 1 ready).decodeUnit (.inboundByte 0x80 102) = .ok (.rxData 0x80 102) ∧
    (partialFrame 1 ready).decodeUnit (.inboundByte 0x80 103) = .ok (.rxNack 103) ∧
    (highByte 0x01 = 0x81 ∧ isControl defaultConfig (highByte 0x01) = false) ∧
    (highByte 0x7F = 0xFF ∧ isControl defaultConfig (highByte 0x7F) = false) ∧
    (lengthByte 3 = 3 ∧ legalLength (lengthByte 3) = true) ∧ (lengthByte 5 = 5 ∧ legalLength (lengthByte 5) = true) ∧
    (lengthByte 127 = 127 ∧ legalLength (lengthByte 127) = true) :=
  ⟨test_default_parameters_are_legal, by decide +kernel⟩

/-- For `CheckByteHasTagAndRowParities`: the first and the last row of the matrix. -/
theorem witness_rows_of_the_matrix : defaultMatrix.rows[0]? = some ⟨0xC0, 0xC3, 0xFF, 0x09⟩ ∧
    defaultMatrix.rows[4]? = some ⟨0x4B, 0xDC, 0xE2, 0x83⟩ := ⟨rfl, rfl⟩

/-- For `EverySingleBitErrorIsDetected`: legal parameters, and two group numbers with different tags. -/
theorem witness_tags_differ : defaultConfig.Legal ∧ (7 : Byte).toNat % 8 ≠ (8 : Byte).toNat % 8 :=
  ⟨test_default_parameters_are_legal, by decide⟩

/-- For `MaskFormVerifiesTheSameBytes`: the default matrix has the rows that the statement asks for. -/
theorem witness_matrix_of_the_mask_form : ∀ r row, defaultMatrix.rows[r]? = some row →
    ∀ i, 3 ≤ i → i < 8 → row.m3.getLsbD i = decide (i = r + 3) := by
  intro r row h i h3 h8
  have hall : ∀ r < 5, ∀ row ∈ defaultMatrix.rows[r]?, ∀ i < 8, 3 ≤ i → row.m3.getLsbD i = decide (i = r + 3) := by
    decide +kernel
  have hr : r < 5 := (List.getElem?_eq_some_iff.mp h).1
  exact hall r hr row h i h8 h3

/-- For `VerifyFramePassesExactlyTheUncorruptedFrames`: buffers whose length byte is the least and the greatest. -/
theorem witness_legal_length_byte :
    legalLength (bufRead (bufWrite (Vector.replicate 170 (0 : Byte)) 0 3) 0) = true ∧
    legalLength (bufRead (bufWrite (Vector.replicate 170 (0 : Byte)) 0 127) 0) = true := by decide +kernel

/-- A buffer that begins with these bytes. -/
def bufferOf (f : List Byte) : Vector Byte 170 := bufWriteSlice (Vector.replicate 170 0) 0 f

/-- Its last clause: the worked example of R158 passes, and fails with a bit of its first byte after the length
flipped, and with one of its last check byte (L1.7). -/
theorem witness_corrupted_frame :
    verifyFrame defaultConfig.matrix (bufferOf [0x05, 0x11, 0x41, 0x42, 0x43, 0x88, 0xF9]) = true ∧
    verifyFrame defaultConfig.matrix (bufferOf [0x05, 0x10, 0x41, 0x42, 0x43, 0x88, 0xF9]) = false ∧
    verifyFrame defaultConfig.matrix (bufferOf [0x05, 0x11, 0x41, 0x42, 0x43, 0x88, 0xE9]) = false ∧
    (0xF9 : Byte) ^^^ BitVec.twoPow 8 4 = 0xE9 ∧ need (0x05 : Byte).toNat = 7 := by decide +kernel

/-- For `RowOfAnInboundByteIsTheOperationRx`: a first byte, a byte inside a frame, and a check byte that an idle
assembler takes for a control code. -/
theorem witness_inbound_rows :
    State.reset.decodeUnit (.inboundByte 0xB3 7) = .ok (.rxAck0 7) ∧
    (partialFrame 1 ready).decodeUnit (.inboundByte 0xB3 101) = .ok (.rxData 0xB3 101) ∧
    (after (decodeCheck 0xB3 20) inFlight).snd.outboundBusy = false := by decide +kernel

/-- For `LegalLengthStartsAFrame`. -/
theorem witness_legal_lengths : State.reset.cfg.Legal ∧ State.reset.asm.bytesAccumulated = 0 ∧
    legalLength (lengthByte 3) = true ∧ legalLength (lengthByte 127) = true :=
  ⟨test_default_parameters_are_legal, by decide +kernel⟩

/-- For `IllegalLengthIsNacked`. -/
theorem witness_illegal_lengths : State.reset.cfg.Legal ∧ State.reset.asm.bytesAccumulated = 0 ∧
    (isControl State.reset.cfg 4 = false ∧ legalLength 4 = false) ∧
    (isControl State.reset.cfg 0xFF = false ∧ legalLength 0xFF = false) ∧
    isControl State.reset.cfg (highByte 0x7F) = false :=
  ⟨test_default_parameters_are_legal, by decide +kernel⟩

/-- For `ByteInsideAFrameIsData`: the second byte of a frame at the bound of the watchdog, and the last but one. -/
theorem witness_byte_inside_a_frame :
    (AssemblerInv (partialFrame 1 ready) ∧ (partialFrame 1 ready).asm.bytesAccumulated ≠ 0 ∧
      elapsed defaultConfig 102 (partialFrame 1 ready).asm.lastByteTime ≤ defaultConfig.tIdle ∧
      (partialFrame 1 ready).asm.bytesAccumulated.toNat + 1 < need (bufRead (partialFrame 1 ready).asm.rxBuf 0).toNat) ∧
    AssemblerInv (partialFrame 5 ready) ∧ (partialFrame 5 ready).asm.bytesAccumulated ≠ 0 ∧
      elapsed defaultConfig 105 (partialFrame 5 ready).asm.lastByteTime ≤ defaultConfig.tIdle ∧
      (partialFrame 5 ready).asm.bytesAccumulated.toNat + 1 < need (bufRead (partialFrame 5 ready).asm.rxBuf 0).toNat := by
  unfold AssemblerInv
  decide +kernel

/-- For `CompletedFrameIsJudgedByCodecThenSequenceBit`: the last byte, accepted, corrupted, and duplicate. -/
theorem witness_last_byte_of_a_frame :
    (∀ s ∈ [partialFrame 6 ready, partialFrame 6 { ready with receiveSequenceBit := true }],
      (s.asm.bytesAccumulated ≠ 0 → legalLength (bufRead s.asm.rxBuf 0) = true ∧
        s.asm.bytesAccumulated.toNat < need (bufRead s.asm.rxBuf 0).toNat) ∧ s.asm.bytesAccumulated ≠ 0 ∧
      elapsed s.cfg 106 s.asm.lastByteTime ≤ s.cfg.tIdle ∧
      s.asm.bytesAccumulated.toNat + 1 = need (bufRead s.asm.rxBuf 0).toNat) ∧
    (after (.rxData 0xF9 106) (partialFrame 6 ready)).out.deliver ≠ [] ∧
    (after (.rxData 0xE9 106) (partialFrame 6 ready)).out.ev = [.checksumMismatch] ∧
    (after (.rxData 0xF9 106) (partialFrame 6 { ready with receiveSequenceBit := true })).out.ev = [.duplicateFrame] := by
  decide +kernel

/-- For `FrameIsDeliveredOnceAndItsCopyOnlyAcknowledged`. -/
theorem witness_inbound_frame :
    wellFormed State.reset.cfg (.fInbound State.reset.receiveSequenceBit 0x11 [0x41, 0x42, 0x43] [0x88, 0xF9] 1000) = true ∧
    State.reset.cfg.Legal ∧ 1 ≤ State.reset.cfg.tIdle ∧ State.reset.asm.bytesAccumulated = 0 :=
  ⟨by decide +kernel, test_default_parameters_are_legal, by decide, rfl⟩

/-- For `DeliveryAndReceiveBitFlipGoTogether`: an operation that delivers, and one that does not. -/
theorem witness_delivery :
    (isSingle (.rx 0xF9 106) = true ∧ Instr.rx 0xF9 106 ≠ .reset ∧
      exec (.rx 0xF9 106) (partialFrame 6 ready) = .next (after (.rx 0xF9 106) (partialFrame 6 ready)) ∧
      (after (.rx 0xF9 106) (partialFrame 6 ready)).out.deliver ≠ []) ∧
    isSingle .setinit = true ∧ exec .setinit ready = .next (after .setinit ready) :=
  ⟨⟨rfl, by decide, rfl, by decide +kernel⟩, rfl, rfl⟩

/-- For `OtherOperationsLeaveTheAssembler`: a notification while a frame is being assembled. -/
theorem witness_other_operation : inboundByteOf ready.cfg (.limit 2 101) = none ∧ isSingle (.limit 2 101) = true ∧
    Instr.limit 2 101 ≠ .reset ∧ (∀ now, Instr.limit 2 101 ≠ .poll now) ∧
    exec (.limit 2 101) (partialFrame 2 ready) = .next (after (.limit 2 101) (partialFrame 2 ready)) :=
  ⟨rfl, rfl, by decide, fun _ => nofun, exec_eq_after (by decide +kernel)⟩

/-- The frame in flight is well formed, so the sender's invariant holds in these states. -/
theorem witness_sender_invariant : SenderInv inFlight ∧ SenderInv (after (.movedone 11) inFlight) :=
  ⟨⟨nofun, fun _ => by decide +kernel⟩, ⟨nofun, fun _ => by decide +kernel⟩⟩

/-- For `MatchingAckFreesTheLink`. -/
theorem witness_matching_ack : inFlight.cfg.Legal ∧ inFlight.asm.bytesAccumulated = 0 ∧
    inFlight.snd.outboundBusy = true ∧ inFlight.snd.sendSequenceBit = false ∧ Quiet inFlight.src :=
  ⟨test_default_parameters_are_legal, by decide +kernel, by decide +kernel, by decide +kernel,
    ⟨by decide +kernel, by decide +kernel, by decide +kernel, by decide +kernel, by decide +kernel, by decide +kernel,
      by decide +kernel, by decide +kernel, by decide +kernel⟩⟩

/-- For `MatchingAckReleasesTheNextFrame`: one completed move waits for the link. -/
theorem witness_waiting_event : (after (.movedone 11) inFlight).cfg.Legal ∧ SenderInv (after (.movedone 11) inFlight) ∧
    (after (.movedone 11) inFlight).asm.bytesAccumulated = 0 ∧ (after (.movedone 11) inFlight).initialized = true ∧
    (after (.movedone 11) inFlight).snd.outboundBusy = true ∧ (after (.movedone 11) inFlight).snd.sendSequenceBit = false ∧
    (pick (after (.movedone 11) inFlight).cfg (after (.movedone 11) inFlight).src).map (fun x => (x.source, x.body)) =
      some (.movecb, [0x03, 0x03, 0x01]) :=
  ⟨test_default_parameters_are_legal, witness_sender_invariant.2, by decide +kernel⟩

/-- For `StaleAckIsIgnored`: no frame in flight, and one of the other polarity. -/
theorem witness_stale_ack : ready.cfg.Legal ∧ ready.asm.bytesAccumulated = 0 ∧ ready.snd.outboundBusy = false ∧
    inFlight.asm.bytesAccumulated = 0 ∧ inFlight.snd.outboundBusy = true ∧ inFlight.snd.sendSequenceBit ≠ true :=
  ⟨test_default_parameters_are_legal, by decide +kernel⟩

/-- For `NackRetransmitsOrIsStale` and `IdentificationIsServedWithoutAnyStateChange`: the link idle and busy. -/
theorem witness_first_byte_states : ready.cfg.Legal ∧ inFlight.cfg.Legal ∧ ready.asm.bytesAccumulated = 0 ∧
    ready.snd.outboundBusy = false ∧ inFlight.asm.bytesAccumulated = 0 ∧ inFlight.snd.outboundBusy = true :=
  ⟨test_default_parameters_are_legal, test_default_parameters_are_legal, by decide +kernel⟩

/-- For `ElapsedTimeIsTheModularDifference`: without and with a wrap (L2.7). -/
theorem witness_elapsed : elapsed defaultConfig 211 10 = 201 ∧ elapsed defaultConfig 0 0xFFFFFF38 = 200 ∧
    211 < 2 ^ defaultConfig.wTime ∧ 0xFFFFFF38 < 2 ^ defaultConfig.wTime := by decide +kernel

/-- For `LateByteIsAFirstByte`: one tick more than the bound. -/
theorem witness_late_byte : (partialFrame 1 ready).asm.bytesAccumulated ≠ 0 ∧
    (partialFrame 1 ready).cfg.tIdle < elapsed (partialFrame 1 ready).cfg 103 (partialFrame 1 ready).asm.lastByteTime := by
  decide +kernel

/-- For the three statements on a busy link: the highest axis, channel and slot. -/
theorem witness_busy_link : inFlight.snd.outboundBusy = true ∧ (2 : Byte).toNat < inFlight.cfg.nAxes ∧
    (7 : Byte).toNat < inFlight.cfg.nTemps ∧ (7 : Byte).toNat ≤ 7 ∧ inFlight.src.replyPending = false ∧
    ∀ n ∈ [1, 3, 125], legalLen (2 + (List.replicate n (0 : Byte)).length) = true := by decide +kernel

/-- For `ReplyIsRefusedWithoutAStateChange`: the slot occupied, the lengths and the opcode at their bounds. -/
theorem witness_refused_reply : (after (.reply 0x21 [0x01] 11) inFlight).src.replyPending = true ∧
    ([] : List Byte).length = 0 ∧ [(1 : Byte), 2].length = 2 ∧ 125 < (List.replicate 126 (0 : Byte)).length ∧
    127 < (0x80 : Byte).toNat := by decide +kernel

/-- For `ArgumentOutOfRangeChangesNothing`: the least argument out of each range. -/
theorem witness_argument_out_of_range : ready.cfg.nAxes ≤ (3 : Byte).toNat ∧ ready.cfg.nTemps ≤ (8 : Byte).toNat ∧
    1 < (2 : Byte).toNat ∧ 7 < (8 : Byte).toNat := by decide +kernel

/-- For the statements on a ready link: the highest axis, channel and slot, and payloads at the bounds. -/
theorem witness_ready : ready.cfg.Legal ∧ Ready ready ∧ (2 : Byte).toNat < ready.cfg.nAxes ∧
    (7 : Byte).toNat < ready.cfg.nTemps ∧ (7 : Byte).toNat ≤ 7 ∧
    ∀ n ∈ [1, 3, 125], legalLen (2 + (List.replicate n (0 : Byte)).length) = true :=
  ⟨test_default_parameters_are_legal, ⟨rfl, rfl, ⟨rfl, rfl, rfl, rfl, rfl, rfl, rfl, rfl, rfl⟩⟩, by decide +kernel⟩

/-- For `UninitializedCoreDropsEveryEvent`. -/
theorem witness_unready : Unready State.reset ∧ (2 : Byte).toNat < State.reset.cfg.nAxes ∧
    (7 : Byte).toNat < State.reset.cfg.nTemps ∧ legalLen (2 + [(1 : Byte)].length) = true :=
  ⟨⟨rfl, rfl, ⟨rfl, rfl, rfl, rfl, rfl, rfl, rfl, rfl, rfl⟩⟩, by decide +kernel⟩

/-- Each source alone, at the highest index it has, with the source and body that are picked. -/
def sourceTable : List (Sources × Source × List Byte) :=
  [({ quietSources with limitPending := 4 }, .limit, [0x03, 0x01, 0x02]),
   ({ quietSources with sensePending := 4, senseFlag := 4 }, .sense, [0x03, 0x02, 0x82]),
   ({ quietSources with moveDoneCount := 255 }, .movecb, [0x03, 0x03, 0xFF]),
   ({ quietSources with tempPending := 0x80, tempRr := 7 }, .tempcb, [0x03, 0x04, 0x07]),
   ({ quietSources with replyPending := true, replyOp := 0x20, replyLen := 1 }, .reply, [0x03, 0x20, 0x00]),
   ({ quietSources with resumeMovePending := true }, .resumeMove, [0x03, 0x05, 0x00]),
   ({ quietSources with resumeAudioPending := true }, .resumeAudio, [0x03, 0x05, 0x01]),
   ({ quietSources with autosleepPending := true, autosleepMask := 0x07 }, .autosleep, [0x03, 0x06, 0x07]),
   ({ quietSources with pingPending := 0x80 }, .pong, [0x03, 0x07, 0x07])]

/-- For the statements about `PICK()`: every source is picked somewhere. -/
theorem witness_every_source_is_picked : ∀ e ∈ sourceTable,
    (pick defaultConfig e.1).map (fun x => (x.source, x.body)) = some e.2 := by decide +kernel

/-- For `FrameRowTransmitsThePickedEvent`: the same states meet its other hypotheses. -/
theorem witness_frame_rows : ∀ e ∈ sourceTable, SenderInv (pendingOnly e.1) ∧ (pendingOnly e.1).initialized = true ∧
    (pendingOnly e.1).snd.outboundBusy = false := by
  intro e he
  refine ⟨⟨?_, nofun⟩, rfl, rfl⟩
  revert e
  decide +kernel

/-- An uninitialized core with its link idle and these sources (a state no run reaches unless nothing is pending). -/
def uninitialized (q : Sources) : State := { State.reset with src := q }

/-- The frame row of each entry of `sourceTable`, in its order. -/
def frameRows : List Instr :=
  [.fLimit false 2 0 5, .fSense false true 2 0 5, .fMovecb false 255 0 5, .fTempcb false 7 0 5,
   .fReply false 0x20 [0x00] [0, 0] 5, .fResume false false 0 5, .fResume false true 0 5, .fAutosleep false 7 0 5,
   .fPong false 7 0 5]

/-- For `FrameRowTransmitsNothingWhereTheMultiplexerWouldNot`: every frame row has a source and a body, and is picked in
the state with that source alone, so the last clause is met there with `initialized` 0. -/
theorem witness_frame_row_events :
    frameRows.map (frameRowEvent defaultConfig) = sourceTable.map (fun e => some e.2) ∧
    ∀ e ∈ sourceTable, (uninitialized e.1).initialized = false ∧ (uninitialized e.1).snd.outboundBusy = false ∧
      (pick (uninitialized e.1).cfg (uninitialized e.1).src).map (fun x => (x.source, x.body)) = some e.2 := by
  decide +kernel

/-- Its other clauses: a busy link, an idle link where nothing is picked (as in every reachable state, R55), and one
where another event is picked. -/
theorem witness_frame_row_without_effect : inFlight.snd.outboundBusy = true ∧
    (pick ready.cfg ready.src).isNone = true ∧
    (pick defaultConfig { quietSources with limitPending := 4, moveDoneCount := 1 }).map (fun x => x.source) = some .limit := by
  decide +kernel

/-- The model's choice of log entry 8: uninitialized, the row discards its own event and leaves the other one pending. -/
theorem test_frame_row_uninitialized :
    after (.fLimit false 2 0 5) (uninitialized { quietSources with limitPending := 4, moveDoneCount := 1 }) =
      { uninitialized { quietSources with moveDoneCount := 1 } with out := ⟨[], [], [.droppedUninit], none⟩ } := by
  decide +kernel

/-- For `UninitializedMultiplexerDiscardsEverything`: five events of three sources. The temperature channels 6, 7 and 1
are served in this order from `temp_rr` 5 on, so the pointer ends at 2 (R266). -/
theorem witness_uninitialized_multiplexer :
    let q := { quietSources with limitPending := 4, moveDoneCount := 9, tempPending := 0xC2, tempRr := 5 }
    (uninitialized q).initialized = false ∧ (uninitialized q).snd.outboundBusy = false ∧
    pendingUnits defaultConfig q = 5 ∧
    ((uninitialized q).mux 5).src = { quietSources with tempRr := 2 } := by decide +kernel

/-- For `PreparedBodyIsAWellFormedFrame`: the shortest and the longest payload. -/
theorem witness_payload_lengths : legalLen (2 + [(0x55 : Byte)].length) = true ∧
    legalLen (2 + (List.replicate 125 (0x55 : Byte)).length) = true := by decide +kernel

/-- For the two statements on the frame in flight and the busy clause of
`FrameRowTransmitsNothingWhereTheMultiplexerWouldNot`: its ACK, and a `POLL` that transmits it again. -/
theorem witness_frame_in_flight : inFlight.snd.outboundBusy = true ∧ isSingle (.rxAck0 20) = true ∧
    Instr.rxAck0 20 ≠ .reset ∧ exec (.rxAck0 20) inFlight = .next (after (.rxAck0 20) inFlight) ∧
    isSingle (.poll 211) = true ∧ exec (.poll 211) inFlight = .next (after (.poll 211) inFlight) ∧
    (after (.poll 211) inFlight).snd.sendSequenceBit = inFlight.snd.sendSequenceBit :=
  ⟨by decide +kernel, rfl, by decide, rfl, rfl, rfl, by decide +kernel⟩

/-- For `StepRunsTheDecodedInstruction`: a unit that decodes, and one that is rejected. -/
theorem witness_presented_units :
    (State.reset.withFetchWord 8 0x2).input = [.request (plainRequest 0x2 0 0 0)] ∧
    State.reset.decodeUnit (.request (plainRequest 0x2 0 0 0)) = .ok .setinit ∧
    State.reset.decodeUnit (.rawResponse []) = .error .notIdentification := by decide +kernel

/-- For `ParametersNeverChange`. -/
theorem witness_reset_has_a_next_state : exec .reset working = .next (after .reset working) := rfl

/-- A map whose bits from `n` up are 0: checked below 256. -/
theorem no_bits_beyond {m : BitMap} {n : Nat} (h : ∀ a < 256, n ≤ a → m.getLsbD a = false) :
    ∀ a, n ≤ a → m.getLsbD a = false := by
  intro a ha
  by_cases h' : a < 256
  · exact h a h' ha
  · exact BitVec.getLsbD_of_ge _ _ (by omega)

/-- For the statements about `Inv` and what every step keeps: a state with a frame in flight, a partial frame and
pending events meets every invariant. -/
theorem witness_invariants : Inv working where
  legal := by
    rw [show working.cfg = defaultConfig by decide +kernel]
    exact test_default_parameters_are_legal
  assembler := by
    unfold AssemblerInv
    decide +kernel
  sender := ⟨by decide +kernel, by decide +kernel⟩
  sources := by
    refine ⟨fun a ha => ⟨?_, ?_, ?_⟩, fun a ha => ?_, by decide +kernel, fun h => ?_⟩
    · rw [show working.cfg.nAxes = 3 by decide +kernel] at ha
      exact no_bits_beyond (by decide +kernel) a ha
    · rw [show working.cfg.nAxes = 3 by decide +kernel] at ha
      exact no_bits_beyond (by decide +kernel) a ha
    · rw [show working.cfg.nAxes = 3 by decide +kernel] at ha
      exact no_bits_beyond (by decide +kernel) a ha
    · rw [show working.cfg.nTemps = 8 by decide +kernel] at ha
      exact no_bits_beyond (by decide +kernel) a ha
    · exact absurd h (by decide +kernel)
  mode := by
    unfold ModeInv
    decide +kernel
  times := by
    unfold TimesInv
    decide +kernel

/-- It has a next state, in which the third byte of the frame is stored. -/
theorem witness_step_of_the_invariants : step working = .next (afterStep working) ∧
    (afterStep working).asm.bytesAccumulated = 3 := ⟨step_eq_afterStep (by decide +kernel), by decide +kernel⟩

/-- For `ConditionsOfAnOperationAreThoseOfTheTable` and `OneOperationEmitsAtMostOneUnit`: an operation on that
state that emits and signals. -/
theorem witness_operation_on_the_invariants : isSingle (.poll 300) = true ∧
    exec (.poll 300) working = .next (after (.poll 300) working) ∧
    (after (.poll 300) working).out = ⟨[0x03, 0x01, 0x01, 0x20], [], [.idleTimeout, .ackTimeout], none⟩ :=
  ⟨rfl, rfl, by decide +kernel⟩

/-- For `OperationsOfOneInstantAreOrdered`: units with and without the reset input. -/
theorem witness_units_of_one_instant :
    serialize [.request (plainRequest 0 0 0 5), .resetLine] = [.resetLine] ∧
    serialize [.request (plainRequest 0 0 0 5), .request (plainRequest 4 1 0 5), .inboundByte 0xB3 5] =
      [.inboundByte 0xB3 5, .request (plainRequest 4 1 0 5), .request (plainRequest 0 0 0 5)] := by decide +kernel

end Sys2Proof.Tests
end

section
/-!
The row of an inbound byte (spec/30_encoding.md R110). Whether the byte is data is settled by the watchdog; the row
of a first byte is then the round trip of encoding and decoding, read with the sampled time.
-/

namespace Sys2Proof.Machine

/-- A byte is no first byte exactly when a frame is in progress that the watchdog does not abandon (R110, R331). -/
theorem idleAt_eq_false_iff {s : State} {now : Tick} : s.idleAt now = false ↔
    s.asm.bytesAccumulated ≠ 0 ∧ elapsed s.cfg now s.asm.lastByteTime ≤ s.cfg.tIdle := by
  cases hs : s.stalled now with
  | true =>
    obtain ⟨-, hlate⟩ := stalled_iff.mp hs
    simp [State.idleAt, watchdog_stalled hs, hlate]
  | false =>
    have hfresh := mt stalled_iff.mpr (Bool.eq_false_iff.mp hs)
    simpa [State.idleAt, watchdog_fresh hs] using hfresh

theorem timeOk_sampled (c : Config) (now : Tick) : timeOk c (sampled c now) = true :=
  decide_eq_true (Nat.mod_lt _ (Nat.two_pow_pos _))

/-- The decoder sees the sampled time of a byte only (R20). -/
theorem decode_inboundByte_sampled (c : Config) (idle : Bool) (b : Byte) (now : Tick) :
    decode c idle (.inboundByte b (sampled c now)) = decode c idle (.inboundByte b now) := by
  simp only [decode, timeField, sampled, Nat.mod_mod]

/-- A byte has the row that is encoded by it at its sampled time, if the row belongs to the state of the assembler. -/
theorem decodeUnit_inboundByte {s : State} {b : Byte} {now : Tick} {i : Instr} (hc : s.cfg.Legal)
    (hround : Laws.EncodeDecode.Statement i) (hidle : s.idleAt now = decodesIdle i) (hwf : wellFormed s.cfg i = true)
    (henc : encode s.cfg i = .inboundByte b (sampled s.cfg now)) : s.decodeUnit (.inboundByte b now) = .ok i := by
  have hdec : decode s.cfg (decodesIdle i) (encode s.cfg i) = .ok i := hround s.cfg hc hwf
  rwa [henc, decode_inboundByte_sampled, ← hidle] at hdec

open Laws.EncodeDecode in
/-- Settles O3: `RX.DATA` when the assembler is busy after the watchdog, else the row of each class of a first byte. -/
theorem inboundByteIsDecodedByTheTable : Obligations.InboundByteIsDecodedByTheTable := by
  intro s b now hc t row
  have ht : timeOk s.cfg t = true := timeOk_sampled s.cfg now
  split
  next hbusy => exact decodeUnit_inboundByte hc (rxData b t) (idleAt_eq_false_iff.mpr hbusy) ht rfl
  next hfirst =>
    have hidle : s.idleAt now = true := Bool.eq_true_of_not_eq_false (mt idleAt_eq_false_iff.mp hfirst)
    refine ⟨?ack0, ?ack1, ?nack, ?idreq, ?zero, ?one, ?two, ?four, ?high, ?length⟩
    case ack0 => rintro rfl; exact decodeUnit_inboundByte hc (rxAck0 t) hidle ht rfl
    case ack1 => rintro rfl; exact decodeUnit_inboundByte hc (rxAck1 t) hidle ht rfl
    case nack => rintro rfl; exact decodeUnit_inboundByte hc (rxNack t) hidle ht rfl
    case idreq => rintro rfl; exact decodeUnit_inboundByte hc (rxIdreq t) hidle ht rfl
    case zero => rintro rfl; exact decodeUnit_inboundByte hc (rxBadlen01 false t) hidle ht rfl
    case one => rintro rfl; exact decodeUnit_inboundByte hc (rxBadlen01 true t) hidle ht rfl
    case two => rintro rfl; exact decodeUnit_inboundByte hc (rxBadlen2 t) hidle ht rfl
    case four => rintro rfl; exact decodeUnit_inboundByte hc (rxBadlen4 t) hidle ht rfl
    case high =>
      rintro v rfl hcontrol
      exact decodeUnit_inboundByte hc (rxBadlenHi v t) hidle (by simp [wellFormed, ht, hcontrol]) rfl
    case length =>
      rintro v rfl hlegal
      exact decodeUnit_inboundByte hc (rxLen v t) hidle (by simp [wellFormed, ht, hlegal]) rfl

end Sys2Proof.Machine
end

section
/-!
Error detection of the Parity Codec (spec/40_parity_codec.md R151, R157). The check bits are linear over exclusive
or, so corrupted data bytes verify exactly when the syndrome, the check bit `checkBit r e0 e1 e2 0` of the error
pattern alone, is 0 in every row `r`. R153 (a) gives each single-bit error a row whose syndrome is 1.
-/

namespace Sys2Proof.Machine

/-- Settles O4: the halving shifts collect the bits in the order in which the list is folded. -/
theorem foldIsTheParityOfAllBits : Obligations.FoldIsTheParityOfAllBits := by
  intro v
  rw [fold_eq_bits]
  simp only [List.range_succ, List.range_zero, List.nil_append, List.cons_append, List.foldl_cons, List.foldl_nil,
    Bool.false_xor]

/-- The parity of selected bits is linear, whatever the mask (R157). -/
theorem fold_xor_and (a b m : Byte) : fold ((a ^^^ b) &&& m) = (fold (a &&& m) ^^ fold (b &&& m)) := by
  have hdistrib : (a ^^^ b) &&& m = (a &&& m) ^^^ (b &&& m) := by
    apply BitVec.eq_of_getLsbD_eq
    intro i _
    simp only [BitVec.getLsbD_and, BitVec.getLsbD_xor, Bool.and_xor_distrib_right]
  rw [hdistrib, fold_xor]

/-- An error in the data bytes changes the check bit of a row by the syndrome of the row. -/
theorem checkBit_xor (r : ParityRow) (d0 d1 d2 e0 e1 e2 k : Byte) :
    checkBit r (d0 ^^^ e0) (d1 ^^^ e1) (d2 ^^^ e2) k = (checkBit r d0 d1 d2 k ^^ checkBit r e0 e1 e2 0) := by
  have hzero : fold (0 &&& r.m3) = false := by rw [BitVec.ofNat_eq_ofNat, BitVec.zero_and]; rfl
  simp only [checkBit, fold_xor, fold_xor_and, hzero, Bool.false_xor, Bool.xor_assoc, Bool.xor_left_comm,
    Bool.xor_comm]

theorem checkBit_twoPow_m0 (r : ParityRow) {i : Nat} (hi : i < 8) :
    checkBit r (BitVec.twoPow 8 i) 0 0 0 = r.m0.getLsbD i := by simp [checkBit, fold_and_twoPow _ hi]

theorem checkBit_twoPow_m1 (r : ParityRow) {i : Nat} (hi : i < 8) :
    checkBit r 0 (BitVec.twoPow 8 i) 0 0 = r.m1.getLsbD i := by simp [checkBit, fold_and_twoPow _ hi]

theorem checkBit_twoPow_m2 (r : ParityRow) {i : Nat} (hi : i < 8) :
    checkBit r 0 0 (BitVec.twoPow 8 i) 0 = r.m2.getLsbD i := by simp [checkBit, fold_and_twoPow _ hi]

/-- Two groups with the same index have the same check byte exactly when all their check bits agree. -/
theorem encodeBlock_eq_iff {m : ParityMatrix} {d0 d1 d2 d0' d1' d2' idx : Byte} :
    encodeBlock m d0 d1 d2 idx = encodeBlock m d0' d1' d2' idx ↔
      ∀ r ∈ m.rows, checkBit r d0 d1 d2 (idx &&& 7) = checkBit r d0' d1' d2' (idx &&& 7) := by
  simp only [encodeBlock, packCheck_inj, true_and, ParityMatrix.rows, List.forall_mem_cons, List.not_mem_nil,
    false_implies, implies_true, and_true]

theorem eq_self_xor_iff (a b : Bool) : a = (a ^^ b) ↔ b = false := by
  revert a b
  decide

/-- Corrupted data bytes verify exactly when every syndrome is 0. -/
theorem verifyBlock_xor_iff {m : ParityMatrix} {d0 d1 d2 e0 e1 e2 idx : Byte} :
    verifyBlock m (d0 ^^^ e0) (d1 ^^^ e1) (d2 ^^^ e2) (encodeBlock m d0 d1 d2 idx) idx = true ↔
      ∀ r ∈ m.rows, checkBit r e0 e1 e2 0 = false := by
  simp only [verifyBlock_iff, encodeBlock_eq_iff, checkBit_xor, eq_self_xor_iff]

/-- One syndrome of 1 is enough to detect an error. -/
theorem verifyBlock_xor_eq_false {m : ParityMatrix} {r : ParityRow} {e0 e1 e2 : Byte} (d0 d1 d2 idx : Byte)
    (hr : r ∈ m.rows) (hone : checkBit r e0 e1 e2 0 = true) :
    verifyBlock m (d0 ^^^ e0) (d1 ^^^ e1) (d2 ^^^ e2) (encodeBlock m d0 d1 d2 idx) idx = false := by
  rw [Bool.eq_false_iff, Ne, verifyBlock_xor_iff]
  intro hzero
  exact Bool.false_ne_true ((hzero r hr).symm.trans hone)

/-- The data bytes determine the check byte, so any flip in it is detected. -/
theorem verifyBlock_check_twoPow_eq_false (m : ParityMatrix) (d0 d1 d2 idx : Byte) {i : Nat} (hi : i < 8) :
    verifyBlock m d0 d1 d2 (encodeBlock m d0 d1 d2 idx ^^^ BitVec.twoPow 8 i) idx = false := by
  rw [Bool.eq_false_iff, Ne, verifyBlock_iff]
  intro hsame
  have hbit := congrArg (BitVec.getLsbD · i) hsame
  simp [hi] at hbit

/-- A check byte carries the tag of its group, so a group with another tag rejects it. -/
theorem verifyBlock_other_tag_eq_false (m : ParityMatrix) (d0 d1 d2 : Byte) {idx idx' : Byte}
    (htag : idx'.toNat % 8 ≠ idx.toNat % 8) :
    verifyBlock m d0 d1 d2 (encodeBlock m d0 d1 d2 idx) idx' = false := by
  rw [Bool.eq_false_iff, Ne, verifyBlock_iff]
  intro hsame
  have hlow : idx.setWidth 3 = idx'.setWidth 3 := by
    simpa only [encodeBlock_tag] using congrArg (BitVec.setWidth 3) hsame
  have hmod := congrArg BitVec.toNat hlow
  simp only [BitVec.toNat_setWidth] at hmod
  exact htag hmod.symm

/-- Settles O6: a flipped data bit makes the syndrome 1 in a row that selects it, which R153 (a) provides. -/
theorem everySingleBitErrorIsDetected : Obligations.EverySingleBitErrorIsDetected := by
  intro c d0 d1 d2 idx hc k
  refine ⟨verifyBlock_iff.mpr rfl, ?flips, fun idx' htag => verifyBlock_other_tag_eq_false _ d0 d1 d2 htag⟩
  intro i hi
  obtain ⟨⟨r0, hr0, hm0⟩, ⟨r1, hr1, hm1⟩, ⟨r2, hr2, hm2⟩⟩ := hc.matrix_covers i hi
  have h0 := verifyBlock_xor_eq_false d0 d1 d2 idx hr0 ((checkBit_twoPow_m0 r0 hi).trans hm0)
  have h1 := verifyBlock_xor_eq_false d0 d1 d2 idx hr1 ((checkBit_twoPow_m1 r1 hi).trans hm1)
  have h2 := verifyBlock_xor_eq_false d0 d1 d2 idx hr2 ((checkBit_twoPow_m2 r2 hi).trans hm2)
  simp only [BitVec.ofNat_eq_ofNat, BitVec.xor_zero] at h0 h1 h2
  exact ⟨h0, h1, h2, verifyBlock_check_twoPow_eq_false _ d0 d1 d2 idx hi⟩

end Sys2Proof.Machine
end

section
/-!
The first byte of a frame (spec/41_frame_assembler.md R183, R184). A row that sub-decodes a byte is `RX` of that byte
(R128), so each statement is proved for `RX` and read off for the rows. The illegal lengths 0, 1, 2 and 4 have bit 7
clear, so they are no control codes (R107); every byte with bit 7 set is an illegal length (R101).
-/

namespace Sys2Proof.Machine

/-! ### The rows of a first byte are `RX` of it (R128) -/

theorem exec_rxLen_eq_rx (v : BitVec 7) (now : Tick) (s : State) :
    exec (.rxLen v now) s = exec (.rx (lengthByte v) now) s := rfl

theorem exec_rxBadlen01_eq_rx (low : Bool) (now : Tick) (s : State) :
    exec (.rxBadlen01 low now) s = exec (.rx (lowByte low) now) s := rfl

theorem exec_rxBadlen2_eq_rx (now : Tick) (s : State) : exec (.rxBadlen2 now) s = exec (.rx 2 now) s := rfl

theorem exec_rxBadlen4_eq_rx (now : Tick) (s : State) : exec (.rxBadlen4 now) s = exec (.rx 4 now) s := rfl

theorem exec_rxBadlenHi_eq_rx (low : BitVec 7) (now : Tick) (s : State) :
    exec (.rxBadlenHi low now) s = exec (.rx (highByte low) now) s := rfl

/-! ### Illegal lengths and control codes -/

theorem isControl_eq_false_of_low {c : Config} (hc : c.Legal) {b : Byte} (hb : b.getLsbD 7 = false) :
    isControl c b = false := by
  obtain ⟨h0, h1, h2, h3⟩ := Codes.ne_of_low hc hb
  simp only [isControl, Bool.or_eq_false_iff, beq_eq_false_iff_ne]
  exact ⟨⟨⟨h0, h1⟩, h2⟩, h3⟩

theorem legalLength_eq_false_of_high {b : Byte} (hb : b.getLsbD 7 = true) : legalLength b = false := by
  rw [Bool.eq_false_iff]
  intro hlegal
  exact Bool.false_ne_true ((low_of_legal hlegal).symm.trans hb)

/-- The bytes 0 and 1 are too short for a frame and have bit 7 clear. -/
theorem lowByte_illegal (low : Bool) : (lowByte low).getLsbD 7 = false ∧ legalLength (lowByte low) = false := by
  revert low
  decide

/-! ### `RX` with an idle assembler -/

/-- With an idle assembler `RX` begins with empty outputs and takes its byte as a first byte (R181). -/
theorem exec_rx_idle {s : State} (b : Byte) (now : Tick) (hidle : s.asm.bytesAccumulated = 0) :
    exec (.rx b now) s = .next (s.startOp.firstByte b now) :=
  congrArg Host.Outcome.next (rxByte_idle (s := s.startOp) b now hidle)

/-- `START_FRAME` (R183): the whole next state. -/
theorem exec_rx_legal {s : State} {b : Byte} (now : Tick) (hc : s.cfg.Legal) (hidle : s.asm.bytesAccumulated = 0)
    (hlegal : legalLength b = true) : exec (.rx b now) s =
      .next { s with asm := ⟨bufWrite s.asm.rxBuf 0 b, 1, sampled s.cfg now⟩, out := Outputs.empty } := by
  rw [exec_rx_idle b now hidle, firstByte_legal (s := s.startOp) hc now hlegal]
  rfl

/-- The state after `BAD_LENGTH` (R184): only the outputs differ. -/
def State.nackedLength (s : State) : State :=
  { s with out := ⟨[s.cfg.codeNack], [], [.malformedLength], none⟩ }

theorem exec_rx_illegal {s : State} {b : Byte} (now : Tick) (hidle : s.asm.bytesAccumulated = 0)
    (hcontrol : isControl s.cfg b = false) (hillegal : legalLength b = false) :
    exec (.rx b now) s = .next s.nackedLength := by
  rw [exec_rx_idle b now hidle, firstByte_illegal (s := s.startOp) now hcontrol hillegal]
  rfl

/-- Below bit 7 the legality of the length alone decides. -/
theorem exec_rx_illegal_low {s : State} {b : Byte} (now : Tick) (hc : s.cfg.Legal)
    (hidle : s.asm.bytesAccumulated = 0) (hlow : b.getLsbD 7 = false) (hillegal : legalLength b = false) :
    exec (.rx b now) s = .next s.nackedLength :=
  exec_rx_illegal now hidle (isControl_eq_false_of_low hc hlow) hillegal

/-! ### The statements -/

/-- Settles O10: the buffer is the old one with the length written at index 0. -/
theorem legalLengthStartsAFrame : Obligations.LegalLengthStartsAFrame := by
  intro s v now hc hidle hlegal
  have hrx := exec_rx_legal now hc hidle hlegal
  have hread : bufRead (bufWrite s.asm.rxBuf 0 (lengthByte v)) 0 = lengthByte v :=
    bufRead_bufWrite_same _ _ (by decide)
  exact ⟨bufWrite s.asm.rxBuf 0 (lengthByte v), ⟨hread, fun i hi => bufRead_bufWrite_ne _ _ hi⟩, hrx,
    (exec_rxLen_eq_rx v now s).trans hrx⟩

/-- Settles O11: the rows of 0, 1, 2 and 4 need no assumption on control codes, the row of the high bytes does. -/
theorem illegalLengthIsNacked : Obligations.IllegalLengthIsNacked := by
  intro s now hc hidle t
  refine ⟨?rx, ?zeroOne, ?two, ?four, ?high⟩
  case rx => exact fun b hcontrol hillegal => exec_rx_illegal now hidle hcontrol hillegal
  case zeroOne =>
    intro low
    obtain ⟨hlow, hillegal⟩ := lowByte_illegal low
    rw [exec_rxBadlen01_eq_rx]
    exact exec_rx_illegal_low now hc hidle hlow hillegal
  case two =>
    rw [exec_rxBadlen2_eq_rx]
    exact exec_rx_illegal_low now hc hidle (by decide) (by decide)
  case four =>
    rw [exec_rxBadlen4_eq_rx]
    exact exec_rx_illegal_low now hc hidle (by decide) (by decide)
  case high =>
    intro low hcontrol
    rw [exec_rxBadlenHi_eq_rx]
    exact exec_rx_illegal now hidle hcontrol (legalLength_eq_false_of_high (highByte_bit low))

end Sys2Proof.Machine
end

section
/-!
Control bytes (spec/43_control_dispatch.md R231, R232). The row of an ACK is `RX` of its code (R128), and with an idle
assembler that is `CTRL_ACK` of its polarity, which tells an accepted ACK from a stale one.
-/

namespace Sys2Proof.Machine

/-- The row of the ACK of polarity `p`. -/
def ackRow (p : Bool) (now : Tick) : Instr := if p then .rxAck1 now else .rxAck0 now

theorem exec_ackRow_eq_rx (p : Bool) (now : Tick) (s : State) :
    exec (ackRow p now) s = exec (.rx (ackCode s.cfg p) now) s := by
  cases p <;> rfl

/-- With an idle assembler `RX` of an ACK code is `CTRL_ACK` of its polarity (R181, R231). -/
theorem exec_rx_ackCode {s : State} (p : Bool) (now : Tick) (hc : s.cfg.Legal) (hidle : s.asm.bytesAccumulated = 0) :
    exec (.rx (ackCode s.cfg p) now) s = .next (s.startOp.ctrlAck p now) := by
  rw [exec_rx_idle _ now hidle]
  exact congrArg Host.Outcome.next (firstByte_ack (s := s.startOp) hc p now)

/-- A stale ACK differs from its state in the outputs only (R232). -/
theorem exec_rx_staleAck {s : State} {p : Bool} (now : Tick) (hc : s.cfg.Legal) (hidle : s.asm.bytesAccumulated = 0)
    (hstale : ¬ (s.snd.outboundBusy = true ∧ p = s.snd.sendSequenceBit)) :
    exec (.rx (ackCode s.cfg p) now) s = .next { s with out := ⟨[], [], [.staleAck], none⟩ } := by
  rw [exec_rx_ackCode p now hc hidle, ctrlAck_stale (s := s.startOp) now hstale]
  rfl

/-- Settles O19: an idle link and the other polarity each contradict one half of the acceptance test of `CTRL_ACK`. -/
theorem staleAckIsIgnored : Obligations.StaleAckIsIgnored := by
  intro s p now hc hidle hlink i hi
  have hstale : ¬ (s.snd.outboundBusy = true ∧ p = s.snd.sendSequenceBit) := by
    rintro ⟨hbusy, hpolarity⟩
    obtain hfree | hother := hlink
    · exact Bool.false_ne_true (hfree.symm.trans hbusy)
    · exact hother hpolarity.symm
  have hrx := exec_rx_staleAck now hc hidle hstale
  obtain rfl | rfl := List.mem_pair.mp hi
  · exact hrx
  · exact (exec_ackRow_eq_rx p now s).trans hrx

end Sys2Proof.Machine
end

section
/-!
The frame in flight (spec/45_sender.md R308). While the link is busy, an operation re-arms the timer at most (R305,
R333); the one that does more is the ACK of the frame's polarity, an accepted `CTRL_ACK` (R231).
-/

namespace Sys2Proof.Machine

/-- The sender `d'` is `d` but for the time of its last transmission. -/
def Sender.KeptBy (d d' : Sender) : Prop := ∃ time, d' = { d with sendTime := time }

theorem Sender.keptBy_of_eq {d d' : Sender} (h : d' = d) : d.KeptBy d' := ⟨d.sendTime, h⟩

/-- A busy link stays busy with the same frame and the same sequence bit. -/
theorem Sender.KeptBy.inFlight {d d' : Sender} (h : d.KeptBy d') (hbusy : d.outboundBusy = true) :
    d'.outboundBusy = true ∧ d'.txBuf = d.txBuf ∧ d'.txLen = d.txLen ∧ d'.sendSequenceBit = d.sendSequenceBit := by
  obtain ⟨time, rfl⟩ := h
  exact ⟨hbusy, rfl, rfl, rfl⟩

theorem keptBy_retransmit (s : State) (now : Tick) : s.snd.KeptBy (s.retransmit now).snd :=
  ⟨sampled s.cfg now, rfl⟩

/-- `CTRL_ACK` on a busy link: the frame is kept, or the polarity is the frame's and the sequence bit flips, which the
multiplexer leaves as it is (R231, R232). -/
theorem ctrlAck_keeps_or_flips {s : State} (p : Bool) (now : Tick) (hbusy : s.snd.outboundBusy = true) :
    s.snd.KeptBy (s.ctrlAck p now).snd ∨
      (p = s.snd.sendSequenceBit ∧ (s.ctrlAck p now).snd.sendSequenceBit = !s.snd.sendSequenceBit) := by
  by_cases hp : p = s.snd.sendSequenceBit
  · obtain ⟨-, -, -, -, -, -, -, hseq⟩ := mux_frame s.freed now
    exact .inr ⟨hp, by rw [ctrlAck_accepted now ⟨hbusy, hp⟩, hseq]; rfl⟩
  · rw [ctrlAck_stale now fun h => hp h.2]
    exact .inl (Sender.keptBy_of_eq rfl)

/-- A first byte on a busy link: the frame is kept, or the byte is the ACK code of its polarity. -/
theorem firstByte_keeps_or_flips {s : State} (b : Byte) (now : Tick) (hbusy : s.snd.outboundBusy = true) :
    s.snd.KeptBy (s.firstByte b now).snd ∨ (b = ackCode s.cfg s.snd.sendSequenceBit ∧
      (s.firstByte b now).snd.sendSequenceBit = !s.snd.sendSequenceBit) := by
  obtain ⟨p, hb, e⟩ | ⟨-, e⟩ | ⟨-, e⟩ | ⟨-, e⟩ | ⟨-, e⟩ := firstByte_cases s b now <;> rw [e]
  case inl =>
    obtain hkept | ⟨rfl, hflip⟩ := ctrlAck_keeps_or_flips p now hbusy
    · exact .inl hkept
    · exact .inr ⟨hb, hflip⟩
  case inr.inl =>
    rw [ctrlNack_busy now hbusy]
    exact .inl (keptBy_retransmit s now)
  all_goals exact .inl (Sender.keptBy_of_eq rfl)

/-- `RX` on a busy link: neither the watchdog nor a data byte touches the sender, so a first byte decides. -/
theorem rxByte_keeps_or_flips {s : State} (b : Byte) (now : Tick) (hbusy : s.snd.outboundBusy = true) :
    s.snd.KeptBy (s.rxByte b now).snd ∨ (b = ackCode s.cfg s.snd.sendSequenceBit ∧
      (s.rxByte b now).snd.sendSequenceBit = !s.snd.sendSequenceBit) := by
  obtain ⟨u, hu, e⟩ | ⟨-, e⟩ := rxByte_cases s b now <;> rw [e]
  · obtain ⟨rfl, -⟩ | rfl := hu
    · exact firstByte_keeps_or_flips b now hbusy
    · exact firstByte_keeps_or_flips (s := (s.setAccumulated 0).signal .idleTimeout) b now hbusy
  · obtain ⟨-, hsnd, -, -⟩ := dataByte_frame s b now
    exact .inl (Sender.keptBy_of_eq hsnd)

/-- A frame row has no effect on a busy link (R261). -/
theorem serveRow_busy {s : State} (src : Source) (body : List Byte) (now : Tick) (hbusy : s.snd.outboundBusy = true) :
    s.serveRow src body now = s := if_pos hbusy

/-- Every effect on a busy link but that of `RESET`: the frame is kept, or its ACK is presented (R308). -/
theorem Effect.keeps_or_flips {s t : State} {i : Instr} (h : Effect s i t) (hbusy : s.snd.outboundBusy = true)
    (hi : i ≠ .reset) : s.snd.KeptBy t.snd ∨ (inboundByteOf s.cfg i = some (ackCode s.cfg s.snd.sendSequenceBit) ∧
      t.snd.sendSequenceBit = !s.snd.sendSequenceBit) := by
  cases h with
  | reset h => exact absurd h hi
  | setinit | nothing | badArgument | replyRejected | identification => exact .inl (Sender.keptBy_of_eq rfl)
  | poll now =>
    obtain ⟨_, time, _, _, e, -⟩ := poll_spec s.startOp now
    exact .inl ⟨time, congrArg State.snd e⟩
  | rx b now hb =>
    obtain hkept | ⟨rfl, hflip⟩ := rxByte_keeps_or_flips (s := s.startOp) b now hbusy
    · exact .inl hkept
    · exact .inr ⟨hb, hflip⟩
  | post q accepted now =>
    rw [post_busy (s := s.posting q accepted) now hbusy]
    exact .inl (Sender.keptBy_of_eq rfl)
  | frame src body now =>
    rw [serveRow_busy (s := s.startOp) src body now hbusy]
    exact .inl (Sender.keptBy_of_eq rfl)

/-- Settles O44: the effect of the instruction keeps the sender but for its timer, or is an accepted ACK. -/
theorem frameInFlightIsKeptUntilItsAck : Obligations.FrameInFlightIsKeptUntilItsAck := by
  intro s t i hbusy hsingle hi hexec
  obtain ⟨t', hexec', heffect⟩ := exec_effect hsingle s
  obtain rfl : t' = t := Host.Outcome.next.inj (hexec'.symm.trans hexec)
  exact (heffect.keeps_or_flips hbusy hi).imp_left fun hkept => hkept.inFlight hbusy

end Sys2Proof.Machine
end

section
/-!
The invariants (spec/10_state.md R34, R45, R55; spec/70_reset_and_hazards.md R408). What a step can do to the state is
said once, as a chain of moves: the inductive `Move` has one constructor for each way in which a rule touches the
assembler, the sender or the sources. Each invariant is then checked move by move.
-/

namespace Sys2Proof.Machine

/-! ### The moves -/

/-- `t` is `s` but for the outputs, the expected sequence bit and the count of free draws; the mode may be set. -/
structure Still (s t : State) : Prop where
  cfg : t.cfg = s.cfg
  input : t.input = s.input
  asm : t.asm = s.asm
  snd : t.snd = s.snd
  src : t.src = s.src
  mode : t.initialized = false → s.initialized = false

/-- One way in which a rule changes the state. -/
inductive Move (s : State) : State → Prop where
  | still {t : State} (h : Still s t) : Move s t
  | reset : Move s s.resetOp
  | idle : Move s (s.setAccumulated 0)
  | start (b : Byte) (now : Tick) (hlegal : legalLength b = true) : Move s (s.storeRx 0 b 1 now)
  | stored (b : Byte) (now : Tick) (hpartial : s.asm.bytesAccumulated ≠ 0)
      (hmore : (s.stored b now).asm.bytesAccumulated.toNat ≠ need (bufRead (s.stored b now).asm.rxBuf 0).toNat) :
      Move s (s.stored b now)
  | completed (b : Byte) (now : Tick) : Move s ((s.stored b now).setAccumulated 0)
  | rearmed (now : Tick) : Move s (s.retransmit now)
  | acked (now : Tick) (hbusy : s.snd.outboundBusy = true) : Move s (s.freed.mux now)
  | posted (q : Sources) (now : Tick) (hq : Posted s.cfg s.src q) : Move s ((s.withSources q).mux now)
  | served (x : Picked) (now : Tick) (hidle : s.snd.outboundBusy = false) (hpick : pick s.cfg s.src = some x) :
      Move s (s.serve x now)

/-- A chain of moves. -/
abbrev Moves : State → State → Prop := Relation.ReflTransGen Move

theorem Still.moves {s t : State} (h : Still s t) : Moves s t := .single (.still h)

theorem still_startOp (s : State) : Still s s.startOp := ⟨rfl, rfl, rfl, rfl, rfl, id⟩

theorem still_signal (s : State) (e : Condition) : Still s (s.signal e) := ⟨rfl, rfl, rfl, rfl, rfl, id⟩

theorem still_reject (s : State) (e : Condition) : Still s (s.reject e) := ⟨rfl, rfl, rfl, rfl, rfl, id⟩

theorem still_duplicate (s : State) (q : Bool) : Still s (s.duplicate q) := ⟨rfl, rfl, rfl, rfl, rfl, id⟩

theorem still_accept (s : State) (q : Bool) : Still s (s.accept q) := ⟨rfl, rfl, rfl, rfl, rfl, id⟩

/-! ### Every instruction is a chain of moves -/

theorem watchdog_moves (s : State) (now : Tick) : Moves s (s.watchdog now) := by
  cases h : s.stalled now with
  | false => rw [watchdog_fresh h]
  | true =>
    rw [watchdog_stalled h]
    exact .tail (.single .idle) (.still (still_signal _ _))

theorem ackTimeoutCheck_moves (s : State) (now : Tick) : Moves s (s.ackTimeoutCheck now) := by
  cases h : s.overdue now with
  | false => rw [ackTimeoutCheck_fresh h]
  | true =>
    rw [ackTimeoutCheck_overdue h]
    exact .tail (still_signal s _).moves (.rearmed now)

theorem ctrlAck_moves (s : State) (p : Bool) (now : Tick) : Moves s (s.ctrlAck p now) := by
  by_cases h : s.snd.outboundBusy = true ∧ p = s.snd.sendSequenceBit
  · rw [ctrlAck_accepted now h]
    exact .single (.acked now h.1)
  · rw [ctrlAck_stale now h]
    exact (still_signal s _).moves

theorem ctrlNack_moves (s : State) (now : Tick) : Moves s (s.ctrlNack now) := by
  cases h : s.snd.outboundBusy with
  | true =>
    rw [ctrlNack_busy now h]
    exact .single (.rearmed now)
  | false =>
    rw [ctrlNack_stale now h]
    exact (still_signal s _).moves

theorem firstByte_moves (s : State) (b : Byte) (now : Tick) : Moves s (s.firstByte b now) := by
  obtain ⟨p, -, e⟩ | ⟨-, e⟩ | ⟨-, e⟩ | ⟨-, e⟩ | ⟨hlegal, e⟩ := firstByte_cases s b now <;> rw [e]
  · exact ctrlAck_moves s p now
  · exact ctrlNack_moves s now
  · exact Still.moves ⟨rfl, rfl, rfl, rfl, rfl, id⟩
  · exact (still_reject s _).moves
  · exact .single (.start b now hlegal)

theorem complete_still (s : State) : Still (s.setAccumulated 0) s.complete := by
  obtain ⟨-, e⟩ | ⟨-, -, e⟩ | ⟨-, -, -, e⟩ | ⟨-, -, -, e⟩ := complete_cases s <;> rw [e]
  · exact still_reject _ _
  · exact still_reject _ _
  · exact still_duplicate _ _
  · exact still_accept _ _

theorem dataByte_moves {s : State} (b : Byte) (now : Tick) (hpartial : s.asm.bytesAccumulated ≠ 0) :
    Moves s (s.dataByte b now) := by
  by_cases h : (s.stored b now).asm.bytesAccumulated.toNat = need (bufRead (s.stored b now).asm.rxBuf 0).toNat
  · rw [dataByte_last h]
    exact .tail (.single (.completed b now)) (.still (complete_still _))
  · rw [dataByte_more h]
    exact .single (.stored b now hpartial h)

theorem rxByte_moves (s : State) (b : Byte) (now : Tick) : Moves s (s.rxByte b now) := by
  refine (watchdog_moves s now).trans ?_
  unfold State.rxByte
  dsimp only
  split
  next => exact firstByte_moves _ b now
  next hpartial => exact dataByte_moves b now hpartial

theorem rxFrame_moves (bs : List Byte) (s : State) (now : Tick) : Moves s (s.rxFrame now bs) := by
  induction bs generalizing s now with
  | nil => exact .refl
  | cons b bs ih => exact (rxByte_moves s b now).trans (ih _ _)

theorem serveRow_moves (s : State) (src : Source) (body : List Byte) (now : Tick) :
    Moves s (s.serveRow src body now) := by
  obtain e | ⟨hidle, x, hpick, e⟩ := serveRow_cases s src body now <;> rw [e]
  exact .single (.served x now hidle hpick)

theorem Effect.moves {s t : State} {i : Instr} (h : Effect s i t) : Moves s t := by
  have start : Moves s s.startOp := (still_startOp s).moves
  cases h with
  | reset => exact .single .reset
  | setinit => exact Still.moves ⟨rfl, rfl, rfl, rfl, rfl, (nomatch ·)⟩
  | nothing => exact start
  | poll now => exact start.trans ((watchdog_moves _ now).trans (ackTimeoutCheck_moves _ now))
  | rx b now => exact start.trans (rxByte_moves _ b now)
  | badArgument | replyRejected | identification => exact Still.moves ⟨rfl, rfl, rfl, rfl, rfl, id⟩
  | post q accepted now hq =>
    rw [post_eq_mux]
    have hout : Still s { s with out := ⟨[], [], [], accepted⟩ } := ⟨rfl, rfl, rfl, rfl, rfl, id⟩
    exact hout.moves.tail (.posted q now hq)
  | frame src body now => exact start.trans (serveRow_moves _ src body now)

/-- `exec` answers one next state, so a next state of a single operation is its effect. -/
theorem exec_single_effect {s t : State} {i : Instr} (hsingle : isSingle i = true) (hexec : exec i s = .next t) :
    Effect s i t := by
  obtain ⟨t', hexec', heffect⟩ := exec_effect hsingle s
  obtain rfl : t' = t := Host.Outcome.next.inj (hexec'.symm.trans hexec)
  exact heffect

theorem exec_moves {s t : State} {i : Instr} (h : exec i s = .next t) : Moves s t := by
  cases hsingle : isSingle i with
  | true => exact (exec_single_effect hsingle h).moves
  | false =>
    cases i with
    | fInbound seq op payload checks now =>
      obtain rfl := Host.Outcome.next.inj h
      exact (still_startOp s).moves.trans (rxFrame_moves _ _ now)
    | _ => cases hsingle

/-- A step with a next state does nothing, or runs an instruction on the state without its unit (R8). -/
theorem step_next_cases {s t : State} (h : step s = .next t) :
    t = s ∨ ∃ (i : Instr) (rest : List Presented), exec i { s with input := rest } = .next t := by
  unfold step at h
  split at h
  next => exact .inl (Host.Outcome.next.inj h).symm
  next =>
    split at h
    next => cases h
    next => exact .inr ⟨_, _, h⟩

theorem Moves.invariant {P : State → Prop} (hmove : ∀ {s t}, Move s t → P s → P t) {s t : State} (h : Moves s t)
    (hs : P s) : P t := by
  induction h with
  | refl => exact hs
  | tail _ h ih => exact hmove h ih

/-- What every move keeps, and the queue does not matter to, every step keeps. -/
theorem step_keeps {P : State → Prop} (hinput : ∀ {s} rest, P s → P { s with input := rest })
    (hmove : ∀ {s t}, Move s t → P s → P t) {s t : State} (hs : P s) (h : step s = .next t) : P t := by
  obtain rfl | ⟨i, rest, hexec⟩ := step_next_cases h
  · exact hs
  · exact (exec_moves hexec).invariant hmove (hinput rest hs)

/-! ### The parameters and the queue -/

theorem Move.cfg_input {s t : State} (h : Move s t) : t.cfg = s.cfg ∧ t.input = s.input := by
  cases h with
  | still h => exact ⟨h.cfg, h.input⟩
  | reset | idle | start | stored | completed | rearmed => exact ⟨rfl, rfl⟩
  | acked now =>
    obtain ⟨hcfg, -, -, -, -, hinput, -⟩ := mux_frame s.freed now
    exact ⟨hcfg, hinput⟩
  | posted q now =>
    obtain ⟨hcfg, -, -, -, -, hinput, -⟩ := mux_frame (s.withSources q) now
    exact ⟨hcfg, hinput⟩
  | served x now =>
    obtain ⟨hcfg, -, -, -, -, hinput, -⟩ := serve_frame s x now
    exact ⟨hcfg, hinput⟩

/-- Settles O51: no move touches the parameters or the queue. -/
theorem parametersNeverChange : Obligations.ParametersNeverChange := by
  intro s t i hexec
  refine (exec_moves hexec).invariant (P := fun u => u.cfg = s.cfg ∧ u.input = s.input) ?_ ⟨rfl, rfl⟩
  rintro u v hmove ⟨hcfg, hinput⟩
  obtain ⟨hcfg', hinput'⟩ := hmove.cfg_input
  exact ⟨hcfg'.trans hcfg, hinput'.trans hinput⟩

/-! ### The assembler (R34) -/

theorem assemblerInv_of_idle {t : State} (h : t.asm.bytesAccumulated = 0) : AssemblerInv t := fun hn => absurd h hn

theorem AssemblerInv.of_asm_eq {s t : State} (hs : AssemblerInv s) (h : t.asm = s.asm) : AssemblerInv t := by
  unfold AssemblerInv
  rw [h]
  exact hs

theorem assemblerInv_start (s : State) {b : Byte} (now : Tick) (hlegal : legalLength b = true) :
    AssemblerInv (s.storeRx 0 b 1 now) := by
  intro _
  rw [storeRx_asm, bufRead_bufWrite_same _ _ (by decide)]
  have hneed := need_bounds hlegal
  exact ⟨hlegal, show 1 < need b.toNat by omega⟩

theorem AssemblerInv.stored {s : State} (hs : AssemblerInv s) {b : Byte} {now : Tick}
    (hpartial : s.asm.bytesAccumulated ≠ 0)
    (hmore : (s.stored b now).asm.bytesAccumulated.toNat ≠ need (bufRead (s.stored b now).asm.rxBuf 0).toNat) :
    AssemblerInv (s.stored b now) := by
  intro _
  obtain ⟨hlegal, hlt⟩ := hs hpartial
  rw [stored_count b now hs hpartial] at hmore ⊢
  rw [stored_lengthByte b now hpartial] at hmore ⊢
  exact ⟨hlegal, by omega⟩

theorem Move.assemblerInv {s t : State} (h : Move s t) (hs : AssemblerInv s) : AssemblerInv t := by
  cases h with
  | still h => exact hs.of_asm_eq h.asm
  | reset | idle | completed => exact assemblerInv_of_idle rfl
  | start b now hlegal => exact assemblerInv_start s now hlegal
  | stored b now hpartial hmore => exact hs.stored hpartial hmore
  | rearmed => exact hs
  | acked now =>
    obtain ⟨-, hasm, -⟩ := mux_frame s.freed now
    exact hs.of_asm_eq hasm
  | posted q now =>
    obtain ⟨-, hasm, -⟩ := mux_frame (s.withSources q) now
    exact hs.of_asm_eq hasm
  | served x now =>
    obtain ⟨-, hasm, -⟩ := serve_frame s x now
    exact hs.of_asm_eq hasm

/-- Settles O54: a stored byte leaves a legal length and a count below it; every other move leaves the assembler or
makes it idle. -/
theorem stepKeepsThePartialFrameLegal : Obligations.StepKeepsThePartialFrameLegal :=
  fun _ _ hs h => step_keeps (fun _ hs => hs) Move.assemblerInv hs h

/-! ### The sender (R45) -/

/-- The frame that `PREPARE` and `SEND` put in flight meets the invariant of the sender (R301, R303). -/
theorem senderInv_sent {s : State} {x : Picked} (now : Tick) (hs : SenderInv s) (hpick : pick s.cfg s.src = some x) :
    SenderInv (((s.withSources x.rest).prepare x.body).send now) := by
  have hreduced := pick_reduced hpick
  have hbody : Frameable x.body := pick_frameable hs.reply hpick
  obtain ⟨buf, hbuf, e⟩ := prepare_send (s.withSources x.rest) x.body now hbody
  rw [e]
  have hwell := wireFrame_wellFormed (c := s.cfg) (seq := s.snd.sendSequenceBit) hbody
  have hbounds := wireFrame_bounds (c := s.cfg) (seq := s.snd.sendSequenceBit) hbody
  have hlen := wireFrame_length (c := s.cfg) (seq := s.snd.sendSequenceBit) hbody
  have hhead := wireFrame_head (c := s.cfg) (seq := s.snd.sendSequenceBit) hbody
  have hseq := wireFrame_seqBit (c := s.cfg) (seq := s.snd.sendSequenceBit) hbody
  simp only [withSources_cfg, withSources_snd] at hbuf ⊢
  generalize wireFrame s.cfg s.snd.sendSequenceBit x.body = wire at *
  have htxLen : (BitVec.ofNat 8 wire.length).toNat = wire.length := by rw [BitVec.toNat_ofNat]; omega
  refine ⟨fun h => ?_, fun _ => ⟨?_, ?_, ?_⟩⟩
  · rw [withSources_src, hreduced.replyLen]
    exact hs.reply (hreduced.reply h)
  · rwa [Sender.frame, htxLen, bufSlice_eq_of_overwrites hbuf]
  · rw [htxLen, hbuf.1 0 (by omega), hhead, hlen]
  · rw [hbuf.1 1 (by omega), hseq]

/-- The sources after a discard, the sender as it was. -/
theorem SenderInv.withReduced {s t : State} (hs : SenderInv s) (hq : Reduced s.cfg s.src t.src) (hcfg : t.cfg = s.cfg)
    (hsnd : t.snd = s.snd) : SenderInv t where
  reply h := by rw [hq.replyLen]; exact hs.reply (hq.reply h)
  inFlight := by rw [hcfg, hsnd]; exact hs.inFlight

theorem SenderInv.mux {s : State} (hs : SenderInv s) (now : Tick) : SenderInv (s.mux now) := by
  obtain ⟨e, -⟩ | ⟨x, -, -, hpick, e⟩ | ⟨-, -, q, -, hq, e⟩ := mux_cases s now <;> rw [e]
  · exact hs
  · exact senderInv_sent now hs hpick
  · exact hs.withReduced hq rfl rfl

theorem SenderInv.serve {s : State} (hs : SenderInv s) {x : Picked} (hpick : pick s.cfg s.src = some x) (now : Tick) :
    SenderInv (s.serve x now) := by
  unfold State.serve
  dsimp only
  split
  · exact senderInv_sent now hs hpick
  · exact hs.withReduced (pick_reduced hpick) rfl rfl

theorem Move.senderInv {s t : State} (h : Move s t) (hs : SenderInv s) : SenderInv t := by
  cases h with
  | still h => exact hs.withReduced (h.src ▸ .refl) h.cfg h.snd
  | reset => exact ⟨(nomatch ·), (nomatch ·)⟩
  | idle | start | stored | completed | rearmed => exact ⟨hs.reply, hs.inFlight⟩
  | acked now =>
    have hfreed : SenderInv s.freed := ⟨hs.reply, (nomatch ·)⟩
    exact hfreed.mux now
  | posted q now hq =>
    have hposted : SenderInv (s.withSources q) := ⟨hq.reply hs.reply, hs.inFlight⟩
    exact hposted.mux now
  | served x now _ hpick => exact hs.serve hpick now

/-- Settles O55: a frame is put in flight by `PREPARE` only, and a move that keeps it in flight re-arms its timer at
most. -/
theorem stepKeepsTheFrameInFlightWellFormed : Obligations.StepKeepsTheFrameInFlightWellFormed :=
  fun _ _ hs h => step_keeps (fun _ hs => ⟨hs.reply, hs.inFlight⟩) Move.senderInv hs h

/-! ### The sources (R55) -/

/-- The part of the sources' invariant that holds on an idle link with an event pending, too. -/
structure SourcesBounded (c : Config) (q : Sources) : Prop where
  axes : ∀ a, c.nAxes ≤ a → q.limitPending.getLsbD a = false ∧ q.sensePending.getLsbD a = false ∧
    q.senseFlag.getLsbD a = false
  temps : ∀ ch, c.nTemps ≤ ch → q.tempPending.getLsbD ch = false
  pointer : q.tempRr < c.nTemps

theorem SourcesInv.bounded {s : State} (hs : SourcesInv s) : SourcesBounded s.cfg s.src :=
  ⟨hs.axes, hs.temps, hs.pointer⟩

theorem SourcesBounded.posted {c : Config} {q q' : Sources} (h : SourcesBounded c q) (hq : Posted c q q') :
    SourcesBounded c q' where
  axes a ha := by rw [hq.limit a ha, hq.sense a ha, hq.senseFlag a ha]; exact h.axes a ha
  temps ch hch := by rw [hq.tempcb ch hch]; exact h.temps ch hch
  pointer := by rw [hq.pointer]; exact h.pointer

theorem SourcesBounded.reduced {c : Config} {q q' : Sources} (h : SourcesBounded c q) (hq : Reduced c q q') :
    SourcesBounded c q' where
  axes a ha := by
    obtain ⟨hlimit, hsense, hflag⟩ := h.axes a ha
    exact ⟨Bool.eq_false_iff.mpr fun h => Bool.false_ne_true (hlimit.symm.trans (hq.limit a h)),
      Bool.eq_false_iff.mpr fun h => Bool.false_ne_true (hsense.symm.trans (hq.sense a h)), hq.senseFlag ▸ hflag⟩
  temps ch hch := Bool.eq_false_iff.mpr fun hp => Bool.false_ne_true ((h.temps ch hch).symm.trans (hq.tempcb ch hp))
  pointer := hq.pointer h.pointer

theorem SourcesBounded.quiet {c : Config} {q : Sources} (h : SourcesBounded c q) (hnone : pick c q = none) : Quiet q :=
  quiet_of_none (pick_eq_none.mp hnone) (fun a ha => ⟨(h.axes a ha).1, (h.axes a ha).2.1⟩) h.temps

/-- After `MUX` an idle link has nothing pending, whatever was pending before (R262). -/
theorem SourcesBounded.mux {s : State} (h : SourcesBounded s.cfg s.src) (now : Tick) : SourcesInv (s.mux now) := by
  obtain ⟨e, hnone⟩ | ⟨x, -, -, hpick, e⟩ | ⟨-, -, q, hnone, hq, e⟩ := mux_cases s now <;> rw [e]
  · exact { h with quiet := fun hidle => h.quiet (hnone hidle) }
  · exact { h.reduced (pick_reduced hpick) with quiet := (nomatch ·) }
  · exact { h.reduced hq with quiet := fun _ => (h.reduced hq).quiet hnone }

theorem Move.sourcesInv {s t : State} (h : Move s t) (hs : SourcesInv s) : SourcesInv t := by
  cases h with
  | still h =>
    have hbounded : SourcesBounded t.cfg t.src := by rw [h.cfg, h.src]; exact hs.bounded
    exact { hbounded with quiet := by rw [h.snd, h.src]; exact hs.quiet }
  | reset =>
    have hpos : 0 < s.cfg.nTemps := Nat.zero_lt_of_lt hs.pointer
    exact ⟨fun a _ => ⟨BitVec.getLsbD_zero, BitVec.getLsbD_zero, BitVec.getLsbD_zero⟩, fun ch _ => BitVec.getLsbD_zero,
      hpos, fun _ => ⟨rfl, rfl, rfl, rfl, rfl, rfl, rfl, rfl, rfl⟩⟩
  | idle | start | stored | completed | rearmed => exact { hs with }
  | acked now => exact SourcesBounded.mux (s := s.freed) hs.bounded now
  | posted q now hq => exact SourcesBounded.mux (s := s.withSources q) (hs.bounded.posted hq) now
  | served x now hidle hpick =>
    -- On an idle link nothing is pending, so no frame row is served.
    cases hpick.symm.trans (pick_of_quiet (hs.quiet hidle))

/-- Settles O56: every move that can free the link or post an event ends with `MUX`, which leaves an idle link quiet. -/
theorem stepKeepsIdleLinkQuiet : Obligations.StepKeepsIdleLinkQuiet :=
  fun _ _ hs h => step_keeps (fun _ hs => { hs with }) Move.sourcesInv hs h

/-! ### The mode (R408) -/

theorem ModeInv.mux {s : State} (hs : ModeInv s) (now : Tick) : ModeInv (s.mux now) := by
  obtain ⟨e, -⟩ | ⟨x, hinit, -, -, e⟩ | ⟨-, hidle, q, -, -, e⟩ := mux_cases s now <;> rw [e]
  · exact hs
  · exact fun h => absurd (h.symm.trans hinit) Bool.false_ne_true
  · exact fun _ => hidle

theorem ModeInv.serve {s : State} (hs : ModeInv s) (x : Picked) (now : Tick) : ModeInv (s.serve x now) := by
  unfold State.serve
  dsimp only
  split
  next hinit => exact fun h => absurd (h.symm.trans hinit) Bool.false_ne_true
  next => exact hs

theorem Move.modeInv {s t : State} (h : Move s t) (hs : ModeInv s) : ModeInv t := by
  cases h with
  | still h => exact fun hinit => (congrArg Sender.outboundBusy h.snd).trans (hs (h.mode hinit))
  | reset => exact fun _ => rfl
  | idle | start | stored | completed | rearmed => exact hs
  | acked now => exact ModeInv.mux (s := s.freed) (fun _ => rfl) now
  | posted q now => exact ModeInv.mux (s := s.withSources q) hs now
  | served x now => exact hs.serve x now

/-- Settles O57: only an initialized core transmits, and the mode is left by `RESET` only, which frees the link. -/
theorem stepKeepsUninitializedLinkIdle : Obligations.StepKeepsUninitializedLinkIdle :=
  fun _ _ hs h => step_keeps (fun _ hs => hs) Move.modeInv hs h

/-! ### The timestamps (R31) -/

theorem sampled_lt (c : Config) (now : Nat) : sampled c now < 2 ^ c.wTime := Nat.mod_lt _ (Nat.two_pow_pos _)

theorem TimesInv.mux {s : State} (hs : TimesInv s) (now : Tick) : TimesInv (s.mux now) := by
  obtain ⟨e, -⟩ | ⟨x, -, -, -, e⟩ | ⟨-, -, q, -, -, e⟩ := mux_cases s now <;> rw [e]
  · exact hs
  · exact ⟨hs.1, sampled_lt _ _⟩
  · exact hs

theorem TimesInv.serve {s : State} (hs : TimesInv s) (x : Picked) (now : Tick) : TimesInv (s.serve x now) := by
  unfold State.serve
  dsimp only
  split
  · exact ⟨hs.1, sampled_lt _ _⟩
  · exact hs

theorem Move.timesInv {s t : State} (h : Move s t) (hs : TimesInv s) : TimesInv t := by
  cases h with
  | still h =>
    unfold TimesInv
    rw [h.cfg, h.asm, h.snd]
    exact hs
  | reset => exact ⟨sampled_lt _ _, sampled_lt _ _⟩
  | idle => exact hs
  | start | stored | completed => exact ⟨sampled_lt _ _, hs.2⟩
  | rearmed => exact ⟨hs.1, sampled_lt _ _⟩
  | acked now => exact TimesInv.mux (s := s.freed) hs now
  | posted q now => exact TimesInv.mux (s := s.withSources q) hs now
  | served x now => exact hs.serve x now

/-! ### All invariants together -/

theorem Move.inv {s t : State} (h : Move s t) (hs : Inv s) : Inv t where
  legal := h.cfg_input.1 ▸ hs.legal
  assembler := h.assemblerInv hs.assembler
  sender := h.senderInv hs.sender
  sources := h.sourcesInv hs.sources
  mode := h.modeInv hs.mode
  times := h.timesInv hs.times

theorem Inv.withInput {s : State} (hs : Inv s) (rest : List Presented) : Inv { s with input := rest } :=
  ⟨hs.legal, hs.assembler, ⟨hs.sender.reply, hs.sender.inFlight⟩, { hs.sources with }, hs.mode, hs.times⟩

/-- Settles O58: each move keeps each of the invariants. -/
theorem stepKeepsTheInvariants : Obligations.StepKeepsTheInvariants :=
  fun _ _ hs h => step_keeps (fun rest hs => hs.withInput rest) Move.inv hs h

end Sys2Proof.Machine
end

section
/-!
The outputs of one operation (spec/20_memory.md R85; spec/44_outbound_mux.md R277; spec/60_exceptions.md R362). Which
bytes an operation may emit is said once, by `Emission`; which conditions `RX` may signal is read off its cases.
-/

namespace Sys2Proof.Machine

/-! ### What one operation emits -/

/-- The bytes that one operation may emit between the states `s` and `t`. -/
inductive Emission (s t : State) : List Byte → Prop where
  | silent : Emission s t []
  | ack (p : Bool) : Emission s t [ackCode s.cfg p]
  | nack : Emission s t [s.cfg.codeNack]
  | identification : Emission s t (identification s.cfg)
  /-- The frame in flight once more (R305). -/
  | repeated (hbusy : s.snd.outboundBusy = true) (hkept : s.snd.KeptBy t.snd) : Emission s t s.snd.frame
  /-- A frame put in flight on a link that was idle, or that the ACK of its sequence bit freed (R262). -/
  | sent (hbusy : t.snd.outboundBusy = true)
      (hnew : s.snd.outboundBusy = false ∨ t.snd.sendSequenceBit = !s.snd.sendSequenceBit) : Emission s t t.snd.frame

/-- Only the parameters and the sender of the first state count. -/
theorem Emission.of_eq {s s' t : State} {tx : List Byte} (h : Emission s' t tx) (hcfg : s'.cfg = s.cfg)
    (hsnd : s'.snd = s.snd) : Emission s t tx := by
  cases h with
  | silent => exact .silent
  | ack p => exact hcfg ▸ .ack p
  | nack => exact hcfg ▸ .nack
  | identification => exact hcfg ▸ .identification
  | repeated hbusy hkept =>
    rw [hsnd] at hbusy hkept ⊢
    exact .repeated hbusy hkept
  | sent hbusy hnew =>
    rw [hsnd] at hnew
    exact .sent hbusy hnew

theorem Emission.of_tx_nil {s t : State} (h : t.out.tx = []) : Emission s t t.out.tx := h ▸ .silent

/-- The multiplexer adds nothing to the bytes emitted, or the frame that it puts in flight on an idle link. -/
theorem mux_tx (s : State) (now : Tick) : (s.mux now).out.tx = s.out.tx ∨
    (s.snd.outboundBusy = false ∧ (s.mux now).snd.outboundBusy = true ∧
      (s.mux now).out.tx = s.out.tx ++ (s.mux now).snd.frame) := by
  obtain ⟨e, -⟩ | ⟨x, -, hidle, -, e⟩ | ⟨-, -, q, -, -, e⟩ := mux_cases s now <;> rw [e]
  · exact .inl rfl
  · exact .inr ⟨hidle, rfl, rfl⟩
  · exact .inl rfl

theorem mux_emission {s : State} (now : Tick) (hout : s.out.tx = []) : Emission s (s.mux now) (s.mux now).out.tx := by
  obtain e | ⟨hidle, hbusy, e⟩ := mux_tx s now
  · exact .of_tx_nil (e.trans hout)
  · rw [e, hout]
    exact .sent hbusy (.inl hidle)

/-- The accepted ACK frees the link, so that what the multiplexer emits carries the flipped sequence bit (R231). -/
theorem freed_mux_emission {s : State} (now : Tick) (hout : s.out.tx = []) :
    Emission s (s.freed.mux now) (s.freed.mux now).out.tx := by
  obtain ⟨-, -, -, -, -, -, -, hseq⟩ := mux_frame s.freed now
  obtain e | ⟨-, hbusy, e⟩ := mux_tx s.freed now
  · exact .of_tx_nil (e.trans hout)
  · rw [e, show s.freed.out.tx = [] from hout]
    exact .sent hbusy (.inr hseq)

theorem retransmit_emission {s : State} (now : Tick) (hout : s.out.tx = []) (hbusy : s.snd.outboundBusy = true) :
    Emission s (s.retransmit now) (s.retransmit now).out.tx := by
  rw [retransmit_out, hout]
  exact .repeated hbusy (keptBy_retransmit s now)

theorem firstByte_emission {s : State} (b : Byte) (now : Tick) (hout : s.out.tx = []) :
    Emission s (s.firstByte b now) (s.firstByte b now).out.tx := by
  obtain ⟨p, -, e⟩ | ⟨-, e⟩ | ⟨-, e⟩ | ⟨-, e⟩ | ⟨-, e⟩ := firstByte_cases s b now <;> rw [e]
  case inl =>
    by_cases h : s.snd.outboundBusy = true ∧ p = s.snd.sendSequenceBit
    · rw [ctrlAck_accepted now h]
      exact freed_mux_emission now hout
    · rw [ctrlAck_stale now h]
      exact .of_tx_nil hout
  case inr.inl =>
    cases h : s.snd.outboundBusy with
    | true =>
      rw [ctrlNack_busy now h]
      exact retransmit_emission now hout h
    | false =>
      rw [ctrlNack_stale now h]
      exact .of_tx_nil hout
  case inr.inr.inl =>
    rw [State.ctrlIdreq, emit_tx, hout]
    exact .identification
  case inr.inr.inr.inl =>
    rw [State.reject, signal_tx, emit_tx, hout]
    exact .nack
  case inr.inr.inr.inr => exact .of_tx_nil hout

theorem complete_emission {s : State} (hout : s.out.tx = []) : Emission s s.complete s.complete.out.tx := by
  obtain ⟨-, e⟩ | ⟨-, -, e⟩ | ⟨-, -, -, e⟩ | ⟨-, -, -, e⟩ := complete_cases s <;> rw [e]
  · rw [State.reject, signal_tx, emit_tx, setAccumulated_out, hout]
    exact .nack
  · rw [State.reject, signal_tx, emit_tx, setAccumulated_out, hout]
    exact .nack
  · rw [State.duplicate, signal_tx, emit_tx, setAccumulated_out, hout]
    exact .ack _
  · rw [State.accept, deliverPacket_tx, emit_tx, setAccumulated_out, hout]
    exact .ack _

theorem dataByte_emission {s : State} (b : Byte) (now : Tick) (hout : s.out.tx = []) :
    Emission s (s.dataByte b now) (s.dataByte b now).out.tx := by
  by_cases h : (s.stored b now).asm.bytesAccumulated.toNat = need (bufRead (s.stored b now).asm.rxBuf 0).toNat
  · rw [dataByte_last h]
    exact (complete_emission (s := s.stored b now) hout).of_eq rfl rfl
  · rw [dataByte_more h]
    exact .of_tx_nil hout

theorem rxByte_emission {s : State} (b : Byte) (now : Tick) (hout : s.out.tx = []) :
    Emission s (s.rxByte b now) (s.rxByte b now).out.tx := by
  obtain ⟨u, hu, e⟩ | ⟨-, e⟩ := rxByte_cases s b now <;> rw [e]
  · obtain ⟨rfl, -⟩ | rfl := hu
    · exact firstByte_emission b now hout
    · exact (firstByte_emission (s := (s.setAccumulated 0).signal .idleTimeout) b now hout).of_eq rfl rfl
  · exact dataByte_emission b now hout

theorem serveRow_emission {s : State} (src : Source) (body : List Byte) (now : Tick) (hout : s.out.tx = []) :
    Emission s (s.serveRow src body now) (s.serveRow src body now).out.tx := by
  obtain e | ⟨hidle, x, -, e⟩ := serveRow_cases s src body now <;> rw [e]
  · exact .of_tx_nil hout
  · unfold State.serve
    dsimp only
    split
    · rw [send_out, prepare_out, withSources_out, hout]
      exact .sent rfl (.inl hidle)
    · exact .of_tx_nil hout

/-- Every effect emits one unit at most (R85). -/
theorem Effect.emission {s t : State} {i : Instr} (h : Effect s i t) : Emission s t t.out.tx := by
  cases h with
  | reset | setinit | nothing | badArgument | replyRejected => exact .silent
  | poll now =>
    obtain ⟨asm, time, tx, ev, e, htx, -⟩ := poll_spec s.startOp now
    rw [e]
    obtain rfl | ⟨hbusy, rfl⟩ := htx
    · exact .silent
    · exact .repeated hbusy ⟨time, rfl⟩
  | rx b now => exact (rxByte_emission (s := s.startOp) b now rfl).of_eq rfl rfl
  | post q accepted now =>
    rw [post_eq_mux]
    exact (mux_emission (s := s.posting q accepted) now rfl).of_eq rfl rfl
  | frame src body now => exact (serveRow_emission (s := s.startOp) src body now rfl).of_eq rfl rfl
  | identification => exact .identification

/-- Settles O45: a frame is sent on an idle link or with the flipped sequence bit, neither of which is the case here. -/
theorem onlyTheSameFrameIsRepeatedWhileInFlight : Obligations.OnlyTheSameFrameIsRepeatedWhileInFlight := by
  intro s t i hbusy hsingle _ hexec hsame
  have hemission := (exec_single_effect hsingle hexec).emission
  generalize t.out.tx = tx at hemission
  cases hemission with
  | silent => simp
  | ack p => cases p <;> simp [ackCode]
  | nack => simp
  | identification => simp [identification]
  | repeated => simp
  | sent _ hnew =>
    rw [hbusy, hsame] at hnew
    simp at hnew

/-- Settles O53: a frame that is sent or repeated is the frame in flight afterwards, which the invariant of the sender
says is well formed. -/
theorem oneOperationEmitsAtMostOneUnit : Obligations.OneOperationEmitsAtMostOneUnit := by
  intro s t i hs hsingle hexec
  have heffect := exec_single_effect hsingle hexec
  have ht : Inv t := heffect.moves.invariant Move.inv hs
  have hcfg : t.cfg = s.cfg := (parametersNeverChange s t i hexec).1
  have hemission := heffect.emission
  generalize t.out.tx = tx at hemission
  cases hemission with
  | silent => simp
  | ack p => cases p <;> simp [ackCode]
  | nack => simp
  | identification => simp [identification]
  | repeated hbusy hkept =>
    obtain ⟨time, hsnd⟩ := hkept
    obtain ⟨hwell, -⟩ := hs.sender.inFlight hbusy
    exact .inr ⟨by rw [hsnd]; exact hbusy, by rw [hsnd]; rfl, hwell⟩
  | sent hbusy =>
    obtain ⟨hwell, -⟩ := ht.sender.inFlight hbusy
    exact .inr ⟨hbusy, rfl, hcfg ▸ hwell⟩

/-! ### What one operation signals -/

/-- On an initialized core the multiplexer signals nothing (R262). -/
theorem mux_ev {s : State} (now : Tick) (hinit : s.initialized = true) : (s.mux now).out.ev = s.out.ev := by
  obtain ⟨e, -⟩ | ⟨x, -, -, -, e⟩ | ⟨hnot, -⟩ := mux_cases s now
  · rw [e]
  · rw [e]
    rfl
  · exact absurd (hnot.symm.trans hinit) Bool.false_ne_true

/-- The conditions of a first byte; an ACK is accepted on an initialized core only (R408). -/
theorem firstByte_ev {s : State} (b : Byte) (now : Tick) (hs : ModeInv s) :
    ∃ ev ∈ [[], [Condition.malformedLength], [.staleAck], [.staleNack]],
      (s.firstByte b now).out.ev = s.out.ev ++ ev := by
  obtain ⟨p, -, e⟩ | ⟨-, e⟩ | ⟨-, e⟩ | ⟨-, e⟩ | ⟨-, e⟩ := firstByte_cases s b now <;> rw [e]
  case inl =>
    by_cases h : s.snd.outboundBusy = true ∧ p = s.snd.sendSequenceBit
    · have hinit : s.initialized = true :=
        Bool.eq_true_of_not_eq_false fun hnot => Bool.false_ne_true ((hs hnot).symm.trans h.1)
      rw [ctrlAck_accepted now h, mux_ev (s := s.freed) now hinit]
      exact ⟨[], by simp, (List.append_nil _).symm⟩
    · rw [ctrlAck_stale now h]
      exact ⟨[.staleAck], by simp, rfl⟩
  case inr.inl =>
    cases h : s.snd.outboundBusy with
    | true =>
      rw [ctrlNack_busy now h]
      exact ⟨[], by simp, (List.append_nil _).symm⟩
    | false =>
      rw [ctrlNack_stale now h]
      exact ⟨[.staleNack], by simp, rfl⟩
  case inr.inr.inl => exact ⟨[], by simp, (List.append_nil _).symm⟩
  case inr.inr.inr.inl => exact ⟨[.malformedLength], by simp, rfl⟩
  case inr.inr.inr.inr => exact ⟨[], by simp, (List.append_nil _).symm⟩

theorem dataByte_ev (s : State) (b : Byte) (now : Tick) :
    ∃ ev ∈ [[], [Condition.malformedLength], [.checksumMismatch], [.duplicateFrame]],
      (s.dataByte b now).out.ev = s.out.ev ++ ev := by
  by_cases h : (s.stored b now).asm.bytesAccumulated.toNat = need (bufRead (s.stored b now).asm.rxBuf 0).toNat
  · rw [dataByte_last h]
    obtain ⟨-, e⟩ | ⟨-, -, e⟩ | ⟨-, -, -, e⟩ | ⟨-, -, -, e⟩ := complete_cases (s.stored b now) <;> rw [e]
    · exact ⟨[.malformedLength], by simp, rfl⟩
    · exact ⟨[.checksumMismatch], by simp, rfl⟩
    · exact ⟨[.duplicateFrame], by simp, rfl⟩
    · exact ⟨[], by simp, (List.append_nil _).symm⟩
  · rw [dataByte_more h]
    exact ⟨[], by simp, (List.append_nil _).symm⟩

/-- The conditions of `RX` (R362): those of a first byte, perhaps after `IdleTimeout`, or those of a data byte. -/
theorem rxByte_ev {s : State} (b : Byte) (now : Tick) (hs : ModeInv s) (hout : s.out.ev = []) :
    (s.rxByte b now).out.ev ∈ rxEvents := by
  obtain ⟨u, hu, e⟩ | ⟨-, e⟩ := rxByte_cases s b now <;> rw [e]
  · obtain ⟨rfl, -⟩ | rfl := hu
    · obtain ⟨ev, hev, e⟩ := firstByte_ev b now hs
      rw [e, hout]
      clear e
      revert ev
      decide
    · obtain ⟨ev, hev, e⟩ := firstByte_ev (s := (s.setAccumulated 0).signal .idleTimeout) b now hs
      rw [e, signal_ev, setAccumulated_out, hout]
      clear e
      revert ev
      decide
  · obtain ⟨ev, hev, e⟩ := dataByte_ev s b now
    rw [e, hout]
    clear e
    revert ev
    decide

/-- A posted event is deferred or sent, or is the only one and is dropped: nothing or `DroppedUninit` (R260, R274). -/
theorem posting_ev {s : State} {q : Sources} (accepted : Option Bool) (now : Tick) (hs : Inv s)
    (hq : Posted s.cfg s.src q) :
    ((s.posting q accepted).post now).out.ev = [] ∨ ((s.posting q accepted).post now).out.ev = [.droppedUninit] := by
  cases hinit : s.initialized with
  | true =>
    rw [post_eq_mux, mux_ev (s := s.posting q accepted) now hinit]
    exact .inl rfl
  | false =>
    have hidle : s.snd.outboundBusy = false := hs.mode hinit
    obtain ⟨x, hx, hnone⟩ := hq.single (hs.sources.quiet hidle)
    rw [post_unready (s := s.posting q accepted) now hinit hidle hx hnone]
    exact .inr rfl

/-- A frame row has no effect in a state that a run reaches: an idle link has nothing pending (R55). -/
theorem serveRow_of_inv {s : State} (hs : SourcesInv s) (src : Source) (body : List Byte) (now : Tick) :
    s.serveRow src body now = s := by
  obtain e | ⟨hidle, x, hpick, -⟩ := serveRow_cases s src body now
  · exact e
  · cases hpick.symm.trans (pick_of_quiet (hs.quiet hidle))

theorem Effect.ev {s t : State} {i : Instr} (h : Effect s i t) (hs : Inv s) : t.out.ev ∈ possibleEvents i := by
  cases h with
  | reset h =>
    subst h
    exact List.mem_singleton.mpr rfl
  | setinit h | identification h =>
    rw [h]
    exact List.mem_singleton.mpr rfl
  | nothing h | badArgument h | replyRejected h => exact h
  | poll now h =>
    subst h
    obtain ⟨asm, time, tx, ev, e, -, hev, -⟩ := poll_spec s.startOp now
    rw [e]
    exact hev
  | rx b now _ h =>
    rw [h]
    exact rxByte_ev (s := s.startOp) b now hs.mode rfl
  | post q accepted now hq h =>
    obtain e | e := posting_ev accepted now hs hq <;> rw [e]
    exacts [h.1, h.2]
  | frame src body now h =>
    rw [serveRow_of_inv (s := s.startOp) { hs.sources with }, h]
    exact List.mem_singleton.mpr rfl

/-- Settles O52: the effect of the instruction signals what the table of R362 lists. -/
theorem conditionsOfAnOperationAreThoseOfTheTable : Obligations.ConditionsOfAnOperationAreThoseOfTheTable :=
  fun _ _ _ hs hsingle hexec => (exec_single_effect hsingle hexec).ev hs

end Sys2Proof.Machine
end

section
/-!
The rows of the table as instructions (spec/30_encoding.md): the round trip of encoding and decoding, words of the
spec, and the rows of one inbound byte, each of which is the operation `RX` of that byte (R110, R128).
-/

namespace Sys2Proof.Machine

/-- Settles O1: the round trip of each row, by the constructors of the instructions. -/
theorem decodeOfEncodeIsTheInstruction : Obligations.DecodeOfEncodeIsTheInstruction := by
  intro c i hc hwf
  have hround : Laws.EncodeDecode.Statement i := by
    cases i with
    | reset => exact Laws.EncodeDecode.reset
    | poll now => exact Laws.EncodeDecode.poll now
    | rx b now => exact Laws.EncodeDecode.rx b now
    | setinit => exact Laws.EncodeDecode.setinit
    | reply op payload now => exact Laws.EncodeDecode.reply op payload now
    | limit axis now => exact Laws.EncodeDecode.limit axis now
    | sense axis flag now => exact Laws.EncodeDecode.sense axis flag now
    | movedone now => exact Laws.EncodeDecode.movedone now
    | temprdy ch now => exact Laws.EncodeDecode.temprdy ch now
    | resume kind now => exact Laws.EncodeDecode.resume kind now
    | autosleep mask now => exact Laws.EncodeDecode.autosleep mask now
    | ping slot now => exact Laws.EncodeDecode.ping slot now
    | reservedB => exact Laws.EncodeDecode.reservedB
    | reservedC => exact Laws.EncodeDecode.reservedC
    | reservedD => exact Laws.EncodeDecode.reservedD
    | reservedE => exact Laws.EncodeDecode.reservedE
    | reservedF => exact Laws.EncodeDecode.reservedF
    | rxAck0 now => exact Laws.EncodeDecode.rxAck0 now
    | rxAck1 now => exact Laws.EncodeDecode.rxAck1 now
    | rxNack now => exact Laws.EncodeDecode.rxNack now
    | rxIdreq now => exact Laws.EncodeDecode.rxIdreq now
    | rxBadlen01 low now => exact Laws.EncodeDecode.rxBadlen01 low now
    | rxBadlen2 now => exact Laws.EncodeDecode.rxBadlen2 now
    | rxBadlen4 now => exact Laws.EncodeDecode.rxBadlen4 now
    | rxBadlenHi low now => exact Laws.EncodeDecode.rxBadlenHi low now
    | rxLen length now => exact Laws.EncodeDecode.rxLen length now
    | rxData b now => exact Laws.EncodeDecode.rxData b now
    | fLimit s a k now => exact Laws.EncodeDecode.fLimit s a k now
    | fSense s g a k now => exact Laws.EncodeDecode.fSense s g a k now
    | fMovecb s n k now => exact Laws.EncodeDecode.fMovecb s n k now
    | fTempcb s ch k now => exact Laws.EncodeDecode.fTempcb s ch k now
    | fReply s op payload checks now => exact Laws.EncodeDecode.fReply s op payload checks now
    | fResume s r k now => exact Laws.EncodeDecode.fResume s r k now
    | fAutosleep s m k now => exact Laws.EncodeDecode.fAutosleep s m k now
    | fPong s q k now => exact Laws.EncodeDecode.fPong s q k now
    | fInbound s op payload checks now => exact Laws.EncodeDecode.fInbound s op payload checks now
    | idResponse payload => exact Laws.EncodeDecode.idResponse payload
    | checkByte tag p0 p1 p2 p3 p4 now => exact Laws.EncodeDecode.checkByte tag p0 p1 p2 p3 p4 now
  exact hround c hc hwf

/-- Settles O2: each of the eleven words is evaluated by the decoder. -/
theorem wordsOfTheSpecDecode : Obligations.WordsOfTheSpecDecode :=
  ⟨rfl, rfl, rfl, rfl, rfl, rfl, rfl, rfl, rfl, rfl, rfl⟩

/-! ### The rows of one inbound byte -/

theorem lowByte_eta {b : Byte} (h : b.toNat ≤ 1) : lowByte (b.getLsbD 0) = b := by
  revert b
  decide +kernel

theorem highByte_eta {b : Byte} (h : b.getLsbD 7 = true) : highByte (b.setWidth 7) = b := by
  revert b
  decide +kernel

theorem lengthByte_eta {b : Byte} (h : ¬ b.getLsbD 7 = true) : lengthByte (b.setWidth 7) = b := by
  revert b
  decide +kernel

/-- The row of a first byte, by the tests of R110 in their order, is `RX` of the byte. -/
theorem exec_firstByteRow (s : State) (b : Byte) (now : Tick) :
    exec (decodeByte s.cfg true b now) s = exec (.rx b now) s := by
  unfold decodeByte classify
  rw [if_pos rfl]
  by_cases hack0 : b = s.cfg.codeAck0
  · rw [if_pos hack0, hack0]; rfl
  by_cases hack1 : b = s.cfg.codeAck1
  · rw [if_neg hack0, if_pos hack1, hack1]; rfl
  by_cases hnack : b = s.cfg.codeNack
  · rw [if_neg hack0, if_neg hack1, if_pos hnack, hnack]; rfl
  by_cases hid : b = s.cfg.codeId
  · rw [if_neg hack0, if_neg hack1, if_neg hnack, if_pos hid, hid]; rfl
  rw [if_neg hack0, if_neg hack1, if_neg hnack, if_neg hid]
  by_cases hlow : b.toNat ≤ 1
  · rw [if_pos hlow]
    exact (exec_rxBadlen01_eq_rx _ now s).trans (by rw [lowByte_eta hlow])
  by_cases htwo : b = 2
  · rw [if_neg hlow, if_pos htwo, htwo]; rfl
  by_cases hfour : b = 4
  · rw [if_neg hlow, if_neg htwo, if_pos hfour, hfour]; rfl
  rw [if_neg hlow, if_neg htwo, if_neg hfour]
  by_cases hhigh : b.getLsbD 7 = true
  · rw [if_pos hhigh]
    exact (exec_rxBadlenHi_eq_rx _ now s).trans (by rw [highByte_eta hhigh])
  · rw [if_neg hhigh]
    exact (exec_rxLen_eq_rx _ now s).trans (by rw [lengthByte_eta hhigh])

theorem exec_checkByteRow (s : State) (b : Byte) (now : Tick) : exec (decodeCheck b now) s = exec (.rx b now) s := by
  show exec (.rx (packCheck _ _ _ _ _ _) now) s = _
  rw [packCheck_eta]

/-- Settles O9: inside a frame the row is `RX.DATA`, else it is the row of a first byte. -/
theorem rowOfAnInboundByteIsTheOperationRx : Obligations.RowOfAnInboundByteIsTheOperationRx := by
  refine fun s b now => ⟨fun i hi => ?_, exec_checkByteRow s b now⟩
  have hrow : decodeByte s.cfg (s.idleAt now) b (timeField s.cfg now) = i := Except.ok.inj hi
  rw [← hrow]
  cases s.idleAt now with
  | true => exact exec_firstByteRow s b _
  | false => rfl

end Sys2Proof.Machine
end

section
/-!
System operations and the whole machine (spec/47_system_ops.md; spec/70_reset_and_hazards.md R401, R412;
spec/60_exceptions.md R350).
-/

namespace Sys2Proof.Machine

/-! ### Reset, the mode and the reserved selectors -/

/-- Settles O46: `State.reset` and `State.resetOp` write the seventeen values out. -/
theorem resetGivesTheStatedValues : Obligations.ResetGivesTheStatedValues := by
  have hstate : ResetValues State.reset := by constructor <;> rfl
  have hoperation : ∀ s : State, ResetValues s.resetOp := fun s => by constructor <;> rfl
  exact ⟨hstate, fun s => ⟨s.resetOp, rfl, hoperation s, rfl, rfl, rfl⟩⟩

/-- Settles O47: `SETINIT` is one update of the state with empty outputs. -/
theorem setinitOnlySetsTheModeBit : Obligations.SetinitOnlySetsTheModeBit := fun _ => rfl

/-- Settles O48: each of the five selectors only begins an operation. -/
theorem reservedSelectorsDoNothing : Obligations.ReservedSelectorsDoNothing := by
  intro s i hi
  simp only [List.mem_cons, List.not_mem_nil, or_false] at hi
  obtain rfl | rfl | rfl | rfl | rfl := hi <;> rfl

theorem defaultConfig_legal : defaultConfig.Legal where
  wTime_ge := by decide
  tIdle_lt := by decide
  tAck_lt := by decide
  codes_high := by decide
  codes_distinct := by decide
  matrix_covers := by decide +kernel
  nAxes_range := by decide
  nTemps_range := by decide

/-- Settles O59: after reset the assembler and the link are idle and nothing is pending. -/
theorem resetMeetsTheInvariants : Obligations.ResetMeetsTheInvariants where
  legal := defaultConfig_legal
  assembler := assemblerInv_of_idle rfl
  sender := ⟨(nomatch ·), (nomatch ·)⟩
  sources :=
    { axes := fun _ _ => ⟨BitVec.getLsbD_zero, BitVec.getLsbD_zero, BitVec.getLsbD_zero⟩
      temps := fun _ _ => BitVec.getLsbD_zero
      pointer := by decide
      quiet := fun _ => ⟨rfl, rfl, rfl, rfl, rfl, rfl, rfl, rfl, rfl⟩ }
  mode := fun _ => rfl
  times := ⟨Nat.two_pow_pos _, Nat.two_pow_pos _⟩

/-! ### exec and step are total -/

/-- Settles O49: every single operation has an effect, and `F.INBOUND` is a run of them. -/
theorem everyInstructionHasANextState : Obligations.EveryInstructionHasANextState := by
  intro i s
  cases hsingle : isSingle i with
  | true =>
    obtain ⟨t, hexec, -⟩ := exec_effect hsingle s
    exact ⟨t, hexec⟩
  | false =>
    cases i with
    | fInbound => exact ⟨_, rfl⟩
    | _ => cases hsingle

/-- Settles O50: the three outcomes of `step`, by the queue and then by the decoder's answer. -/
theorem stepRunsTheDecodedInstruction : Obligations.StepRunsTheDecodedInstruction := by
  refine ⟨fun s u rest hinput => ⟨fun i hdecode => ?_, fun r hdecode => ?_⟩, fun s hinput => ?_⟩
  · simp only [step, hinput, hdecode]
  · simp only [step, hinput, hdecode]
  · simp only [step, hinput]

/-! ### The order of one instant -/

theorem selectorRank_bounds (opSel : BitVec 4) : selectorRank opSel ≠ 0 ∧ selectorRank opSel < 13 := by
  revert opSel
  decide

theorem instantRank_eq_zero_iff {u : Presented} : instantRank u = 0 ↔ u = .resetLine := by
  cases u with
  | resetLine => simp [instantRank]
  | request r => simp [instantRank, (selectorRank_bounds r.opSel).1]
  | _ => simp [instantRank]

theorem instantRank_lt (u : Presented) : instantRank u < 13 := by
  cases u with
  | request r => exact (selectorRank_bounds r.opSel).2
  | _ => simp [instantRank]

theorem any_instantRank_zero (units : List Presented) :
    (units.any fun u => instantRank u == 0) = true ↔ .resetLine ∈ units := by
  simp [instantRank_eq_zero_iff]

/-- The units of rank below `n`, rank after rank. -/
def byRank (n : Nat) (units : List Presented) : List Presented :=
  (List.range n).flatMap fun r => units.filter fun u => instantRank u == r

theorem serialize_of_no_reset {units : List Presented} (h : .resetLine ∉ units) : serialize units = byRank 13 units :=
  if_neg (mt (any_instantRank_zero units).mp h)

theorem byRank_succ (n : Nat) (units : List Presented) :
    byRank (n + 1) units = byRank n units ++ units.filter fun u => instantRank u == n := by
  simp [byRank, List.range_succ]

theorem byRank_perm (n : Nat) (units : List Presented) :
    (byRank n units).Perm (units.filter fun u => decide (instantRank u < n)) := by
  induction n with
  | zero => simp [byRank]
  | succ n ih =>
    rw [byRank_succ]
    refine (ih.append_right _).trans ?_
    have hsplit := List.filter_append_perm (fun u => decide (instantRank u < n))
      (units.filter fun u => decide (instantRank u < n + 1))
    simp only [List.filter_filter] at hsplit
    convert hsplit using 3
    · funext u
      by_cases h : instantRank u < n <;> simp [h]
      omega
    · funext u
      rw [Bool.eq_iff_iff]
      simp
      omega

theorem byRank_pairwise (n : Nat) (units : List Presented) :
    (byRank n units).Pairwise fun u v => instantRank u ≤ instantRank v := by
  rw [byRank, List.pairwise_flatMap]
  refine ⟨fun r _ => ?_, List.pairwise_lt_range.imp fun {r r'} hlt u hu v hv => ?_⟩
  · refine List.pairwise_of_forall_mem_list fun u hu v hv => ?_
    simp only [List.mem_filter, beq_iff_eq] at hu hv
    omega
  · simp only [List.mem_filter, beq_iff_eq] at hu hv
    omega

theorem byRank_filter (n r : Nat) (units : List Presented) :
    (byRank n units).filter (fun u => instantRank u == r) =
      units.filter fun u => decide (instantRank u < n) && (instantRank u == r) := by
  induction n with
  | zero => simp [byRank]
  | succ n ih =>
    rw [byRank_succ, List.filter_append, ih, List.filter_filter]
    by_cases h : r = n
    · subst h
      have hfirst : (units.filter fun u => decide (instantRank u < r) && (instantRank u == r)) = [] := by
        simp only [List.filter_eq_nil_iff, Bool.and_eq_true, decide_eq_true_eq, beq_iff_eq]
        omega
      rw [hfirst, List.nil_append]
      refine List.filter_congr fun u _ => ?_
      rw [Bool.eq_iff_iff]
      simp only [Bool.and_eq_true, decide_eq_true_eq, beq_iff_eq]
      omega
    · have hlast : (units.filter fun u => (instantRank u == r) && (instantRank u == n)) = [] := by
        simp only [List.filter_eq_nil_iff, Bool.and_eq_true, beq_iff_eq]
        omega
      rw [hlast, List.append_nil]
      refine List.filter_congr fun u _ => ?_
      rw [Bool.eq_iff_iff]
      simp only [Bool.and_eq_true, decide_eq_true_eq, beq_iff_eq]
      omega

/-- Settles O60: the ranks are read off; without `RESET` the serialization is the list by rank, and every rank is below
13. -/
theorem operationsOfOneInstantAreOrdered : Obligations.OperationsOfOneInstantAreOrdered := by
  refine ⟨⟨rfl, fun r => ?_⟩, fun b f now => ⟨rfl, rfl, rfl, rfl, rfl⟩, fun s units => rfl, fun units => ⟨?_, ?_⟩⟩
  · show (_ → selectorRank r.opSel = _) ∧ (_ → _ → selectorRank r.opSel = _) ∧ (_ → selectorRank r.opSel = _) ∧
      (_ → selectorRank r.opSel = _)
    generalize r.opSel = opSel
    revert opSel
    decide
  · exact fun h => if_pos ((any_instantRank_zero units).mpr h)
  · intro h
    rw [serialize_of_no_reset h]
    have hall : (units.filter fun u => decide (instantRank u < 13)) = units := by simp [instantRank_lt]
    have hperm := byRank_perm 13 units
    rw [hall] at hperm
    refine ⟨hperm, byRank_pairwise 13 units, fun r => ?_⟩
    simp [byRank_filter, instantRank_lt]

end Sys2Proof.Machine
end

section
/-!
The check bytes (spec/40_parity_codec.md R155, R158, R159, R161). A check byte is the tag and five check bits, so a
statement about it falls into one about the tag and one about each row of the matrix.
-/

namespace Sys2Proof.Machine

/-! ### The fields of a check byte -/

/-- The check bit of a row, bit by bit: of the group index only the three low bits are selected (R155). -/
theorem checkBit_eq_parity (row : ParityRow) (d0 d1 d2 idx : Byte) : checkBit row d0 d1 d2 (idx &&& 7) =
    (List.range 8).foldl (fun p i => p ^^ ((d0.getLsbD i && row.m0.getLsbD i) ^^ (d1.getLsbD i && row.m1.getLsbD i) ^^
      (d2.getLsbD i && row.m2.getLsbD i) ^^ (decide (i < 3) && idx.getLsbD i && row.m3.getLsbD i))) false := by
  have hlow : ∀ i < 8, (7 : Byte).getLsbD i = decide (i < 3) := by decide
  rw [checkBit, foldIsTheParityOfAllBits]
  refine List.foldl_ext _ _ _ fun p i hi => ?_
  simp only [BitVec.getLsbD_xor, BitVec.getLsbD_and, hlow i (List.mem_range.mp hi), Bool.and_comm (idx.getLsbD i)]

/-- Bit `r + 3` of a check byte is the check bit of row `r` (R155, D6). -/
theorem encodeBlock_rowBit {m : ParityMatrix} {r : Nat} {row : ParityRow} (hrow : m.rows[r]? = some row)
    (d0 d1 d2 idx : Byte) : (encodeBlock m d0 d1 d2 idx).getLsbD (r + 3) = checkBit row d0 d1 d2 (idx &&& 7) := by
  obtain ⟨h0, h1, h2, h3, h4⟩ := packCheck_bits (idx.setWidth 3) (checkBit m.r0 d0 d1 d2 (idx &&& 7))
    (checkBit m.r1 d0 d1 d2 (idx &&& 7)) (checkBit m.r2 d0 d1 d2 (idx &&& 7)) (checkBit m.r3 d0 d1 d2 (idx &&& 7))
    (checkBit m.r4 d0 d1 d2 (idx &&& 7))
  match r, hrow with
  | 0, rfl => exact h0
  | 1, rfl => exact h1
  | 2, rfl => exact h2
  | 3, rfl => exact h3
  | 4, rfl => exact h4
  | _ + 5, hnone => cases hnone

/-- Settles O5: the tag is the index, and the bit of a row is its check bit. -/
theorem checkByteHasTagAndRowParities : Obligations.CheckByteHasTagAndRowParities := by
  refine fun m d0 d1 d2 idx => ⟨?tag, fun r row hrow => ?parity⟩
  case tag =>
    have htag := congrArg BitVec.toNat (encodeBlock_tag m d0 d1 d2 idx)
    simpa only [BitVec.toNat_setWidth] using htag
  case parity => rw [encodeBlock_rowBit hrow, checkBit_eq_parity]

/-! ### The mask form -/

theorem setWidth_three_eq_iff (a b : Byte) : a.setWidth 3 = b.setWidth 3 ↔ a &&& 7 = b &&& 7 := by
  have hlow : ∀ x : Byte, x &&& 7 = (x.setWidth 3).setWidth 8 := by decide +kernel
  have hback : ∀ x : Byte, (x &&& 7).setWidth 3 = x.setWidth 3 := by decide +kernel
  exact ⟨fun h => by rw [hlow, hlow, h], fun h => by rw [← hback, h, hback]⟩

/-- A check byte verifies exactly when its tag and each of its row bits are right. -/
theorem verifyBlock_iff_rows {m : ParityMatrix} {d0 d1 d2 k idx : Byte} : verifyBlock m d0 d1 d2 k idx = true ↔
    k &&& 7 = idx &&& 7 ∧
      ∀ r row, m.rows[r]? = some row → k.getLsbD (r + 3) = checkBit row d0 d1 d2 (idx &&& 7) := by
  rw [verifyBlock_iff, ← setWidth_three_eq_iff]
  constructor
  · rintro rfl
    exact ⟨encodeBlock_tag m d0 d1 d2 idx, fun r row hrow => encodeBlock_rowBit hrow d0 d1 d2 idx⟩
  · rintro ⟨htag, hrows⟩
    rw [← packCheck_eta k, htag, hrows 0 m.r0 rfl, hrows 1 m.r1 rfl, hrows 2 m.r2 rfl, hrows 3 m.r3 rfl,
      hrows 4 m.r4 rfl]
    rfl

/-- A mask that selects, of the bits 3 to 7, bit `r + 3` only: the parity is that of the tag and that bit. -/
theorem fold_and_mask {mask : Byte} {r : Nat} (hr : r < 5)
    (hmask : ∀ i, 3 ≤ i → i < 8 → mask.getLsbD i = decide (i = r + 3)) (k : Byte) :
    fold (k &&& mask) = (fold ((k &&& 7) &&& mask) ^^ k.getLsbD (r + 3)) := by
  have hsplit : k &&& mask = ((k &&& 7) &&& mask) ^^^ (BitVec.twoPow 8 (r + 3) &&& k) := by
    apply BitVec.eq_of_getLsbD_eq
    intro i hi
    have hlow : ∀ i < 8, (7 : Byte).getLsbD i = decide (i < 3) := by decide
    simp only [BitVec.getLsbD_xor, BitVec.getLsbD_and, hlow i hi, BitVec.getLsbD_twoPow]
    by_cases hi3 : i < 3
    · simp [hi3, show ¬ r + 3 = i by omega]
    · rw [hmask i (by omega) hi]
      by_cases hir : i = r + 3
      · simp [hir, show r + 3 < 8 by omega]
      · simp [hi3, hir, Ne.symm hir]
  rw [hsplit, fold_xor, fold_and_twoPow k (by omega)]

/-- Settles O7: in each row the mask form adds the row's bit of the check byte to its check bit. -/
theorem maskFormVerifiesTheSameBytes : Obligations.MaskFormVerifiesTheSameBytes := by
  intro m d0 d1 d2 k idx hmask
  rw [verifyBlock_iff_rows]
  refine and_congr_right fun htag => ?_
  have hrow : ∀ r row, m.rows[r]? = some row → (k.getLsbD (r + 3) = checkBit row d0 d1 d2 (idx &&& 7) ↔
      fold ((d0 &&& row.m0) ^^^ (d1 &&& row.m1) ^^^ (d2 &&& row.m2) ^^^ (k &&& row.m3)) = false) := by
    intro r row hr
    have hlt : r < 5 := (List.getElem?_eq_some_iff.mp hr).1
    rw [fold_xor, fold_and_mask hlt (hmask r row hr), ← Bool.xor_assoc, ← fold_xor, htag]
    show _ ↔ (checkBit row d0 d1 d2 (idx &&& 7) ^^ _) = false
    rw [bne_eq_false_iff_eq, eq_comm]
  constructor
  · intro h row hmem
    obtain ⟨r, hr⟩ := List.mem_iff_getElem?.mp hmem
    exact (hrow r row hr).mp (h r row hr)
  · exact fun h r row hr => (hrow r row hr).mpr (h row (List.mem_of_getElem? hr))

/-! ### VERIFY_FRAME -/

theorem verifyFrame_eq_wellFormedFrame (m : ParityMatrix) {buf : Vector Byte 170}
    (hlegal : legalLength (bufRead buf 0) = true) :
    verifyFrame m buf = wellFormedFrame m (bufSlice buf 0 (need (bufRead buf 0).toNat)) := by
  have hneed := need_bounds hlegal
  have hread : ∀ i < need (bufRead buf 0).toNat,
      bufRead buf i = (bufSlice buf 0 (need (bufRead buf 0).toNat)).getD i 0 := by
    intro i hi
    rw [bufSlice_getD _ 0 hi, Nat.zero_add]
  rw [Bool.eq_iff_iff, verifyFrame_iff, wellFormedFrame_iff, ← hread 0 (by omega), bufSlice_length]
  exact ⟨fun h => ⟨hlegal, rfl, checked_congr hlegal h hread⟩,
    fun h => checked_congr hlegal h.2.2 fun i hi => (hread i hi).symm⟩

theorem verifyFrame_stampChecks (m : ParityMatrix) {buf : Vector Byte 170}
    (hlegal : legalLength (bufRead buf 0) = true) : verifyFrame m (stampChecks m buf) = true := by
  obtain ⟨-, -, hmax⟩ := need_bounds hlegal
  obtain ⟨hkept, hchecked⟩ := stampChecks_spec m buf hlegal hmax
  have hpos : 0 < (bufRead buf 0).toNat := by
    have := legalLength_iff.mp hlegal
    omega
  rwa [verifyFrame_iff, hkept 0 (.inl hpos)]

/-- Where byte `i` belongs: it is a byte of group `t`, or the check byte of group `t` (R104). -/
theorem byte_of_group {L i : Nat} (hi : i < need L) :
    ∃ t < groups L, i < L ∧ (i = 3 * t ∨ i = 3 * t + 1 ∨ i = 3 * t + 2) ∨ i = L + t := by
  unfold need at hi
  by_cases h : i < L
  · exact ⟨i / 3, by unfold groups; omega, .inl ⟨h, by omega⟩⟩
  · exact ⟨i - L, by omega, .inr (by omega)⟩

/-- A flipped bit of a byte after the length is seen by the group of the byte, whose other bytes are as they were. -/
theorem verifyFrame_flipped {c : Config} (hc : c.Legal) {buf flipped : Vector Byte 170} {i j : Nat}
    (hlegal : legalLength (bufRead buf 0) = true) (hpasses : verifyFrame c.matrix buf = true) (hpos : 1 ≤ i)
    (hi : i < need (bufRead buf 0).toNat) (hj : j < 8)
    (hflip : bufRead flipped i = bufRead buf i ^^^ BitVec.twoPow 8 j)
    (hsame : ∀ k, k ≠ i → bufRead flipped k = bufRead buf k) : verifyFrame c.matrix flipped = false := by
  rw [Bool.eq_false_iff]
  intro hflipped
  rw [verifyFrame_iff] at hpasses hflipped
  rw [hsame 0 (by omega)] at hflipped
  have hlen : legalLen (bufRead buf 0).toNat = true := hlegal
  generalize (bufRead buf 0).toNat = L at *
  obtain ⟨t, ht, hbyte⟩ := byte_of_group hi
  have hbefore := group_before_check hlen ht
  have hcheck := hpasses t ht
  have hverify := verifyBlock_iff.mpr (hflipped t ht)
  obtain ⟨-, hdetected, -⟩ := everySingleBitErrorIsDetected c (bufRead buf (3 * t)) (bufRead buf (3 * t + 1))
    (bufRead buf (3 * t + 2)) (BitVec.ofNat 8 t) hc
  obtain ⟨h0, h1, h2, hk⟩ := hdetected j hj
  obtain ⟨hdata, rfl | rfl | rfl⟩ | rfl := hbyte
  · rw [hflip, hsame (3 * t + 1) (by omega), hsame (3 * t + 2) (by omega), hsame (L + t) (by omega), hcheck] at hverify
    exact Bool.false_ne_true (h0.symm.trans hverify)
  · rw [hflip, hsame (3 * t) (by omega), hsame (3 * t + 2) (by omega), hsame (L + t) (by omega), hcheck] at hverify
    exact Bool.false_ne_true (h1.symm.trans hverify)
  · rw [hflip, hsame (3 * t) (by omega), hsame (3 * t + 1) (by omega), hsame (L + t) (by omega), hcheck] at hverify
    exact Bool.false_ne_true (h2.symm.trans hverify)
  · rw [hflip, hsame (3 * t) (by omega), hsame (3 * t + 1) (by omega), hsame (3 * t + 2) (by omega), hcheck] at hverify
    exact Bool.false_ne_true (hk.symm.trans hverify)

/-- Settles O8, clause by clause. -/
theorem verifyFramePassesExactlyTheUncorruptedFrames : Obligations.VerifyFramePassesExactlyTheUncorruptedFrames := by
  intro c buf hlegal m L
  obtain ⟨-, -, hmax⟩ := need_bounds hlegal
  obtain ⟨hkept, -⟩ := stampChecks_spec m buf hlegal hmax
  exact ⟨verifyFrame_iff m buf, verifyFrame_eq_wellFormedFrame m hlegal, ⟨verifyFrame_stampChecks m hlegal, hkept⟩,
    fun hc hpasses i j flipped hpos hi hj hflip hsame => verifyFrame_flipped hc hlegal hpasses hpos hi hj hflip hsame⟩

end Sys2Proof.Machine
end

section
/-!
Bytes inside a frame (spec/41_frame_assembler.md R185 to R188; spec/42_duplicate_suppressor.md R211 to R217). The frame
that a byte completes is judged by `State.judged`; a whole frame is one such completion.
-/

namespace Sys2Proof.Machine

/-! ### Data bytes and completion -/

/-- The rows by which a byte enters a frame in progress are `RX` of it. -/
theorem exec_dataRow {b : Byte} {now : Tick} {i : Instr} (hi : i ∈ [Instr.rx b now, .rxData b now, decodeCheck b now])
    (s : State) : exec i s = exec (.rx b now) s := by
  simp only [List.mem_cons, List.not_mem_nil, or_false] at hi
  obtain rfl | rfl | rfl := hi
  exacts [rfl, rfl, exec_checkByteRow s b now]

/-- A byte in time is data of the frame in progress (R181). -/
theorem exec_rx_data {s : State} (b : Byte) {now : Tick} (hpartial : s.asm.bytesAccumulated ≠ 0)
    (hintime : elapsed s.cfg now s.asm.lastByteTime ≤ s.cfg.tIdle) :
    exec (.rx b now) s = .next (s.startOp.dataByte b now) := by
  have hfresh : s.startOp.stalled now = false := by
    rw [Bool.eq_false_iff, Ne, stalled_iff]
    exact fun h => absurd hintime (Nat.not_le.mpr h.2)
  exact congrArg Host.Outcome.next (rxByte_data b now hfresh hpartial)

/-- Settles O12: the byte is written at the count, which a legal frame keeps inside the buffer. -/
theorem byteInsideAFrameIsData : Obligations.ByteInsideAFrameIsData := by
  intro s b now hs hpartial hintime hmore
  obtain ⟨hlegal, -⟩ := hs hpartial
  obtain ⟨-, -, hmax⟩ := need_bounds hlegal
  refine ⟨bufWrite s.asm.rxBuf s.asm.bytesAccumulated.toNat b,
    ⟨bufRead_bufWrite_same _ _ (by omega), fun i hi => bufRead_bufWrite_ne _ _ hi⟩, fun i hi => ?_⟩
  rw [exec_dataRow hi, exec_rx_data b hpartial hintime, dataByte_more]
  · rfl
  · rw [stored_count (s := s.startOp) b now hs hpartial, stored_lengthByte (s := s.startOp) b now hpartial]
    exact Nat.ne_of_lt hmore

/-- The state after the completion of a frame of legal length: the codec decides, then the sequence bit (R187, R211). -/
def State.judged (s : State) : State :=
  let q := seqBit (bufRead s.asm.rxBuf 1)
  let asm := { s.asm with bytesAccumulated := 0 }
  if verifyFrame s.cfg.matrix s.asm.rxBuf = false then
    { s with asm := asm, out := ⟨[s.cfg.codeNack], [], [.checksumMismatch], none⟩ }
  else if q = s.receiveSequenceBit then
    { s with
      asm := asm
      receiveSequenceBit := !s.receiveSequenceBit
      out := ⟨[ackCode s.cfg q], [⟨opcodeOf (bufRead s.asm.rxBuf 1), s.asm.payload⟩], [], none⟩ }
  else { s with asm := asm, out := ⟨[ackCode s.cfg q], [], [.duplicateFrame], none⟩ }

theorem complete_eq_judged {s : State} (hlegal : legalLength (bufRead s.asm.rxBuf 0) = true)
    (hout : s.out = Outputs.empty) : s.complete = s.judged := by
  unfold State.judged
  obtain ⟨hnot, -⟩ | ⟨-, hfails, e⟩ | ⟨-, hpasses, hother, e⟩ | ⟨-, hpasses, hexpected, e⟩ := complete_cases s
  · exact absurd (hnot.symm.trans hlegal) Bool.false_ne_true
  · rw [e, if_pos hfails, State.reject, State.signal, State.emit, setAccumulated_out, hout]
    rfl
  · rw [e, if_neg (by simp [hpasses]), if_neg hother, State.duplicate, State.signal, State.emit, setAccumulated_out,
      hout]
    rfl
  · rw [e, if_neg (by simp [hpasses]), if_pos hexpected, State.accept, State.deliverPacket, State.emit]
    dsimp only
    rw [setAccumulated_out, hout]
    rfl

/-- Settles O13: the stored byte completes the frame, which is judged. -/
theorem completedFrameIsJudgedByCodecThenSequenceBit : Obligations.CompletedFrameIsJudgedByCodecThenSequenceBit := by
  intro s b now hs hpartial hintime hlast buf q ack L asm i hi
  obtain ⟨hlegal, -⟩ := hs hpartial
  have hlength := stored_lengthByte (s := s.startOp) b now hpartial
  rw [exec_dataRow hi, exec_rx_data b hpartial hintime, dataByte_last, complete_eq_judged (hlength ▸ hlegal) rfl]
  · rfl
  · rw [stored_count (s := s.startOp) b now hs hpartial, hlength]
    exact hlast

/-! ### A whole frame -/

/-- What the frame buffer says of a frame that was written into it from index 0 on. -/
theorem received_frame {c : Config} {q : Bool} {op : BitVec 7} {payload checks : List Byte}
    (h : frameOk c q op payload checks = true) (old : Vector Byte 170) :
    let buf := bufWriteSlice old 0 (frameBody q op payload ++ checks)
    bufRead buf 0 = BitVec.ofNat 8 (2 + payload.length) ∧ bufRead buf 1 = seqOpByte q op ∧
      bufSlice buf 2 payload.length = payload ∧ verifyFrame c.matrix buf = true := by
  intro buf
  obtain ⟨-, hchecks, hlegal⟩ := splitFrame_frameBody h
  obtain ⟨-, -, hmax⟩ := need_bounds hlegal
  have hlen : (frameBody q op payload ++ checks).length = need (2 + payload.length) := by
    rw [List.length_append, frameBody_length, hchecks, need]
  have hread : ∀ i < need (2 + payload.length), bufRead buf i = (frameBody q op payload ++ checks).getD i 0 :=
    fun i hi => (overwrites_bufWriteSlice old (by omega)).1 i (by omega)
  have hwell : wellFormedFrame c.matrix (frameBody q op payload ++ checks) = true := by
    simp only [frameOk, Bool.and_eq_true] at h
    exact h.2
  obtain ⟨-, -, hchecked⟩ := (wellFormedFrame_iff _ _).mp hwell
  have hneed : 2 + payload.length ≤ need (2 + payload.length) := Nat.le_add_right _ _
  have h0 : bufRead buf 0 = BitVec.ofNat 8 (2 + payload.length) := hread 0 (by omega)
  have hL : ((frameBody q op payload ++ checks).getD 0 0).toNat = 2 + payload.length := frameBody_lengthByte hlegal
  refine ⟨h0, hread 1 (by omega), ?slice, ?passes⟩
  case slice =>
    apply List.ext_getElem
    · simp
    · intro i hi hi'
      have hbyte := hread (2 + i) (by omega)
      rw [← bufSlice_getD buf (i := 2) 0 hi', Nat.add_comm 2 i] at hbyte
      simpa [frameBody, List.getD, hi', hi, List.getElem?_append_left hi'] using hbyte
  case passes =>
    rw [hL] at hchecked
    rw [verifyFrame_iff, h0, frameBody_lengthByte hlegal]
    exact checked_congr hlegal hchecked fun i hi => (hread i hi).symm

/-- The row `F.INBOUND` of a well-formed frame stores it and judges it (R128, R183 to R187). -/
theorem exec_fInbound {s : State} {q : Bool} {op : BitVec 7} {payload checks : List Byte} (now : Tick)
    (hc : s.cfg.Legal) (ht : 1 ≤ s.cfg.tIdle) (hidle : s.asm.bytesAccumulated = 0) (h : frameOk s.cfg q op payload checks = true) :
    let f := frameBody q op payload ++ checks
    let asm : Assembler := ⟨bufWriteSlice s.asm.rxBuf 0 f, 0, (now + (f.length - 1)) % 2 ^ s.cfg.wTime⟩
    exec (.fInbound q op payload checks now) s = .next (
      if q = s.receiveSequenceBit then
        { s with
          asm := asm
          receiveSequenceBit := !s.receiveSequenceBit
          out := ⟨[ackCode s.cfg q], [⟨op, payload⟩], [], none⟩ }
      else { s with asm := asm, out := ⟨[ackCode s.cfg q], [], [.duplicateFrame], none⟩ }) := by
  intro f asm
  obtain ⟨-, hchecks, hlegal⟩ := splitFrame_frameBody h
  have hL := frameBody_lengthByte hlegal
  obtain ⟨h0, h1, hpayload, hpasses⟩ := received_frame h s.asm.rxBuf
  have hlegal0 : legalLength (BitVec.ofNat 8 (2 + payload.length)) = true := by rwa [legalLength, hL]
  have hrun : s.startOp.rxFrame now f =
      State.complete { s.startOp with
        asm := { asm with bytesAccumulated := BitVec.ofNat 8 (need (2 + payload.length)) } } := by
    rw [← hL]
    exact rxFrame_complete (s := s.startOp) hc ht hidle now _ (seqOpByte q op :: payload ++ checks) hlegal0
      (by simp [hL, need, hchecks]; omega)
  have hpayload' : Assembler.payload { asm with bytesAccumulated := BitVec.ofNat 8 (need (2 + payload.length)) } =
      payload := by
    rw [Assembler.payload, h0, hL, Nat.add_sub_cancel_left]
    exact hpayload
  have hexec : exec (.fInbound q op payload checks now) s = .next (s.startOp.rxFrame now f) := rfl
  rw [hexec, hrun, complete_eq_judged (h0.symm ▸ hlegal0) rfl, State.judged]
  dsimp only
  rw [if_neg (by simp [asm, f, hpasses]), show bufRead asm.rxBuf 1 = _ from h1, seqBit_seqOpByte, opcodeOf_seqOpByte,
    hpayload']
  rfl

/-- Settles O14: the first copy has the expected bit; the second finds the bit flipped and overwrites the frame with
itself. -/
theorem frameIsDeliveredOnceAndItsCopyOnlyAcknowledged :
    Obligations.FrameIsDeliveredOnceAndItsCopyOnlyAcknowledged := by
  intro s op payload checks now later hwf hc ht hidle f ack received delivered
  have hframe : frameOk s.cfg s.receiveSequenceBit op payload checks = true := by
    simp only [wellFormed, Bool.and_eq_true] at hwf
    exact hwf.2
  refine ⟨?first, ?copy⟩
  case first => rw [exec_fInbound now hc ht hidle hframe, if_pos rfl]; rfl
  case copy =>
    rw [exec_fInbound (s := delivered) later hc ht rfl hframe, if_neg (Bool.not_ne_self _).symm]
    have htwice : bufWriteSlice delivered.asm.rxBuf 0 f = bufWriteSlice s.asm.rxBuf 0 f := bufWriteSlice_twice _ f
    rw [htwice]
    rfl

end Sys2Proof.Machine
end

section
/-!
Who touches the assembler and the expected sequence bit (spec/41_frame_assembler.md R191; spec/10_state.md R36), and
the two timers (spec/46_poll_and_watchdog.md R331, R333; spec/00_scope.md R20).
-/

namespace Sys2Proof.Machine

/-! ### The receiving side in other operations -/

/-- The receiving side is as it was in `s`, and nothing is delivered. -/
structure ReceiverKept (s t : State) : Prop where
  asm : t.asm = s.asm
  bit : t.receiveSequenceBit = s.receiveSequenceBit
  deliver : t.out.deliver = []

theorem mux_receiverKept {s : State} (now : Tick) (hout : s.out.deliver = []) : ReceiverKept s (s.mux now) := by
  obtain ⟨-, hasm, hbit, -, -, -, hdeliver, -⟩ := mux_frame s now
  exact ⟨hasm, hbit, hdeliver.trans hout⟩

theorem serveRow_receiverKept {s : State} (src : Source) (body : List Byte) (now : Tick) (hout : s.out.deliver = []) :
    ReceiverKept s (s.serveRow src body now) := by
  obtain e | ⟨-, x, -, e⟩ := serveRow_cases s src body now <;> rw [e]
  · exact ⟨rfl, rfl, hout⟩
  · obtain ⟨-, hasm, hbit, -, -, -, hdeliver, -⟩ := serve_frame s x now
    exact ⟨hasm, hbit, hdeliver.trans hout⟩

/-- Every effect is that of `RESET`, of `POLL` or of `RX`, or leaves the receiving side. -/
theorem Effect.receiver_cases {s t : State} {i : Instr} (h : Effect s i t) : i = .reset ∨
    (∃ now, i = .poll now ∧ t = (s.startOp.watchdog now).ackTimeoutCheck now) ∨
    (∃ b now, inboundByteOf s.cfg i = some b ∧ t = s.startOp.rxByte b now) ∨ ReceiverKept s t := by
  cases h with
  | reset h => exact .inl h
  | poll now h => exact .inr (.inl ⟨now, h, rfl⟩)
  | rx b now hb => exact .inr (.inr (.inl ⟨b, now, hb, rfl⟩))
  | setinit | nothing | badArgument | replyRejected | identification => exact .inr (.inr (.inr ⟨rfl, rfl, rfl⟩))
  | post q accepted now =>
    rw [post_eq_mux]
    obtain ⟨hasm, hbit, hdeliver⟩ := mux_receiverKept (s := s.posting q accepted) now rfl
    exact .inr (.inr (.inr ⟨hasm, hbit, hdeliver⟩))
  | frame src body now =>
    obtain ⟨hasm, hbit, hdeliver⟩ := serveRow_receiverKept (s := s.startOp) src body now rfl
    exact .inr (.inr (.inr ⟨hasm, hbit, hdeliver⟩))

/-- Settles O16: the hypotheses exclude the first three cases. -/
theorem otherOperationsLeaveTheAssembler : Obligations.OtherOperationsLeaveTheAssembler := by
  intro s t i hbyte hsingle hreset hpoll hexec
  obtain h | ⟨now, h, -⟩ | ⟨b, now, hb, -⟩ | hkept := (exec_single_effect hsingle hexec).receiver_cases
  · exact absurd h hreset
  · exact absurd h (hpoll now)
  · cases hbyte.symm.trans hb
  · exact ⟨hkept.asm, hkept.bit, hkept.deliver⟩

/-- Settles O15: `RX` delivers and flips together; no other operation does either. -/
theorem deliveryAndReceiveBitFlipGoTogether : Obligations.DeliveryAndReceiveBitFlipGoTogether := by
  intro s t i hsingle hreset hexec
  obtain h | ⟨now, -, rfl⟩ | ⟨b, now, -, rfl⟩ | hkept := (exec_single_effect hsingle hexec).receiver_cases
  · exact absurd h hreset
  · obtain ⟨asm, time, tx, ev, e, -⟩ := poll_spec s.startOp now
    rw [e]
    exact .inl ⟨rfl, rfl⟩
  · obtain ⟨-, -, -, hboth⟩ := rxByte_frame s.startOp b now
    exact hboth
  · exact .inl ⟨hkept.deliver, hkept.bit⟩

/-! ### Time -/

/-- Settles O22: a difference below the modulus is its own remainder, with and without a wrap of the time base. -/
theorem elapsedTimeIsTheModularDifference : Obligations.ElapsedTimeIsTheModularDifference := by
  intro c now t hnow ht
  rw [elapsed, sampled, sampled, Nat.mod_eq_of_lt hnow, Nat.mod_eq_of_lt ht]
  split
  next hle => rw [show now + 2 ^ c.wTime - t = 2 ^ c.wTime + (now - t) by omega, Nat.add_mod_left,
    Nat.mod_eq_of_lt (by omega)]
  next hwrap => exact Nat.mod_eq_of_lt (by omega)

/-- `RETRANSMIT` (R305): the whole next state. -/
theorem retransmit_eq (s : State) (now : Tick) : s.retransmit now = { s with
    snd := { s.snd with sendTime := sampled s.cfg now }
    out := { s.out with tx := s.out.tx ++ (List.range s.snd.txLen.toNat).map fun k => bufRead s.snd.txBuf k } } := by
  have hframe : s.snd.frame = (List.range s.snd.txLen.toNat).map fun k => bufRead s.snd.txBuf k := by
    simp only [Sender.frame, bufSlice, Nat.zero_add]
  rw [← hframe]
  rfl

/-- `WATCHDOG` (R331): the whole next state. -/
theorem watchdog_eq (s : State) (now : Tick) :
    let stalled := s.asm.bytesAccumulated ≠ 0 ∧ s.cfg.tIdle < elapsed s.cfg now s.asm.lastByteTime
    s.watchdog now = { s with
      asm := if stalled then { s.asm with bytesAccumulated := 0 } else s.asm
      out := { s.out with ev := s.out.ev ++ if stalled then [.idleTimeout] else [] } } := by
  intro stalled
  by_cases h : stalled
  · rw [watchdog_stalled (stalled_iff.mpr h), if_pos h, if_pos h]
    rfl
  · rw [watchdog_fresh (Bool.eq_false_iff.mpr (mt stalled_iff.mp h)), if_neg h, if_neg h, List.append_nil]

/-- `ACK_TIMEOUT_CHECK` (R333): the whole next state. -/
theorem ackTimeoutCheck_eq (s : State) (now : Tick) :
    let overdue := s.snd.outboundBusy = true ∧ s.cfg.tAck < elapsed s.cfg now s.snd.sendTime
    s.ackTimeoutCheck now = { s with
      snd := if overdue then { s.snd with sendTime := sampled s.cfg now } else s.snd
      out := { s.out with
        tx := s.out.tx ++ if overdue then (List.range s.snd.txLen.toNat).map fun k => bufRead s.snd.txBuf k else []
        ev := s.out.ev ++ if overdue then [.ackTimeout] else [] } } := by
  intro overdue
  by_cases h : overdue
  · rw [ackTimeoutCheck_overdue (overdue_iff.mpr h), retransmit_eq, if_pos h, if_pos h, if_pos h]
    rfl
  · rw [ackTimeoutCheck_fresh (Bool.eq_false_iff.mpr (mt overdue_iff.mp h)), if_neg h, if_neg h, if_neg h,
      List.append_nil, List.append_nil]

/-- Settles O23: the watchdog touches nothing that the second timer reads, so `POLL` is one timer after the other. -/
theorem pollEvaluatesBothTimers : Obligations.PollEvaluatesBothTimers := by
  intro s now stalled overdue
  have hexec : exec (.poll now) s = .next ((s.startOp.watchdog now).ackTimeoutCheck now) := rfl
  rw [hexec, watchdog_eq, ackTimeoutCheck_eq]
  rfl

/-! ### A late byte -/

/-- The state with a condition signalled before all others. -/
def State.afterCondition (s : State) (e : Condition) : State :=
  { s with out := { s.out with ev := e :: s.out.ev } }

theorem serve_afterCondition (s : State) (e : Condition) (x : Picked) (now : Tick) :
    (s.afterCondition e).serve x now = (s.serve x now).afterCondition e := by
  unfold State.serve
  dsimp only
  rw [apply_ite (State.afterCondition · e)]
  rfl

theorem muxLoop_none {s : State} (now : Tick) (bound : Nat) (hnone : pick s.cfg s.src = none) :
    s.muxLoop now (bound + 1) = s := by simp only [State.muxLoop, hnone]

theorem muxLoop_some {s : State} {x : Picked} (now : Tick) (bound : Nat) (hpick : pick s.cfg s.src = some x) :
    s.muxLoop now (bound + 1) =
      if s.initialized then s.serve x now else (s.serve x now).muxLoop now bound := by
  simp only [State.muxLoop, hpick]

theorem muxLoop_afterCondition (e : Condition) (now : Tick) (bound : Nat) (s : State) :
    (s.afterCondition e).muxLoop now bound = (s.muxLoop now bound).afterCondition e := by
  induction bound generalizing s with
  | zero => rfl
  | succ bound ih =>
    cases hpick : pick s.cfg s.src with
    | none => rw [muxLoop_none now bound hpick, muxLoop_none (s := s.afterCondition e) now bound hpick]
    | some x =>
      rw [muxLoop_some now bound hpick, muxLoop_some (s := s.afterCondition e) now bound hpick,
        serve_afterCondition, ih]
      exact (apply_ite (State.afterCondition · e) _ _ _).symm

theorem mux_afterCondition (s : State) (e : Condition) (now : Tick) :
    (s.afterCondition e).mux now = (s.mux now).afterCondition e := by
  unfold State.mux
  rw [apply_ite (State.afterCondition · e), ← muxLoop_afterCondition]
  rfl

/-- What a first byte does, it does after an earlier condition, too. -/
theorem firstByte_afterCondition (s : State) (e : Condition) (b : Byte) (now : Tick) :
    (s.afterCondition e).firstByte b now = (s.firstByte b now).afterCondition e := by
  have hack : ∀ p, (s.afterCondition e).ctrlAck p now = (s.ctrlAck p now).afterCondition e := by
    intro p
    unfold State.ctrlAck
    rw [apply_ite (State.afterCondition · e), ← mux_afterCondition]
    rfl
  have hnack : (s.afterCondition e).ctrlNack now = (s.ctrlNack now).afterCondition e := by
    unfold State.ctrlNack
    rw [apply_ite (State.afterCondition · e)]
    rfl
  unfold State.firstByte
  simp only [apply_ite (State.afterCondition · e), ← hack, ← hnack]
  rfl

/-- Settles O24: the watchdog idles the assembler and signals `IdleTimeout`; the byte is then a first byte. -/
theorem lateByteIsAFirstByte : Obligations.LateByteIsAFirstByte := by
  intro s b now hpartial hlate
  have hstalled : s.startOp.stalled now = true := stalled_iff.mpr ⟨hpartial, hlate⟩
  refine ⟨(s.startOp.setAccumulated 0).firstByte b now, exec_rx_idle b now rfl, ?_⟩
  show Host.Outcome.next (s.startOp.rxByte b now) = .next (State.afterCondition _ .idleTimeout)
  rw [rxByte_stalled b now hstalled, ← firstByte_afterCondition]
  rfl

end Sys2Proof.Machine
end

section
/-!
Control bytes, continued (spec/43_control_dispatch.md R231 to R236): the accepted ACK, the NACK and the identification
request. What `MUX` transmits is said once, in the form in which `Transmits` says it.
-/

namespace Sys2Proof.Machine

/-! ### What the multiplexer transmits -/

/-- On an initialized idle link `MUX` transmits the picked event (R262, R301, R303): the whole next state. -/
theorem mux_transmits {s : State} {x : Picked} {accepted : Option Bool} (now : Tick) (hinit : s.initialized = true)
    (hidle : s.snd.outboundBusy = false) (hpick : pick s.cfg s.src = some x) (hbody : Frameable x.body)
    (hout : s.out = ⟨[], [], [], accepted⟩) :
    ∃ buf, Overwrites buf s.snd.txBuf (wireFrame s.cfg s.snd.sendSequenceBit x.body) ∧
      s.mux now = s.transmitting x.rest buf (wireFrame s.cfg s.snd.sendSequenceBit x.body) now accepted := by
  obtain ⟨buf, hbuf, e⟩ := post_ready now hinit hidle hpick hbody
  rw [post_eq_mux, hout] at e
  exact ⟨buf, hbuf, e⟩

/-! ### The accepted ACK -/

/-- With an idle assembler the ACK of the frame in flight frees the link and runs the multiplexer (R231). -/
theorem exec_matchingAck {s : State} {p : Bool} {now : Tick} {i : Instr} (hc : s.cfg.Legal)
    (hidle : s.asm.bytesAccumulated = 0) (hbusy : s.snd.outboundBusy = true) (hp : s.snd.sendSequenceBit = p)
    (hi : i ∈ [Instr.rx (ackCode s.cfg p) now, ackRow p now]) : exec i s = .next (s.startOp.freed.mux now) := by
  have hrx : exec (.rx (ackCode s.cfg p) now) s = .next (s.startOp.freed.mux now) := by
    rw [exec_rx_ackCode p now hc hidle, ctrlAck_accepted (s := s.startOp) now ⟨hbusy, hp.symm⟩]
  obtain rfl | rfl := List.mem_pair.mp hi
  · exact hrx
  · exact (exec_ackRow_eq_rx p now s).trans hrx

/-- Settles O17: with nothing pending the multiplexer does nothing. -/
theorem matchingAckFreesTheLink : Obligations.MatchingAckFreesTheLink := by
  intro s p now hc hidle hbusy hp hquiet i hi
  rw [exec_matchingAck hc hidle hbusy hp hi, mux_none (s := s.startOp.freed) now (pick_of_quiet hquiet)]
  subst hp
  rfl

/-- Settles O18: the multiplexer runs on the freed link, which has the flipped sequence bit. -/
theorem matchingAckReleasesTheNextFrame : Obligations.MatchingAckReleasesTheNextFrame := by
  intro s p now x hc hs hidle hinit hbusy hp hpick i hi
  rw [exec_matchingAck hc hidle hbusy hp hi]
  subst hp
  obtain ⟨buf, hbuf, e⟩ := mux_transmits (s := s.startOp.freed) now hinit rfl hpick (pick_frameable hs.reply hpick) rfl
  exact ⟨buf, hbuf, congrArg Host.Outcome.next e⟩

/-! ### NACK and identification -/

/-- Settles O20: `CTRL_NACK` tells a busy link from an idle one. -/
theorem nackRetransmitsOrIsStale : Obligations.NackRetransmitsOrIsStale := by
  intro s now hc hidle i hi
  have hrow : exec i s = .next (s.startOp.ctrlNack now) := by
    have hrx : exec (.rx s.cfg.codeNack now) s = .next (s.startOp.ctrlNack now) := by
      rw [exec_rx_idle _ now hidle]
      exact congrArg Host.Outcome.next (firstByte_nack (s := s.startOp) hc now)
    obtain rfl | rfl := List.mem_pair.mp hi
    exacts [hrx, hrx]
  rw [hrow]
  cases hbusy : s.snd.outboundBusy with
  | true =>
    rw [ctrlNack_busy (s := s.startOp) now hbusy, retransmit_eq]
    rfl
  | false =>
    rw [ctrlNack_stale (s := s.startOp) now hbusy]
    rfl

/-- Settles O21: `CTRL_IDREQ` only emits, and the row `ID.RESPONSE` is the same emission. -/
theorem identificationIsServedWithoutAnyStateChange : Obligations.IdentificationIsServedWithoutAnyStateChange := by
  intro s now hc hidle t
  have hrx : exec (.rx s.cfg.codeId now) s = .next t := by
    rw [exec_rx_idle _ now hidle]
    exact congrArg Host.Outcome.next (firstByte_id (s := s.startOp) hc now)
  exact ⟨hrx, hrx, fun _ => rfl⟩

end Sys2Proof.Machine
end

section
/-!
The notifications (spec/44_outbound_mux.md R251 to R260, R274, R276). Each operation with its argument in range is
`POST` after one change of the sources (`State.posting`); what `POST` then does on a busy link, on a ready one and
before initialization is said once for all of them.
-/

namespace Sys2Proof.Machine

/-! ### Each operation is POST after one change of the sources -/

theorem exec_limit {s : State} {n : Byte} (now : Tick) (h : n.toNat < s.cfg.nAxes) : exec (.limit n now) s =
    .next ((s.posting { s.src with limitPending := setBit s.src.limitPending n.toNat } none).post now) :=
  if_pos (axisOk_eq_true.mpr h)

theorem exec_sense {s : State} {n : Byte} (flag : Bool) (now : Tick) (h : n.toNat < s.cfg.nAxes) :
    exec (.sense n flag now) s = .next ((s.posting { s.src with
      sensePending := setBit s.src.sensePending n.toNat
      senseFlag := assignBit s.src.senseFlag n.toNat flag } none).post now) :=
  if_pos (axisOk_eq_true.mpr h)

theorem exec_movedone (s : State) (now : Tick) : exec (.movedone now) s =
    .next ((s.posting { s.src with moveDoneCount := saturatingSucc s.src.moveDoneCount } none).post now) := rfl

theorem exec_temprdy {s : State} {n : Byte} (now : Tick) (h : n.toNat < s.cfg.nTemps) : exec (.temprdy n now) s =
    .next ((s.posting { s.src with tempPending := setBit s.src.tempPending n.toNat } none).post now) :=
  if_pos (channelOk_eq_true.mpr h)

theorem exec_resumeMove (s : State) (now : Tick) : exec (.resume 0 now) s =
    .next ((s.posting { s.src with resumeMovePending := true } none).post now) := rfl

theorem exec_resumeAudio (s : State) (now : Tick) : exec (.resume 1 now) s =
    .next ((s.posting { s.src with resumeAudioPending := true } none).post now) := rfl

theorem exec_autosleep (s : State) (mask : Byte) (now : Tick) : exec (.autosleep mask now) s =
    .next ((s.posting { s.src with autosleepMask := s.src.autosleepMask ||| mask, autosleepPending := true } none).post
      now) := rfl

theorem exec_ping {s : State} {n : Byte} (now : Tick) (h : n.toNat ≤ 7) : exec (.ping n now) s =
    .next ((s.posting { s.src with pingPending := setBit s.src.pingPending n.toNat } none).post now) :=
  if_pos (slotOk_eq_true.mpr h)

theorem exec_reply {s : State} {op : BitVec 7} {payload : List Byte} (now : Tick) (hfree : s.src.replyPending = false)
    (hlegal : legalLen (2 + payload.length) = true) : exec (.reply (op.setWidth 8) payload now) s =
      .next ((s.posting { s.src with
        replyOp := op
        replyLen := BitVec.ofNat 7 payload.length
        replyBuf := bufWriteSlice s.src.replyBuf 0 payload
        replyPending := true } (some true)).post now) := by
  obtain ⟨hop, -⟩ := opcode_roundTrip op
  have hstore : s.src.storeReply (op.setWidth 8) payload = { s.src with
      replyOp := op
      replyLen := BitVec.ofNat 7 payload.length
      replyBuf := bufWriteSlice s.src.replyBuf 0 payload
      replyPending := true } := by rw [Sources.storeReply, hop]
  rw [← hstore]
  exact if_pos (replyOk_of hfree hlegal)

/-! ### What POST does -/

/-- A busy link defers the event (R260). -/
theorem posting_busy {s : State} (q : Sources) (accepted : Option Bool) (now : Tick)
    (hbusy : s.snd.outboundBusy = true) : (s.posting q accepted).post now = s.posting q accepted :=
  post_busy (s := s.posting q accepted) now hbusy

/-- A ready link transmits the event (R260, R262). -/
theorem posting_ready {s : State} {q : Sources} {x : Picked} (accepted : Option Bool) (now : Tick) (hs : Ready s)
    (hpick : pick s.cfg q = some x) (hbody : Frameable x.body) :
    Transmits s (.next ((s.posting q accepted).post now)) x.rest x.body now accepted := by
  obtain ⟨buf, hbuf, e⟩ := mux_transmits (s := s.posting q accepted) now hs.initialized hs.idle hpick hbody rfl
  rw [post_eq_mux]
  exact ⟨buf, hbuf, congrArg Host.Outcome.next e⟩

/-- Before initialization the event is dropped (R274). -/
theorem posting_unready {s : State} {q : Sources} {x : Picked} (accepted : Option Bool) (now : Tick) (hs : Unready s)
    (hpick : pick s.cfg q = some x) (hquiet : Quiet x.rest) : (s.posting q accepted).post now =
      { s with src := x.rest, out := ⟨[], [], [.droppedUninit], accepted⟩ } :=
  post_unready (s := s.posting q accepted) now hs.uninitialized hs.idle hpick (pick_of_quiet hquiet)

/-! ### The bits of the maps -/

theorem setBit_byte (m : BitMap) (n : Byte) (j : Nat) :
    (setBit m n.toNat).getLsbD j = (m.getLsbD j || decide (j = n.toNat)) := by
  rw [setBit_getLsbD]
  simp only [show n.toNat < 256 from n.isLt, and_true]

theorem setBit_slot (m : Byte) {n : Byte} (h : n.toNat ≤ 7) (j : Nat) :
    (setBit m n.toNat).getLsbD j = (m.getLsbD j || decide (j = n.toNat)) := by
  rw [setBit_getLsbD]
  simp only [show n.toNat < 8 by omega, and_true]

theorem assignBit_byte (m : BitMap) (n : Byte) (flag : Bool) (j : Nat) :
    (assignBit m n.toNat flag).getLsbD j = if j = n.toNat then flag else m.getLsbD j := by
  rw [assignBit_getLsbD]
  simp only [show n.toNat < 256 from n.isLt, and_true]

/-- The flag of a sense byte is added as bit 7 (R116). -/
theorem senseByte_eq_add (flag : Bool) {axis : Byte} (h : axis.toNat < 128) :
    senseByte flag axis = BitVec.ofNat 8 (axis.toNat + if flag then 128 else 0) := by
  revert flag axis
  decide +kernel

theorem payload_length_le {payload : List Byte} (h : legalLen (2 + payload.length) = true) : payload.length ≤ 125 := by
  have := legalLen_iff.mp h
  omega

/-! ### A busy link -/

/-- Settles O25: the deferred event is the bit that is set. -/
theorem busyLinkDefersLimitSenseAndTemprdy : Obligations.BusyLinkDefersLimitSenseAndTemprdy := by
  intro s n flag now hbusy
  refine ⟨fun h => ⟨_, setBit_byte _ n, ?_⟩, fun h => ⟨_, _, setBit_byte _ n, assignBit_byte _ n flag, ?_⟩,
    fun h => ⟨_, setBit_byte _ n, ?_⟩⟩
  · rw [exec_limit now h, posting_busy _ _ now hbusy]; rfl
  · rw [exec_sense flag now h, posting_busy _ _ now hbusy]; rfl
  · rw [exec_temprdy now h, posting_busy _ _ now hbusy]; rfl

/-- Settles O26: the deferred event is the changed source. -/
theorem busyLinkDefersTheOtherNotifications : Obligations.BusyLinkDefersTheOtherNotifications := by
  intro s n now hbusy
  refine ⟨?_, ?_, ?_, ?_, fun h => ⟨_, fun j _ => setBit_slot _ h j, ?_⟩⟩
  · rw [exec_movedone, posting_busy _ _ now hbusy, saturatingSucc_eq]; rfl
  · rw [exec_resumeMove, posting_busy _ _ now hbusy]; rfl
  · rw [exec_resumeAudio, posting_busy _ _ now hbusy]; rfl
  · rw [exec_autosleep, posting_busy _ _ now hbusy]; rfl
  · rw [exec_ping now h, posting_busy _ _ now hbusy]; rfl

/-- Settles O27: the reply stays in its slot. -/
theorem busyLinkDefersAReply : Obligations.BusyLinkDefersAReply := by
  intro s op payload now hbusy hfree hlegal
  refine ⟨_, overwrites_bufWriteSlice s.src.replyBuf (payload_length_le hlegal), ?_⟩
  rw [exec_reply now hfree hlegal, posting_busy _ _ now hbusy]
  rfl

/-! ### Arguments that are refused -/

/-- Settles O28: each of the conditions makes one of the three tests of R255 fail. -/
theorem replyIsRefusedWithoutAStateChange : Obligations.ReplyIsRefusedWithoutAStateChange := by
  intro s op payload now h
  have hrefused : ¬ replyOk s.src op payload = true := by
    simp only [replyOk, Bool.and_eq_true, Bool.not_eq_true', decide_eq_true_eq, legalLen_iff]
    rintro ⟨⟨hfree, hlen⟩, hop⟩
    obtain hpending | h := h
    · exact Bool.false_ne_true (hfree.symm.trans hpending)
    · omega
  exact if_neg hrefused

/-- Settles O29: outside its range each operation is `BAD_ARG`. -/
theorem argumentOutOfRangeChangesNothing : Obligations.ArgumentOutOfRangeChangesNothing := by
  intro s n flag now t
  have haxis : s.cfg.nAxes ≤ n.toNat → ¬ axisOk s.cfg n = true := fun h => ne_true_of_eq_false (axisOk_eq_false.mpr h)
  refine ⟨fun h => ⟨if_neg (haxis h), if_neg (haxis h)⟩, fun h => ?_, fun h => ?_, fun h => ?_⟩
  · exact if_neg (ne_true_of_eq_false (channelOk_eq_false.mpr h))
  · exact if_neg (ne_true_of_eq_false (kindOk_eq_false.mpr h))
  · exact if_neg (ne_true_of_eq_false (slotOk_eq_false.mpr h))

/-! ### A ready link -/

/-- Settles O30: the event posted is the one picked. -/
theorem readyLinkSendsLimitAndSense : Obligations.ReadyLinkSendsLimitAndSense := by
  intro s axis flag now hc hs haxis
  refine ⟨?limit, _, assignBit_byte _ axis flag, ?sense⟩
  case limit =>
    rw [exec_limit now haxis]
    exact posting_ready _ now hs (pick_one_limit hs.quiet haxis) (frameable_event _ _)
  case sense =>
    have hsent := posting_ready none now hs
      (pick_one_sense hs.quiet (f := assignBit s.src.senseFlag axis.toNat flag) haxis) (frameable_event _ _)
    rw [assignBit_byte, if_pos rfl, senseByte_eq_add flag (Nat.lt_of_lt_of_le haxis hc.nAxes_range.2)] at hsent
    rw [exec_sense flag now haxis]
    exact hsent

/-- Settles O31: the event posted is the one picked. -/
theorem readyLinkSendsMovedoneAndTemprdy : Obligations.ReadyLinkSendsMovedoneAndTemprdy := by
  intro s ch now hs hch
  refine ⟨?_, ?_⟩
  · rw [exec_movedone]
    exact posting_ready _ now hs (pick_one_movecb hs.quiet) (frameable_event _ _)
  · rw [exec_temprdy now hch]
    exact posting_ready _ now hs (pick_one_tempcb hs.quiet hch) (frameable_event _ _)

/-- Settles O32: the event posted is the one picked. -/
theorem readyLinkSendsResumeAutosleepAndPing : Obligations.ReadyLinkSendsResumeAutosleepAndPing := by
  intro s n now hs
  refine ⟨?_, ?_, ?_, fun hslot => ?_⟩
  · rw [exec_resumeMove]
    exact posting_ready _ now hs (pick_one_resumeMove hs.quiet) (frameable_event _ _)
  · rw [exec_resumeAudio]
    exact posting_ready _ now hs (pick_one_resumeAudio hs.quiet) (frameable_event _ _)
  · rw [exec_autosleep]
    exact posting_ready _ now hs (pick_one_autosleep hs.quiet) (frameable_event _ _)
  · rw [exec_ping now hslot]
    exact posting_ready _ now hs (pick_one_pong hs.quiet hslot) (frameable_event _ _)

/-- Settles O33: the reply is stored, picked and transmitted. -/
theorem readyLinkSendsAReply : Obligations.ReadyLinkSendsAReply := by
  intro s op payload now hs hlegal
  have hlen := payload_length_le hlegal
  refine ⟨_, overwrites_bufWriteSlice s.src.replyBuf hlen, ?_⟩
  rw [exec_reply now hs.quiet.reply hlegal]
  exact posting_ready _ now hs (pick_one_reply hs.quiet hlen) ⟨op, payload, rfl, hlegal⟩

/-! ### Before initialization -/

/-- Settles O34: the event posted is the one picked, and what it leaves is quiet. -/
theorem uninitializedCoreDropsEveryEvent : Obligations.UninitializedCoreDropsEveryEvent := by
  intro s n flag now hs dropped
  have hq := hs.quiet
  have hdrop : ∀ {q : Sources} {x : Picked}, pick s.cfg q = some x → Quiet x.rest →
      .next ((s.posting q none).post now) = dropped x.rest :=
    fun hpick hquiet => congrArg Host.Outcome.next (posting_unready none now hs hpick hquiet)
  refine ⟨fun h => ⟨?limit, _, assignBit_byte _ n flag, ?sense⟩, ?movedone, fun h => ?temprdy, ?resumeMove,
    ?resumeAudio, ?autosleep, fun h => ?ping, fun op payload hlegal => ?reply⟩
  case limit => exact (exec_limit now h).trans (hdrop (pick_one_limit hq h) hq)
  case sense => exact (exec_sense flag now h).trans (hdrop (pick_one_sense hq h) { hq with })
  case movedone => exact (exec_movedone s now).trans (hdrop (pick_one_movecb hq) hq)
  case temprdy => exact (exec_temprdy now h).trans (hdrop (pick_one_tempcb hq h) { hq with })
  case resumeMove => exact (exec_resumeMove s now).trans (hdrop (pick_one_resumeMove hq) hq)
  case resumeAudio => exact (exec_resumeAudio s now).trans (hdrop (pick_one_resumeAudio hq) hq)
  case autosleep => exact (exec_autosleep s n now).trans (hdrop (pick_one_autosleep hq) { hq with })
  case ping => exact (exec_ping now h).trans (hdrop (pick_one_pong hq h) hq)
  case reply =>
    have hlen := payload_length_le hlegal
    refine ⟨_, overwrites_bufWriteSlice s.src.replyBuf hlen, (exec_reply now hq.reply hlegal).trans ?_⟩
    exact congrArg Host.Outcome.next (posting_unready (some true) now hs (pick_one_reply hq hlen) { hq with })

end Sys2Proof.Machine
end

section
/-!
The multiplexer and the frames it sends (spec/44_outbound_mux.md R262 to R275; spec/45_sender.md R301). `PICK` is the
first answer of the nine sources in the order of R272, so a pick is the answer of its own source and no source before it
has one.
-/

namespace Sys2Proof.Machine

/-! ### The nine sources in one list -/

/-- The pick of one source. -/
def pickOf (c : Config) (q : Sources) : Source → Option Picked
  | .limit => pickLimit c q
  | .sense => pickSense c q
  | .movecb => pickMovecb c q
  | .tempcb => pickTempcb c q
  | .reply => pickReply q
  | .resumeMove => pickResumeMove c q
  | .resumeAudio => pickResumeAudio c q
  | .autosleep => pickAutosleep c q
  | .pong => pickPong c q

/-- The sources in their order (R272). -/
def sourcesByRank : List Source :=
  [.limit, .sense, .movecb, .tempcb, .reply, .resumeMove, .resumeAudio, .autosleep, .pong]

theorem mem_sourcesByRank (src : Source) : src ∈ sourcesByRank := by
  cases src <;> decide

theorem sourcesByRank_sorted : sourcesByRank.Pairwise fun a b => a.rank < b.rank := by decide

theorem findSome_cons_eq_or (f : Source → Option Picked) (src : Source) (rest : List Source) :
    (src :: rest).findSome? f = (f src).or (rest.findSome? f) := by
  rw [List.findSome?_cons]
  cases f src <;> rfl

theorem pick_eq_findSome (c : Config) (q : Sources) : pick c q = sourcesByRank.findSome? (pickOf c q) := by
  simp only [pick, sourcesByRank, pickOf, Option.orElse_eq_orElse, Option.orElse_eq_or, findSome_cons_eq_or,
    List.findSome?_nil, Option.or_none]

theorem pickOf_eq_none {c : Config} {q : Sources} {src : Source} :
    pickOf c q src = none ↔ ¬ sourcePending c q src := by
  cases src with
  | limit => exact pickLimit_eq_none
  | sense => exact pickSense_eq_none
  | movecb => exact pickMovecb_eq_none
  | tempcb => exact pickTempcb_eq_none
  | reply => exact pickReply_eq_none
  | resumeMove => exact pickResumeMove_eq_none
  | resumeAudio => exact pickResumeAudio_eq_none
  | autosleep => exact pickAutosleep_eq_none
  | pong => exact pickPong_eq_none

/-- The answer of a source names that source. -/
theorem source_of_pickOf {c : Config} {q : Sources} {src : Source} {x : Picked} (h : pickOf c q src = some x) :
    x.source = src := by
  cases src with
  | limit => obtain ⟨a, -, -, -, rfl⟩ := pickLimit_eq_some.mp h; rfl
  | sense => obtain ⟨a, -, -, -, rfl⟩ := pickSense_eq_some.mp h; rfl
  | movecb => obtain ⟨-, rfl⟩ := pickMovecb_eq_some.mp h; rfl
  | tempcb => obtain ⟨k, -, -, -, rfl⟩ := pickTempcb_eq_some h; rfl
  | reply => obtain ⟨-, rfl⟩ := pickReply_eq_some.mp h; rfl
  | resumeMove => obtain ⟨-, rfl⟩ := pickResumeMove_eq_some.mp h; rfl
  | resumeAudio => obtain ⟨-, rfl⟩ := pickResumeAudio_eq_some.mp h; rfl
  | autosleep => obtain ⟨-, rfl⟩ := pickAutosleep_eq_some.mp h; rfl
  | pong => obtain ⟨a, -, -, -, rfl⟩ := pickPong_eq_some.mp h; rfl

/-- A pick is the answer of its own source, and no source of a smaller rank has an answer (R272). -/
theorem pick_served {c : Config} {q : Sources} {x : Picked} (h : pick c q = some x) :
    pickOf c q x.source = some x ∧ ∀ src, src.rank < x.source.rank → pickOf c q src = none := by
  rw [pick_eq_findSome, List.findSome?_eq_some_iff] at h
  obtain ⟨before, src, after, horder, hsrc, hnone⟩ := h
  obtain rfl := source_of_pickOf hsrc
  refine ⟨hsrc, fun src hlt => hnone src ?_⟩
  have hsorted := sourcesByRank_sorted
  have hmem := mem_sourcesByRank src
  rw [horder] at hsorted hmem
  obtain ⟨-, hafter, -⟩ := List.pairwise_append.mp hsorted
  obtain hbefore | hmem := List.mem_append.mp hmem
  · exact hbefore
  · obtain rfl | hmem := List.mem_cons.mp hmem
    · exact absurd hlt (Nat.lt_irrefl _)
    · exact absurd hlt (Nat.lt_asymm (List.rel_of_pairwise_cons hafter hmem))

/-- Settles O35: the sources before the served one have no answer, hence no event. -/
theorem pickServesTheHighestPendingSource : Obligations.PickServesTheHighestPendingSource := by
  refine fun c q => ⟨fun x h => ?_, pick_eq_none⟩
  obtain ⟨hserved, hbefore⟩ := pick_served h
  refine ⟨not_not.mp fun hnot => ?_, fun src hlt => pickOf_eq_none.mp (hbefore src hlt)⟩
  cases hserved.symm.trans (pickOf_eq_none.mpr hnot)

/-! ### Each source's event -/

/-- The pick of a given source. -/
theorem pickOf_of_pick {c : Config} {q : Sources} {x : Picked} (h : pick c q = some x) {src : Source}
    (hsrc : x.source = src) : pickOf c q src = some x := hsrc ▸ (pick_served h).1

/-- Settles O36: the answer of each of the three sources, written out. -/
theorem axesAndSlotsAreServedLowestFirst : Obligations.AxesAndSlotsAreServedLowestFirst := by
  refine fun c q x h => ⟨fun hsrc => ?limit, fun hsrc => ?sense, fun hsrc => ?pong⟩
  case limit =>
    obtain ⟨a, ha, hset, hfirst, rfl⟩ := pickLimit_eq_some.mp (pickOf_of_pick h hsrc)
    exact ⟨a, ha, hset, hfirst, rfl, _, rfl, clearBit_getLsbD _ a⟩
  case sense =>
    obtain ⟨a, ha, hset, hfirst, rfl⟩ := pickSense_eq_some.mp (pickOf_of_pick h hsrc)
    exact ⟨a, ha, hset, hfirst, rfl, _, rfl, clearBit_getLsbD _ a⟩
  case pong =>
    obtain ⟨a, ha, hset, hfirst, rfl⟩ := pickPong_eq_some.mp (pickOf_of_pick h hsrc)
    exact ⟨a, ha, hset, hfirst, rfl, _, rfl, clearBit_getLsbD _ a⟩

/-- Settles O37: the answer of the temperature source, written out. -/
theorem temperatureChannelsAreServedRoundRobin : Obligations.TemperatureChannelsAreServedRoundRobin := by
  intro c q x h hsrc
  obtain ⟨k, hk, hset, hfirst, rfl⟩ := pickTempcb_eq_some (pickOf_of_pick h hsrc)
  exact ⟨k, hk, hset, hfirst, rfl, _, rfl, clearBit_getLsbD _ _⟩

/-- Settles O38: the answer of each of the five sources, written out. -/
theorem unindexedSourcesSendAndClearTheirEvent : Obligations.UnindexedSourcesSendAndClearTheirEvent := by
  refine fun c q x h => ⟨fun hsrc => ?movecb, fun hsrc => ?reply, fun hsrc => ?move, fun hsrc => ?audio,
    fun hsrc => ?autosleep⟩
  case movecb =>
    obtain ⟨hpending, rfl⟩ := pickMovecb_eq_some.mp (pickOf_of_pick h hsrc)
    exact ⟨hpending, rfl, rfl⟩
  case reply =>
    obtain ⟨hpending, rfl⟩ := pickReply_eq_some.mp (pickOf_of_pick h hsrc)
    refine ⟨hpending, rfl, ?_⟩
    simp only [frameBody, bufSlice_length]
    simp only [bufSlice, Nat.zero_add]
  case move =>
    obtain ⟨hpending, rfl⟩ := pickResumeMove_eq_some.mp (pickOf_of_pick h hsrc)
    exact ⟨hpending, rfl, rfl⟩
  case audio =>
    obtain ⟨hpending, rfl⟩ := pickResumeAudio_eq_some.mp (pickOf_of_pick h hsrc)
    exact ⟨hpending, rfl, rfl⟩
  case autosleep =>
    obtain ⟨hpending, rfl⟩ := pickAutosleep_eq_some.mp (pickOf_of_pick h hsrc)
    exact ⟨hpending, rfl, rfl⟩

/-! ### The number of pending units -/

/-- A source without an event contributes no unit (R275). -/
theorem pendingUnits_of_pick_none {c : Config} {q : Sources} (h : pick c q = none) : pendingUnits c q = 0 := by
  have hnone := pick_eq_none.mp h
  have hlimit := hnone .limit
  have hsense := hnone .sense
  have hmovecb := hnone .movecb
  have htempcb := hnone .tempcb
  have hreply := hnone .reply
  have hmove := hnone .resumeMove
  have haudio := hnone .resumeAudio
  have hautosleep := hnone .autosleep
  have hpong := hnone .pong
  simp only [sourcePending, not_exists, not_and, Bool.not_eq_true, not_not] at *
  simp only [pendingUnits, (countSet_eq_zero _).mpr hlimit, (countSet_eq_zero _).mpr hsense,
    (countSet_eq_zero _).mpr htempcb, (countSet_eq_zero _).mpr hpong, hmovecb, hreply, hmove, haudio, hautosleep,
    if_true, Bool.toNat_false]

theorem pendingUnits_le (c : Config) (q : Sources) : pendingUnits c q ≤ 2 * c.nAxes + c.nTemps + 13 := by
  have hlimit := countSet_le q.limitPending c.nAxes
  have hsense := countSet_le q.sensePending c.nAxes
  have htempcb := countSet_le q.tempPending c.nTemps
  have hpong := countSet_le q.pingPending 8
  have hreply := Bool.toNat_le q.replyPending
  have hmove := Bool.toNat_le q.resumeMovePending
  have haudio := Bool.toNat_le q.resumeAudioPending
  have hautosleep := Bool.toNat_le q.autosleepPending
  have hmovecb : (if q.moveDoneCount = 0 then 0 else 1) ≤ 1 := by split <;> decide
  unfold pendingUnits
  omega

/-- Settles O39: a pick takes one unit, so with no unit there is no pick. -/
theorem eachPickRemovesOnePendingUnit : Obligations.EachPickRemovesOnePendingUnit := by
  refine fun c q => ⟨fun x h => pendingUnits_pick h, ⟨pendingUnits_of_pick_none, fun hzero => ?_⟩, pendingUnits_le c q⟩
  cases h : pick c q with
  | none => rfl
  | some x =>
    have hone := pendingUnits_pick h
    omega

/-- Settles O40: the loop of `MUX` has passes enough for all pending units. -/
theorem uninitializedMultiplexerDiscardsEverything : Obligations.UninitializedMultiplexerDiscardsEverything := by
  intro s now hinit hidle
  obtain ⟨q, hnone, -, hdiscarded, e⟩ := muxLoop_uninit now hinit rfl _ (Nat.lt_succ_self _)
  exact ⟨q, hdiscarded, pick_eq_none.mp hnone, (if_neg (ne_true_of_eq_false hidle)).trans e⟩

/-! ### Frame rows -/

/-- The payload byte of a sense row is the one that `PICK_SENSE` builds (R116, R264). -/
theorem senseByte_setWidth (g : Bool) (a : BitVec 7) : senseByte g (a.setWidth 8) = BitVec.ofBool g ++ a := by
  revert g a
  decide +kernel

/-- On an idle link a frame row serves the picked event if it is the row's. -/
theorem serveRow_picked {s : State} {x : Picked} (now : Tick) (hidle : s.snd.outboundBusy = false)
    (hpick : pick s.cfg s.src = some x) : s.serveRow x.source x.body now = s.serve x now := by
  unfold State.serveRow
  rw [if_neg (ne_true_of_eq_false hidle), hpick]
  exact if_pos ⟨rfl, rfl⟩

/-- A frame row has no effect where the multiplexer picks another event. -/
theorem serveRow_other {s : State} {x : Picked} {src : Source} {body : List Byte} (now : Tick)
    (hpick : pick s.cfg s.src = some x) (hother : x.source ≠ src ∨ x.body ≠ body) : s.serveRow src body now = s := by
  unfold State.serveRow
  rw [hpick]
  split
  · rfl
  · exact if_neg (not_and_or.mpr hother)

theorem serveRow_none {s : State} (src : Source) (body : List Byte) (now : Tick) (hnone : pick s.cfg s.src = none) :
    s.serveRow src body now = s := by
  unfold State.serveRow
  rw [hnone]
  exact ite_self s

/-- Settles O41: each row is `serveRow` of its source and body, which serves the pick as `MUX` does. -/
theorem frameRowTransmitsThePickedEvent : Obligations.FrameRowTransmitsThePickedEvent := by
  intro s now x sq k ks hs hinit hidle hpick sent
  have hsent : ∀ {i : Instr} {src : Source} {body : List Byte}, exec i s = .next (s.startOp.serveRow src body now) →
      x.source = src → x.body = body → sent i := by
    rintro i _ _ hexec rfl rfl
    obtain ⟨buf, hbuf, e⟩ := mux_transmits (s := s.startOp) now hinit hidle hpick (pick_frameable hs.reply hpick) rfl
    have hserve : s.startOp.serve x now = s.startOp.mux now := by
      rw [mux_some (s := s.startOp) now hinit hidle hpick]
      exact if_pos hinit
    refine ⟨buf, hbuf, ?_⟩
    rw [hexec, serveRow_picked (s := s.startOp) now hidle hpick, hserve, e]
    rfl
  refine ⟨fun a => hsent rfl, fun g a hsrc hbody => hsent rfl hsrc ?sense, fun n => hsent rfl, fun ch => hsent rfl,
    fun op payload => hsent rfl, fun hsrc => hsent rfl hsrc ?move, fun hsrc => hsent rfl hsrc ?audio,
    fun m => hsent rfl, fun q => hsent rfl⟩
  case sense => rw [hbody, ← senseByte_setWidth]; rfl
  case move =>
    obtain ⟨-, rfl⟩ := pickResumeMove_eq_some.mp (pickOf_of_pick hpick hsrc)
    rfl
  case audio =>
    obtain ⟨-, rfl⟩ := pickResumeAudio_eq_some.mp (pickOf_of_pick hpick hsrc)
    rfl

/-- Every frame row is `serveRow` of its source and body (log entry 8). -/
theorem exec_frameRow {s : State} {i : Instr} {src : Source} {body : List Byte}
    (h : frameRowEvent s.cfg i = some (src, body)) : ∃ now, exec i s = .next (s.startOp.serveRow src body now) := by
  cases i with
  | fLimit seq a k now | fMovecb seq a k now | fTempcb seq a k now | fReply seq op payload checks now
    | fResume seq r k now | fAutosleep seq a k now | fPong seq q k now =>
    obtain ⟨rfl, rfl⟩ := Prod.mk.inj (Option.some.inj h)
    exact ⟨now, rfl⟩
  | fSense seq g a k now =>
    obtain ⟨rfl, rfl⟩ := Prod.mk.inj (Option.some.inj h)
    rw [← senseByte_setWidth]
    exact ⟨now, rfl⟩
  | _ => cases h

/-- Settles O42: the cases of `serveRow`. -/
theorem frameRowTransmitsNothingWhereTheMultiplexerWouldNot :
    Obligations.FrameRowTransmitsNothingWhereTheMultiplexerWouldNot := by
  intro s i src body hrow
  obtain ⟨now, hexec⟩ := exec_frameRow hrow
  have hstill : s.startOp.serveRow src body now = s.startOp → exec i s = .next { s with out := Outputs.empty } :=
    fun h => hexec.trans (congrArg Host.Outcome.next h)
  refine ⟨fun hbusy => hstill (serveRow_busy (s := s.startOp) src body now hbusy),
    fun hnone => hstill (serveRow_none (s := s.startOp) src body now hnone), fun x hpick =>
    ⟨fun hother => hstill (serveRow_other (s := s.startOp) now hpick hother), ?_⟩⟩
  rintro rfl rfl hinit hidle
  rw [hexec, serveRow_picked (s := s.startOp) now hidle hpick]
  exact congrArg Host.Outcome.next (if_neg (ne_true_of_eq_false hinit))

/-! ### PREPARE -/

/-- Settles O43: the buffer begins with the frame on the wire, which is well formed and verifies as such. -/
theorem preparedBodyIsAWellFormedFrame : Obligations.PreparedBodyIsAWellFormedFrame := by
  intro m seq op payload buf hlegal L b f
  obtain ⟨hframe, hkept⟩ := preparedBuf_spec m seq false op payload buf hlegal
  obtain ⟨hwell, hlen, htake⟩ := frameOf_frameBody m seq op payload hlegal
  have hf : f = frameOf m (frameBody seq op payload) := by
    apply List.ext_getElem
    · simp [f, hlen, L]
    · intro i h1 h2
      have hbyte : bufRead b i = _ := hframe i (by omega)
      simpa [f, List.getD, h2] using hbyte
  obtain ⟨-, hbody, -⟩ := frameOf_spec m (frameBody seq op payload) (by rw [frameBody_length]; exact hlegal)
  have hneed := need_bounds hlegal
  have h0 : bufRead b 0 = BitVec.ofNat 8 (2 + payload.length) :=
    (hframe 0 (by omega)).trans (hbody 0 (by rw [frameBody_length]; omega))
  have hL : (bufRead b 0).toNat = 2 + payload.length := by rw [h0, frameBody_lengthByte hlegal]
  have hslice : bufSlice b 0 (need L) = f := by simp only [bufSlice, Nat.zero_add, f]
  have hpasses : verifyFrame m b = true := by
    rw [verifyFrame_eq_wellFormedFrame m (by rw [legalLength, hL]; exact hlegal), hL, hslice, hf]
    exact hwell
  exact ⟨hf ▸ hwell, hf ▸ htake, hpasses, hkept⟩

end Sys2Proof.Machine
end
